-- ==== Sys2Proof/Word.lean ====
section
/-! DEFINITION. The word types of the block (00_scope.md R10, R11, R15, R20): bit vectors for what the spec treats as bits. -/

namespace Sys2Proof

/-- An unsigned 16-bit value; a control/status register (R11). -/
abbrev U16 := BitVec 16

/-- An unsigned 32-bit word: a message, a command word, an operand word, a result word (R10, R70). -/
abbrev U32 := BitVec 32

/-- A 16-bit two's-complement sample (R15). -/
abbrev I16 := BitVec 16

/-- An IEEE 754 binary32 value as its bit pattern (R15, R80). -/
abbrev F32 := BitVec 32

end Sys2Proof
end

