-- ==== Sys2Proof/Syntax.lean ====
section
/-! DEFINITION. The commands of the block (30_encoding.md R74, R76; 40_fifo.md; 41_transposer.md), the processors and agents that issue them
(60_exceptions.md R210, R211), the bus accesses of the informative CPU-side mapping (R84) and the pseudo-instructions (R87). -/

namespace Sys2Proof

/-- The two processors (00_scope.md R8). -/
inductive Proc where
  | p0
  | p1
deriving DecidableEq, Repr

/-- `p XOR 1` (R8). -/
def Proc.peer : Proc → Proc
  | .p0 => .p1
  | .p1 => .p0

/-- The processor a one-bit field names (R72). -/
def Proc.ofBit : Bool → Proc
  | false => .p0
  | true => .p1

/-- The one-bit field that names a processor (R72). -/
def Proc.toBit : Proc → Bool
  | .p0 => false
  | .p1 => true

/-- The agents of the block (60_exceptions.md R211). -/
inductive Agent where
  | processor (p : Proc)
  | producer
  | consumer
deriving DecidableEq, Repr

/-- The channel count of unit B: mono or stereo (00_scope.md R13). -/
inductive Channels where
  | mono
  | stereo
deriving DecidableEq, Repr

/-- The channel count as a number. -/
def Channels.count : Channels → Nat
  | .mono => 1
  | .stereo => 2

/-- `VARIANT`, which also fixes `SAMPLE` (R14): `fixed` has i16 samples, `float` has f32 samples. -/
inductive Variant where
  | fixed
  | float
deriving DecidableEq, Repr

/-- The frames of a `TR.PUT`: a frame is a list of `channels` samples (R82). -/
inductive Block where
  | i16 (frames : List (List I16))
  | f32 (frames : List (List F32))
deriving DecidableEq, Repr

/-- The variant a block's samples belong to (R14). -/
def Block.variant : Block → Variant
  | .i16 _ => .fixed
  | .f32 _ => .float

/-- The frame count `n` of a block. -/
def Block.length : Block → Nat
  | .i16 x => x.length
  | .f32 x => x.length

/-- Whether every frame of a block has `w` samples. -/
def Block.framesHave (w : Nat) : Block → Bool
  | .i16 x => x.all (fun f => f.length == w)
  | .f32 x => x.all (fun f => f.length == w)

/-- The 13 commands, one constructor per row of the opcode table. -/
inductive Instr where
  | fifoInit (p : Proc)
  | fifoSend (p : Proc) (value : U32)
  | fifoRecv (p : Proc)
  | fifoCnt (p : Proc) (value : U16)
  | fifoRdcnt (p : Proc)
  | trReset
  | trSetrate (rate : F32)
  | trSetch (n : U32)
  | trSetaa (enable : Bool)
  | trPut (block : Block)
  | trReceive (n : U32)
  | trClear
  | trIsempty
deriving DecidableEq, Repr

/-- The processor a command acts for; none for the commands of unit B. -/
def Instr.proc? : Instr → Option Proc
  | .fifoInit p => some p
  | .fifoSend p _ => some p
  | .fifoRecv p => some p
  | .fifoCnt p _ => some p
  | .fifoRdcnt p => some p
  | .trReset => none
  | .trSetrate _ => none
  | .trSetch _ => none
  | .trSetaa _ => none
  | .trPut _ => none
  | .trReceive _ => none
  | .trClear => none
  | .trIsempty => none

/-- The agent R210 and R211 give a command to. -/
def Instr.owner : Instr → Agent
  | .fifoInit p => .processor p
  | .fifoSend p _ => .processor p
  | .fifoRecv p => .processor p
  | .fifoCnt p _ => .processor p
  | .fifoRdcnt p => .processor p
  | .trReset => .producer
  | .trSetrate _ => .producer
  | .trSetch _ => .producer
  | .trSetaa _ => .producer
  | .trPut _ => .producer
  | .trReceive _ => .consumer
  | .trClear => .producer
  | .trIsempty => .consumer

/-- A bus access by a processor (20_memory.md R54, R84). -/
inductive BusAccess where
  | read8 (addr : U32)
  | read16 (addr : U32)
  | read32 (addr : U32)
  | write8 (addr : U32) (value : BitVec 8)
  | write16 (addr : U32) (value : U16)
  | write32 (addr : U32) (value : U32)
deriving DecidableEq, Repr

/-- One request the host supplies at the port (70_reset_and_hazards.md R233, R234): the words of one command, tagged with the issuing agent, or
a bus access by a processor (R84, log 11). -/
inductive Request where
  | command (agent : Agent) (words : List U32)
  | bus (p : Proc) (access : BusAccess)
deriving DecidableEq, Repr

/-- The agent that issues a request. -/
def Request.agent : Request → Agent
  | .command a _ => a
  | .bus p _ => .processor p

/-- The pseudo-instructions (R87). -/
inductive Pseudo where
  | fifoReset
  | fifoAck (p : Proc) (ctl : U16)
  | fifoFlush (p : Proc) (ctl : U16)
  | trDrain
deriving DecidableEq, Repr

end Sys2Proof
end

