-- ==== Sys2Proof/WellFormed.lean ====
section
/-! DEFINITION. When a command is well formed for the channel count and the sample type in force (30_encoding.md R74, R82). -/

namespace Sys2Proof

/-- What the decoder must know beside the words (R82): the channel count in force and the sample type. -/
structure PutFormat where
  channels : Channels
  variant : Variant
deriving DecidableEq, Repr

/-- A `TR.PUT` block is well formed when its samples are of the block's sample type, each frame has `channels` samples and the frame count
fits its 32-bit operand word (R82). -/
def Block.wellFormed (fmt : PutFormat) (b : Block) : Bool :=
  decide (b.variant = fmt.variant) && b.framesHave fmt.channels.count && decide (b.length < 2 ^ 32)

/-- Every other operand is held in a type of exactly its width, so only `TR.PUT` has a check. -/
def Instr.wellFormed (fmt : PutFormat) : Instr → Bool
  | .fifoInit _ => true
  | .fifoSend _ _ => true
  | .fifoRecv _ => true
  | .fifoCnt _ _ => true
  | .fifoRdcnt _ => true
  | .trReset => true
  | .trSetrate _ => true
  | .trSetch _ => true
  | .trSetaa _ => true
  | .trPut b => b.wellFormed fmt
  | .trReceive _ => true
  | .trClear => true
  | .trIsempty => true

end Sys2Proof
end

