-- ==== Sys2Proof/Decode.lean ====
section
/-! DEFINITION. The command-port decoder and encoder (30_encoding.md R70 to R83), total on any words, and the expansion of the
pseudo-instructions (R87). -/

namespace Sys2Proof

/-- Why the words at the port are refused as a command: `reservedOpcode` (R77), `reservedBits` (R73, R78, R82), and `wordCount`, the model's
own: fewer or more words than the one command needs (R85, log 6). -/
inductive DecodeError where
  | reservedOpcode
  | reservedBits
  | wordCount
deriving DecidableEq, Repr

/-- The opcodes of the map (R76). -/
inductive Opcode where
  | fifoInit
  | fifoSend
  | fifoRecv
  | fifoCnt
  | fifoRdcnt
  | trReset
  | trSetrate
  | trSetch
  | trSetaa
  | trPut
  | trReceive
  | trClear
  | trIsempty
deriving DecidableEq, Repr

/-- `OPC` (R76). -/
def Opcode.code : Opcode → BitVec 8
  | .fifoInit => 0x01#8
  | .fifoSend => 0x02#8
  | .fifoRecv => 0x03#8
  | .fifoCnt => 0x04#8
  | .fifoRdcnt => 0x05#8
  | .trReset => 0x10#8
  | .trSetrate => 0x11#8
  | .trSetch => 0x12#8
  | .trSetaa => 0x13#8
  | .trPut => 0x14#8
  | .trReceive => 0x15#8
  | .trClear => 0x16#8
  | .trIsempty => 0x17#8

/-- The opcodes in the order of the map (R76). -/
def Opcode.all : List Opcode :=
  [.fifoInit, .fifoSend, .fifoRecv, .fifoCnt, .fifoRdcnt, .trReset, .trSetrate, .trSetch, .trSetaa, .trPut, .trReceive, .trClear, .trIsempty]

/-- The opcode an 8-bit code selects, none for a reserved code (R71, R77). -/
def Opcode.ofCode (c : BitVec 8) : Option Opcode :=
  Opcode.all.find? (fun op => op.code == c)

/-- Whether the `P` field names a processor; for the commands of unit B it must be 0 (R70, R73). -/
def Opcode.usesP : Opcode → Bool
  | .fifoInit => true
  | .fifoSend => true
  | .fifoRecv => true
  | .fifoCnt => true
  | .fifoRdcnt => true
  | .trReset => false
  | .trSetrate => false
  | .trSetch => false
  | .trSetaa => false
  | .trPut => false
  | .trReceive => false
  | .trClear => false
  | .trIsempty => false

/-- The number of operand words before any sample word (R74, R85). -/
def Opcode.operandWords : Opcode → Nat
  | .fifoInit => 0
  | .fifoSend => 1
  | .fifoRecv => 0
  | .fifoCnt => 1
  | .fifoRdcnt => 0
  | .trReset => 0
  | .trSetrate => 1
  | .trSetch => 1
  | .trSetaa => 1
  | .trPut => 1
  | .trReceive => 1
  | .trClear => 0
  | .trIsempty => 0

/-- `OPC = cmd[7:0]` (R71). -/
def cmdOpc (cmd : U32) : BitVec 8 := cmd.extractLsb' 0 8

/-- `P = cmd[8]` (R72). -/
def cmdP (cmd : U32) : Bool := cmd.getLsbD 8

/-- `RES = cmd[31:9]` (R73). -/
def cmdRes (cmd : U32) : BitVec 23 := cmd.extractLsb' 9 23

/-- The command word of an opcode and a processor bit (R70). -/
def cmdWord (op : Opcode) (p : Bool) : U32 :=
  (0#23 ++ BitVec.ofBool p) ++ op.code

/-- `sext_32` of an i16 sample (R82). -/
def i16Word (s : I16) : U32 := s.signExtend 32

/-- The i16 sample a word encodes; none when bits 31:16 are not all copies of bit 15 (R82). -/
def i16OfWord (w : U32) : Option I16 :=
  let s : I16 := w.extractLsb' 0 16
  if i16Word s = w then some s else none

/-- The i16 samples of a list of words; none when one of them is not sign-extended (R82). -/
def i16sOfWords : List U32 → Option (List I16)
  | [] => some []
  | w :: ws =>
    match i16OfWord w with
    | none => none
    | some s =>
      match i16sOfWords ws with
      | none => none
      | some ss => some (s :: ss)

/-- Split a sample stream into frames, L before R in a stereo frame (R82). -/
def framesOf {σ : Type} : Channels → List σ → List (List σ)
  | _, [] => []
  | .mono, s :: ss => [s] :: framesOf .mono ss
  | .stereo, [s] => [[s]]
  | .stereo, l :: r :: ss => [l, r] :: framesOf .stereo ss

/-- The frames of the sample words of a `TR.PUT` (R82): an f32 word is the bit pattern of the sample, and every pattern is accepted. -/
def blockOfWords (fmt : PutFormat) (ws : List U32) : Option Block :=
  match fmt.variant with
  | .fixed =>
    match i16sOfWords ws with
    | none => none
    | some ss => some (.i16 (framesOf fmt.channels ss))
  | .float => some (.f32 (framesOf fmt.channels ws))

/-- The sample words of a block in frame order (R82). -/
def wordsOfBlock : Block → List U32
  | .i16 x => x.flatten.map i16Word
  | .f32 x => x.flatten

/-- The operands of a `TR.PUT` after its command word (R74, R82): `n`, then `n × channels` sample words. -/
def decodePut (fmt : PutFormat) : List U32 → Except DecodeError (Instr × List U32)
  | [] => .error .wordCount
  | n :: ws =>
    let need := n.toNat * fmt.channels.count
    if ws.length < need then .error .wordCount
    else
      match blockOfWords fmt (ws.take need) with
      | none => .error .reservedBits
      | some b => .ok (.trPut b, ws.drop need)

/-- The operands of a command after its command word (R74, R79 to R83), and the words left over. -/
def decodeOperands (fmt : PutFormat) (op : Opcode) (p : Proc) (ws : List U32) : Except DecodeError (Instr × List U32) :=
  match op, ws with
  | .fifoInit, rest => .ok (.fifoInit p, rest)
  | .fifoSend, v :: rest => .ok (.fifoSend p v, rest)
  | .fifoSend, [] => .error .wordCount
  | .fifoRecv, rest => .ok (.fifoRecv p, rest)
  | .fifoCnt, arg :: rest =>
    if arg.extractLsb' 16 16 = 0#16 then .ok (.fifoCnt p (arg.extractLsb' 0 16), rest) else .error .reservedBits
  | .fifoCnt, [] => .error .wordCount
  | .fifoRdcnt, rest => .ok (.fifoRdcnt p, rest)
  | .trReset, rest => .ok (.trReset, rest)
  | .trSetrate, r :: rest => .ok (.trSetrate r, rest)
  | .trSetrate, [] => .error .wordCount
  | .trSetch, n :: rest => .ok (.trSetch n, rest)
  | .trSetch, [] => .error .wordCount
  | .trSetaa, arg :: rest =>
    if arg.extractLsb' 1 31 = 0#31 then .ok (.trSetaa (arg.getLsbD 0), rest) else .error .reservedBits
  | .trSetaa, [] => .error .wordCount
  | .trPut, rest => decodePut fmt rest
  | .trReceive, n :: rest => .ok (.trReceive n, rest)
  | .trReceive, [] => .error .wordCount
  | .trClear, rest => .ok (.trClear, rest)
  | .trIsempty, rest => .ok (.trIsempty, rest)

/-- Decode the command at the front of a word stream and give the words after it. The order of the checks is R197's: reserved opcode, then
reserved bits of the command word; then the operand words. -/
def decodeFront (fmt : PutFormat) : List U32 → Except DecodeError (Instr × List U32)
  | [] => .error .wordCount
  | cmd :: ws =>
    match Opcode.ofCode (cmdOpc cmd) with
    | none => .error .reservedOpcode
    | some op =>
      if cmdRes cmd ≠ 0#23 then .error .reservedBits
      else if op.usesP = false ∧ cmdP cmd = true then .error .reservedBits
      else decodeOperands fmt op (Proc.ofBit (cmdP cmd)) ws

/-- Decode the words of exactly one command (R70, R85). DESIGN CHOICE (log 6): a request with too few or too many words is refused as wordCount. A lack of words is found before the operand
words are looked at; surplus words are counted last, so surplus words behind an operand word with a nonzero reserved bit are refused as reservedBits. -/
def decode (fmt : PutFormat) (ws : List U32) : Except DecodeError Instr :=
  match decodeFront fmt ws with
  | .error e => .error e
  | .ok (i, []) => .ok i
  | .ok (_, _ :: _) => .error .wordCount

/-- The words of a command (R70, R74, R76, R79 to R83). -/
def encode : Instr → List U32
  | .fifoInit p => [cmdWord .fifoInit p.toBit]
  | .fifoSend p v => [cmdWord .fifoSend p.toBit, v]
  | .fifoRecv p => [cmdWord .fifoRecv p.toBit]
  | .fifoCnt p v => [cmdWord .fifoCnt p.toBit, v.zeroExtend 32]
  | .fifoRdcnt p => [cmdWord .fifoRdcnt p.toBit]
  | .trReset => [cmdWord .trReset false]
  | .trSetrate r => [cmdWord .trSetrate false, r]
  | .trSetch n => [cmdWord .trSetch false, n]
  | .trSetaa b => [cmdWord .trSetaa false, (BitVec.ofBool b).zeroExtend 32]
  | .trPut b => cmdWord .trPut false :: BitVec.ofNat 32 b.length :: wordsOfBlock b
  | .trReceive n => [cmdWord .trReceive false, n]
  | .trClear => [cmdWord .trClear false]
  | .trIsempty => [cmdWord .trIsempty false]

/-- The commands a pseudo-instruction expands to (R87). -/
def Pseudo.expand : Pseudo → List Instr
  | .fifoReset => [.fifoInit .p0, .fifoInit .p1]
  | .fifoAck p ctl => [.fifoCnt p ((ctl &&& 0x8404#16) ||| 0x4000#16)]
  | .fifoFlush p ctl => [.fifoCnt p ((ctl &&& 0x8404#16) ||| 0x0008#16)]
  | .trDrain => [.trReceive 0xFFFFFFFF#32]

/-- The format in force after reset (R223): two channels, the reset variant (log 2). -/
def PutFormat.reset : PutFormat where
  channels := .stereo
  variant := .fixed

/-- The words of the instruction whose bits are `w`, bit 0 the least significant bit of the first word, every bit from `nbits` on zero: as many
words as its opcode needs when its operand words are zero, and no fewer than `nbits` fills. -/
def tableWords (nbits w : Nat) : List U32 :=
  let bits := w % 2 ^ nbits
  let operands :=
    match Opcode.ofCode (cmdOpc (BitVec.ofNat 32 bits)) with
    | none => 0
    | some op => op.operandWords
  (List.range (max (1 + operands) ((nbits + 31) / 32))).map (fun i => BitVec.ofNat 32 (bits / 2 ^ (32 * i)))

/-- The instruction the decoder reads from an instruction whose bits are `w`, under the format in force after reset. -/
def decodeTableWord (nbits w : Nat) : Option Instr :=
  match decode PutFormat.reset (tableWords nbits w) with
  | .error _ => none
  | .ok i => some i

/-- The agent to tag the words of a command with, when the host names none: the command's owner (R210, R211). -/
def wordsOwner (fmt : PutFormat) (ws : List U32) : Agent :=
  match decode fmt ws with
  | .error _ => .processor .p0
  | .ok i => i.owner

end Sys2Proof
end

