-- ==== Sys2Proof/Config.lean ====
section
/-! DEFINITION. What is fixed for the life of the block (00_scope.md R8, R9, R12, R16 to R19; 10_state.md R45) and the open values of the spec.
The two data parameters form `Config`, which State carries unchanged, so that every statement about all states is a statement about all
configurations (log 2). `VARIANT` (R14) is the kind of unit B's datapath in State (log 2). `AA_EVAL` is an opaque constant for each sample type (log 3), and so is
the stream of free NaN results (log 4). -/

namespace Sys2Proof

/-- The parameters of the block that are plain data. -/
structure Config where
  /-- `AA_LENGTH`, written `L`: the tap length of the anti-alias filter, a positive integer (R16). -/
  aaLength : Nat
  /-- `ERR_STRIP`: whether the strip masks of a successful send or receive also clear ERROR (R18). -/
  errStrip : Bool
deriving DecidableEq, Repr

/-- R16: `L` is a positive integer. -/
abbrev Config.wf (cfg : Config) : Prop := 0 < cfg.aaLength

/-- The configuration of `State.reset`: `L = 32` is the value D21 names for a model that wants a concrete one (DESIGN CHOICE, log 2); `ERR_STRIP = false` is
the default of R18. No statement rests on it. -/
def Config.default : Config where
  aaLength := 32
  errStrip := false

/-- `NPROC` (R8). -/
def Config.nproc : Nat := 2

/-- `FIFO_DEPTH` (R9). -/
abbrev Config.fifoDepth : Nat := 16

/-- `SCALE` (R12). -/
abbrev Config.scale : Nat := 65536

/-- `RATE_MIN = 2^-16` as binary32 (R19). -/
def Config.rateMin : F32 := 0x37800000#32

/-- `RATE_MAX = 2^8` as binary32 (R19). -/
def Config.rateMax : F32 := 0x43800000#32

/-- `AA_EVAL` for `SAMPLE = i16` (R17): an open function of the cutoff and the window (log 3). -/
opaque Config.aaEvalI16 : F32 → List I16 → I16

/-- `AA_EVAL` for `SAMPLE = f32` (R17): an open function of the cutoff and the window (log 3). -/
opaque Config.aaEvalF32 : F32 → List F32 → F32

/-- The free value behind the NaN results (I3, D36): draw number `n` supplies the sign and the payload of the `n`-th NaN result (log 4). -/
opaque Config.freeNaN : Nat → BitVec 32

end Sys2Proof
end

