-- ==== Sys2Proof/Machine/State.lean ====
section
/-! DEFINITION. The architectural state (10_state.md R23 to R45), the marks of a run (60_exceptions.md R195, R196), the command port and the run's
output (70_reset_and_hazards.md R233, R234), and the power-on state (R220, R223). -/

namespace Sys2Proof.Machine

/-- Why a command faults (60_exceptions.md R194). -/
inductive Fault where
  /-- Raised by FIFO.SEND, FIFO.RECV, FIFO.CNT and FIFO.RDCNT on `p` before both FIFO.INITs (R109). Safe: the run has no continuation. -/
  | uninit (p : Proc)
  /-- Raised by TR.SETCH with a count outside 1 and 2 (R144, R193). Safe: the run has no continuation. -/
  | channels (n : U32)
deriving DecidableEq, Repr

/-- Why a command is refused (60_exceptions.md R196), and the reasons of the model's own. Every refusal is safe: no claim follows about what comes
after it. -/
inductive Refusal where
  /-- Raised by an arm of `exec` that has no meaning yet. None has. -/
  | notModelled (mnemonic : String)
  /-- Raised by the decoder on a reserved opcode (R77). -/
  | reservedOpcode
  /-- Raised by the decoder on a nonzero reserved bit or a sample word that is not sign-extended (R73, R78, R82). -/
  | reservedBits
  /-- Raised by a bus access to CNT that is not its 16-bit access (R54). -/
  | busWidth
  /-- Raised by TR.SETRATE for a rate outside [RATE_MIN, RATE_MAX] (R143). -/
  | rateRange (r : F32)
  /-- Raised by TR.SETCH for a change of width while frames are buffered (R153). -/
  | channelChangeNonempty
  /-- The model's own (log 6): the port holds fewer or more words than the one command needs. -/
  | wordCount
  /-- The model's own (log 11): a bus access that reaches nothing of the block. -/
  | busAddress
  /-- The model's own (log 7): a step with nothing at the port; the run has ended. -/
  | noCommand
  /-- The model's own (log 12): a TR.PUT whose block does not have the block's sample type or frame width; the decoder never makes one. -/
  | illFormedPut
  /-- The model's own (log 13): a TR.PUT whose interpolation loop does not end; only in states outside R39 and R40. -/
  | transposeDiverges
deriving DecidableEq, Repr

/-- The kinds of interrupt request (60_exceptions.md R200). -/
inductive IrqKind where
  | sendEmpty
  | recvNonempty
deriving DecidableEq, Repr

/-- An entry of a command's event list (00_scope.md R22): an interrupt request for a processor, or a reschedule notification. -/
inductive Event where
  | irq (p : Proc) (k : IrqKind)
  | resched
deriving DecidableEq, Repr

/-- What one completed command shows (R75, R233): the agent that issued it, its result words and its ordered events. -/
structure Response where
  agent : Option Agent
  result : List U32
  events : List Event
deriving DecidableEq, Repr

/-- One value for each processor. -/
structure PerProc (α : Type) where
  p0 : α
  p1 : α
deriving DecidableEq, Repr

/-- The value of processor `p`. -/
def PerProc.get {α : Type} (x : PerProc α) : Proc → α
  | .p0 => x.p0
  | .p1 => x.p1

/-- Replace the value of processor `p`. -/
def PerProc.set {α : Type} (x : PerProc α) (p : Proc) (v : α) : PerProc α :=
  match p with
  | .p0 => { x with p0 := v }
  | .p1 => { x with p1 := v }

/-- A send queue `Q[p]` (10_state.md R36): `size` is a register of its own (R37). -/
structure Queue where
  buf : Vector U32 Config.fifoDepth
  head : Fin Config.fifoDepth
  tail : Fin Config.fifoDepth
  size : Nat
deriving DecidableEq, Repr

/-- Unit A: the control/status registers (R24), the send queues (R36) and the initialisation marks (R38). -/
structure UnitA where
  cnt : PerProc U16
  queue : PerProc Queue
  init : PerProc Bool
deriving DecidableEq, Repr

/-- Unit B's interpolation registers (R40) and sample buffers (R41) for a sample type and a phase type: `acc` is `slope` or `phase`. The buffers are unbounded (log 15). -/
structure Lane (σ π : Type) where
  acc : π
  prev0 : σ
  prev1 : σ
  store : List (List σ)
  temp : List (List σ)
  output : List (List σ)
deriving DecidableEq, Repr

/-- Unit B's datapath, its kind being `VARIANT` (00_scope.md R14): FIXED has the fixed-point step register (R39), a `Nat` slope and i16 samples;
FLOAT has a binary32 phase and f32 samples. -/
inductive Datapath where
  | fixed (step : Nat) (lane : Lane I16 Nat)
  | float (lane : Lane F32 F32)
deriving DecidableEq, Repr

/-- Unit B (R39 to R41). -/
structure UnitB where
  rate : F32
  cutoff : F32
  channels : Channels
  aaEnable : Bool
  datapath : Datapath
deriving DecidableEq, Repr

/-- The state of the block. -/
structure State where
  /-- The parameters (R16, R18, R45); no command changes them (log 2). -/
  cfg : Config
  unitA : UnitA
  unitB : UnitB
  /-- The command index `k` (R42). -/
  index : Nat
  /-- The fault mark (R195). -/
  faultMark : Option Fault
  /-- The refusal mark (R196). -/
  refusalMark : Option Refusal
  /-- The requests the host has supplied and the block has not taken, oldest first (R233, R234; log 5). -/
  port : List Request
  /-- The agent of the command now being executed, or of the last one (R211, R233). -/
  agent : Option Agent
  /-- The run's observable output, oldest first (R233; log 9). No command reads it. -/
  outputs : List Response
  /-- The model's own: how many NaN results have been drawn (I3; log 4). -/
  nanDraws : Nat
deriving DecidableEq, Repr

/-- `VARIANT` (R14). -/
def Datapath.variant : Datapath → Variant
  | .fixed _ _ => .fixed
  | .float _ => .float

/-- The lane at reset: zero phase, zero previous samples, empty buffers (R140, R223). -/
def Lane.reset {σ π : Type} (zeroσ : σ) (zeroπ : π) : Lane σ π where
  acc := zeroπ
  prev0 := zeroσ
  prev1 := zeroσ
  store := []
  temp := []
  output := []

/-- The datapath of a variant at reset (R140, R223). -/
def Datapath.reset : Variant → Datapath
  | .fixed => .fixed 65536 (Lane.reset 0#16 0)
  | .float => .float (Lane.reset 0#32 0#32)

/-- Unit B of a variant at reset: rate 1.0, cutoff 0.5, two channels, filter enabled (R223). -/
def UnitB.reset (v : Variant) : UnitB where
  rate := 0x3F800000#32
  cutoff := 0x3F000000#32
  channels := .stereo
  aaEnable := true
  datapath := Datapath.reset v

/-- An empty queue with a zeroed buffer (R100). -/
def Queue.zero : Queue where
  buf := Vector.replicate Config.fifoDepth 0#32
  head := 0
  tail := 0
  size := 0

/-- Unit A at power-on (R220): not initialised; the registers and queues, which hold no value yet, are zero in the model (DESIGN CHOICE, log 1). -/
def UnitA.powerOn : UnitA where
  cnt := ⟨0x0000#16, 0x0000#16⟩
  queue := ⟨Queue.zero, Queue.zero⟩
  init := ⟨false, false⟩

/-- The power-on state of a block with the given parameters (R220, R223). -/
def State.powerOn (cfg : Config) (v : Variant) : State where
  cfg := cfg
  unitA := UnitA.powerOn
  unitB := UnitB.reset v
  index := 0
  faultMark := none
  refusalMark := none
  port := []
  agent := none
  outputs := []
  nanDraws := 0

/-- The power-on state of the block the model's tests use: VARIANT = FIXED, L = 32, ERR_STRIP = false (log 2). -/
def State.reset : State := State.powerOn Config.default .fixed

end Sys2Proof.Machine
end

