-- ==== Sys2Proof/Machine/Flags.lean ====
section
/-! DEFINITION. The fields of the control/status register and every computation of status bits (10_state.md R24 to R35; 40_fifo.md R99, R111, R133). The bit
positions and masks are the spec's decisions D1 to D3. -/

namespace Sys2Proof.Machine

namespace Cnt

/-- Field masks and derived constants (R99). -/
abbrev SEMPTY : U16 := 0x0001#16
abbrev SFULL : U16 := 0x0002#16
abbrev SIRQ : U16 := 0x0004#16
abbrev SCLEAR : U16 := 0x0008#16
abbrev REMPTY : U16 := 0x0100#16
abbrev RFULL : U16 := 0x0200#16
abbrev RIRQ : U16 := 0x0400#16
abbrev ERROR : U16 := 0x4000#16
abbrev ENABLE : U16 := 0x8000#16

/-- The writeable mask `W` (R35, R99). -/
abbrev W : U16 := 0x8404#16

/-- `INIT_VALUE = ENABLE | REMPTY | SEMPTY` (R99). -/
abbrev initValue : U16 := 0x8101#16

/-- The bits that read 0: SCLEAR (R28) and the reserved bits 4-7 and 11-13 (R29). -/
abbrev zeroBits : U16 := 0x38F8#16

/-- `STRIP_S = SEMPTY | SFULL | E` (R99). -/
def stripS (errStrip : Bool) : U16 := SEMPTY ||| SFULL ||| (if errStrip then ERROR else 0#16)

/-- `STRIP_R = REMPTY | RFULL | E` (R99). -/
def stripR (errStrip : Bool) : U16 := REMPTY ||| RFULL ||| (if errStrip then ERROR else 0#16)

/-- The fields by name (R24). -/
def sempty (c : U16) : Bool := c.getLsbD 0
def sfull (c : U16) : Bool := c.getLsbD 1
def sirq (c : U16) : Bool := c.getLsbD 2
def sclear (c : U16) : Bool := c.getLsbD 3
def rempty (c : U16) : Bool := c.getLsbD 8
def rfull (c : U16) : Bool := c.getLsbD 9
def rirq (c : U16) : Bool := c.getLsbD 10
def error (c : U16) : Bool := c.getLsbD 14
def enable (c : U16) : Bool := c.getLsbD 15

/-- Set the bits of a mask. -/
def setBits (c mask : U16) : U16 := c ||| mask

/-- Clear the bits of a mask. -/
def clearBits (c mask : U16) : U16 := c &&& ~~~mask

/-- The sender's register after a successful SEND that leaves the queue full or not (R110). -/
def afterSendLocal (errStrip full : Bool) (c : U16) : U16 :=
  let c := clearBits c (stripS errStrip)
  if full then setBits c SFULL else c

/-- The receiver's register after a successful SEND by its peer (R110). -/
def afterSendRemote (errStrip full : Bool) (c : U16) : U16 :=
  let c := clearBits c (stripR errStrip)
  if full then setBits c RFULL else c

/-- The receiver's register after its successful RECV that leaves the queue empty or not (R120). -/
def afterRecvLocal (errStrip empty : Bool) (c : U16) : U16 :=
  let c := clearBits c (stripR errStrip)
  if empty then setBits c REMPTY else c

/-- The sender's register after a successful RECV by its peer (R120). -/
def afterRecvRemote (errStrip empty : Bool) (c : U16) : U16 :=
  let c := clearBits c (stripS errStrip)
  if empty then setBits c SEMPTY else c

/-- The writeable merge (R133). -/
def merge (c value : U16) : U16 := clearBits c W ||| (value &&& W)

/-- The local register after `FIFO.CNT` (R130): error acknowledge, send clear, writeable merge, in that order. -/
def afterConfigureLocal (value c : U16) : U16 :=
  let c := if error value then clearBits c ERROR else c
  let c := if sclear value then clearBits (setBits c SEMPTY) SFULL else c
  merge c value

/-- The peer's register after `FIFO.CNT` (R130): only a send clear changes it. -/
def afterConfigureRemote (value c : U16) : U16 :=
  if sclear value then clearBits (setBits c REMPTY) RFULL else c

end Cnt

/-- The interrupt line of a request kind (60_exceptions.md R203). -/
def IrqKind.line : IrqKind → Nat
  | .sendEmpty => 17
  | .recvNonempty => 18

end Sys2Proof.Machine
end

