-- ==== Sys2Proof/Machine/Ops.lean ====
section
/-! DEFINITION. The named operations over the state: how a command completes, faults and is recorded, the UNINIT check, the queues, the bank view of CNT,
and taking a request from the port. The block takes no exception and has no return from one (60_exceptions.md R190, R207, R208). -/

namespace Sys2Proof.Machine

/-- The outcome of one step of this machine. -/
abbrev Result := Host.Outcome State Fault Refusal

/-! ### Completing a command -/

/-- The state a completed command leaves: the index advances (R42) and the response is output (R43, R233). -/
def State.complete (s : State) (result : List U32) (events : List Event) : State :=
  { s with
    index := s.index + 1
    outputs := s.outputs ++ [⟨s.agent, result, events⟩] }

/-- A command ends in `Ok(state', result, events)` (00_scope.md R22). -/
def State.ok (s : State) (result : List U32) (events : List Event) : Result := .next (s.complete result events)

/-- Whether both processors are initialised (10_state.md R38). -/
def UnitA.ready (a : UnitA) : Bool := a.init.p0 && a.init.p1

/-- The check SEND, RECV, CNT and RDCNT share, before every other step of theirs (R109). -/
def State.whenReady (s : State) (p : Proc) (k : Result) : Result :=
  if s.unitA.ready then k else .fault (.uninit p)

/-! ### The control/status registers -/

/-- `CNT[p]`. -/
def State.cnt (s : State) (p : Proc) : U16 := s.unitA.cnt.get p

/-- `CNT[p] <- v`. -/
def State.setCnt (s : State) (p : Proc) (v : U16) : State :=
  { s with unitA := { s.unitA with cnt := s.unitA.cnt.set p v } }

/-- The byte offset of `CNT[p]` in its processor's I/O bank (20_memory.md R51). -/
def cntOffset : Nat := 0x184

/-- The absolute base of bank `0x40` (R51). -/
def bankBase : Nat := 0x40 <<< 20

/-- The byte at an offset of processor `p`'s I/O bank, where it belongs to the block: `CNT[p]`, little-endian (R51, R53). None where nothing of the block
is (R52) or where `CNT[p]` holds no value yet (R38). -/
def State.bankByte (s : State) (p : Proc) (offset : Nat) : Option (BitVec 8) :=
  if s.unitA.init.get p = true then
    if offset = cntOffset then some ((s.cnt p).extractLsb' 0 8)
    else if offset = cntOffset + 1 then some ((s.cnt p).extractLsb' 8 8)
    else none
  else none

/-- `BankRead16(p, offset)` (R21): the two bytes of the location, the first the low byte. -/
def State.bankRead16 (s : State) (p : Proc) (offset : Nat) : Option U16 :=
  match s.bankByte p offset, s.bankByte p (offset + 1) with
  | some lo, some hi => some (hi ++ lo)
  | _, _ => none

/-! ### The queues -/

/-- `Q[p]`. -/
def State.queue (s : State) (p : Proc) : Queue := s.unitA.queue.get p

/-- `Q[p] <- q`. -/
def State.setQueue (s : State) (p : Proc) (q : Queue) : State :=
  { s with unitA := { s.unitA with queue := s.unitA.queue.set p q } }

/-- Append a word at `tail`, which wraps modulo 16 (10_state.md R36, R110). -/
def Queue.push (q : Queue) (v : U32) : Queue where
  buf := q.buf.set q.tail v
  head := q.head
  tail := q.tail + 1
  size := q.size + 1

/-- The word at `head`, the oldest entry (R36, R120). -/
def Queue.front (q : Queue) : U32 := q.buf[q.head]

/-- Remove the word at `head`, which wraps modulo 16 (R36, R120). -/
def Queue.pop (q : Queue) : Queue where
  buf := q.buf
  head := q.head + 1
  tail := q.tail
  size := q.size - 1

/-- The send clear (R130, R132): the slots are kept (D30). -/
def Queue.clear (q : Queue) : Queue where
  buf := q.buf
  head := 0
  tail := 0
  size := 0

/-- `size > 15` (R110). -/
def Queue.isFull (q : Queue) : Bool := decide (15 < q.size)

/-- `size == 0` (R120). -/
def Queue.isEmpty (q : Queue) : Bool := decide (q.size = 0)

/-- The words still queued, oldest first: `size` slots from `head` on, modulo 16. -/
def Queue.contents (q : Queue) : List U32 :=
  (List.range q.size).map (fun i => q.buf[q.head + Fin.ofNat Config.fifoDepth i])

/-! ### Unit B -/

/-- Replace unit B. -/
def State.setUnitB (s : State) (b : UnitB) : State := { s with unitB := b }

/-- The format in force (30_encoding.md R82). -/
def State.format (s : State) : PutFormat where
  channels := s.unitB.channels
  variant := s.unitB.datapath.variant

/-! ### The port and the marks -/

/-- The host supplies a request (70_reset_and_hazards.md R234). -/
def State.submit (s : State) (r : Request) : State := { s with port := s.port ++ [r] }

/-- The block takes the request at the front of the port: `rest` stays, and `agent` is the issuer (R233). -/
def State.issue (s : State) (agent : Agent) (rest : List Request) : State :=
  { s with port := rest, agent := some agent }

/-- A decoding error as the refusal it is (60_exceptions.md R196). -/
def Refusal.ofDecode : DecodeError → Refusal
  | .reservedOpcode => .reservedOpcode
  | .reservedBits => .reservedBits
  | .wordCount => .wordCount

/-- Record a fault in the fault mark, which is never cleared (R195). -/
def State.recordFault (s : State) (f : Fault) : State :=
  { s with faultMark := some (s.faultMark.getD f) }

/-- Record a refusal in the refusal mark (R196). An empty port is the end of the run and no command, so it leaves no mark (log 7). -/
def State.recordRefusal (s : State) (r : Refusal) : State :=
  match r with
  | .noCommand => s
  | r => { s with refusalMark := some (s.refusalMark.getD r) }

/-- The state a run shows after a step's outcome (R22, R195, R196). -/
def State.afterOutcome (s : State) : Result → State
  | .next t => t
  | .fault f => s.recordFault f
  | .refused r => s.recordRefusal r

end Sys2Proof.Machine
end

