-- ==== Sys2Proof/Machine/Operands.lean ====
section
/-! DEFINITION. Operand and result forms of the commands (30_encoding.md R75, R79 to R83): the result words of each command and the channel count an operand names. -/

namespace Sys2Proof.Machine

/-- The channel count a `TR.SETCH` operand names (R81, R144); none outside 1 and 2. -/
def channelsOf (n : U32) : Option Channels :=
  if n = 1#32 then some .mono
  else if n = 2#32 then some .stereo
  else none

/-- `zext_32(CNT[P])`, the result word of `FIFO.RDCNT` (R75). -/
def cntWord (c : U16) : U32 := c.zeroExtend 32

/-- The result word of `TR.ISEMPTY`: 1 for true and 0 for false (R75). -/
def boolWord (b : Bool) : U32 := if b then 1#32 else 0#32

/-- The result words of `TR.RECEIVE`: the number of frames taken, then their samples, encoded as in R82 (R75, R83). -/
def receiveWords (taken : Block) : List U32 := BitVec.ofNat 32 taken.length :: wordsOfBlock taken

end Sys2Proof.Machine
end

