-- ==== Sys2Proof/Machine/Bus.lean ====
section
/-! DEFINITION. The register bus: which command a processor's bus access issues (20_memory.md R51 to R55; 30_encoding.md R84, informative, log 11), and
taking the request at the front of the port. -/

namespace Sys2Proof.Machine

/-- The address of `CNT[p]` in processor `p`'s address space (R51). -/
def cntAddr : Nat := bankBase + cntOffset

/-- The address whose 32-bit write issues SEND (R84). -/
def sendAddr : Nat := 0x04000188

/-- The address whose 32-bit read issues RECV (R84). -/
def recvAddr : Nat := 0x04100000

/-- Whether an access of `width` bytes at `addr` touches one of the two bytes of `CNT[p]`. -/
def touchesCnt (addr width : Nat) : Bool := decide (addr < cntAddr + 2) && decide (cntAddr < addr + width)

/-- Why an access is refused: it touches `CNT[p]` but is not its 16-bit access (R54, R55), or it reaches nothing of the block (R52). -/
def busRefusal (addr width : Nat) : Refusal :=
  if touchesCnt addr width then .busWidth else .busAddress

/-- The command a bus access by `p` issues (R84). -/
def busCommand (p : Proc) : BusAccess → Except Refusal Instr
  | .read8 a => .error (busRefusal a.toNat 1)
  | .read16 a => if a.toNat = cntAddr then .ok (.fifoRdcnt p) else .error (busRefusal a.toNat 2)
  | .read32 a => if a.toNat = recvAddr then .ok (.fifoRecv p) else .error (busRefusal a.toNat 4)
  | .write8 a _ => .error (busRefusal a.toNat 1)
  | .write16 a v => if a.toNat = cntAddr then .ok (.fifoCnt p v) else .error (busRefusal a.toNat 2)
  | .write32 a v => if a.toNat = sendAddr then .ok (.fifoSend p v) else .error (busRefusal a.toNat 4)

/-- The command a request asks for, under the format in force. -/
def requestCommand (fmt : PutFormat) : Request → Except Refusal Instr
  | .command _ ws =>
    match decode fmt ws with
    | .error e => .error (.ofDecode e)
    | .ok i => .ok i
  | .bus p a => busCommand p a

/-- Put the words of one command at the front of the port, tagged with the agent that owns it. -/
def State.placeWords (s : State) (ws : List U32) : State :=
  { s with port := .command (wordsOwner s.format ws) ws :: s.port }

end Sys2Proof.Machine
end

