-- ==== Sys2Proof/Machine/Fifo.lean ====
section
/-! DEFINITION. The commands of unit A (40_fifo.md R100 to R135). `r` is the remote processor `p XOR 1`. -/

namespace Sys2Proof.Machine

/-- `FIFO.INIT p` (R100): the queue zeroed, `CNT[p] <- INIT_VALUE`, `init[p] <- true`; no event, no precondition. -/
def execFifoInit (p : Proc) (s : State) : Result :=
  State.ok { s with unitA :=
    { queue := s.unitA.queue.set p Queue.zero
      cnt := s.unitA.cnt.set p Cnt.initValue
      init := s.unitA.init.set p true } } [] []

/-- `FIFO.SEND p, value` (R110 to R115). -/
def execFifoSend (p : Proc) (value : U32) (s : State) : Result :=
  s.whenReady p <|
    let r := p.peer
    let cntL := s.cnt p
    if Cnt.enable cntL = false then s.ok [] []
    else if (s.queue p).isFull then (s.setCnt p (Cnt.setBits cntL Cnt.ERROR)).ok [] []
    else
      let q := (s.queue p).push value
      let cntL := Cnt.afterSendLocal s.cfg.errStrip q.isFull cntL
      let cntR := Cnt.afterSendRemote s.cfg.errStrip q.isFull (s.cnt r)
      let irqs := if Cnt.rirq cntR then [Event.irq r .recvNonempty] else []
      (((s.setQueue p q).setCnt p cntL).setCnt r cntR).ok [] (irqs ++ [.resched])

/-- `FIFO.RECV p` (R120 to R124). -/
def execFifoRecv (p : Proc) (s : State) : Result :=
  s.whenReady p <|
    let r := p.peer
    let cntL := s.cnt p
    if Cnt.enable cntL = false then s.ok [0#32] []
    else if (s.queue r).isEmpty then (s.setCnt p (Cnt.setBits cntL Cnt.ERROR)).ok [0#32] []
    else
      let val := (s.queue r).front
      let q := (s.queue r).pop
      let cntL := Cnt.afterRecvLocal s.cfg.errStrip q.isEmpty cntL
      let cntR := Cnt.afterRecvRemote s.cfg.errStrip q.isEmpty (s.cnt r)
      let irqs := if q.isEmpty && Cnt.sirq cntR then [Event.irq r .sendEmpty] else []
      (((s.setQueue r q).setCnt p cntL).setCnt r cntR).ok [val] (irqs ++ [.resched])

/-- The interrupt requests `FIFO.CNT` makes for the local processor, tested on the register after the update (R134, R205). -/
def configureIrqs (p : Proc) (cntL : U16) : List Event :=
  (if Cnt.sirq cntL && Cnt.sempty cntL then [Event.irq p .sendEmpty] else []) ++
  (if Cnt.rirq cntL && !Cnt.rempty cntL then [Event.irq p .recvNonempty] else [])

/-- `FIFO.CNT p, value` (R130 to R134): not gated by ENABLE. -/
def execFifoCnt (p : Proc) (value : U16) (s : State) : Result :=
  s.whenReady p <|
    let r := p.peer
    let cntL := Cnt.afterConfigureLocal value (s.cnt p)
    let cntR := Cnt.afterConfigureRemote value (s.cnt r)
    let q := if Cnt.sclear value then (s.queue p).clear else s.queue p
    (((s.setQueue p q).setCnt p cntL).setCnt r cntR).ok [] (configureIrqs p cntL ++ [.resched])

/-- `FIFO.RDCNT p` (R135). -/
def execFifoRdcnt (p : Proc) (s : State) : Result :=
  s.whenReady p (s.ok [cntWord (s.cnt p)] [])

end Sys2Proof.Machine
end

