-- ==== Sys2Proof/Machine/Binary32.lean ====
section
/-! DEFINITION. IEEE 754 binary32 arithmetic, round to nearest even, each operation rounded singly, subnormals kept (00_scope.md R20; 92_eei_decisions.md D16).
A finite value is held exactly as a multiple of 2^-149, the smallest subnormal, so sums and comparisons are exact integer work and every rounding is one
function of an exact quotient. -/

namespace Sys2Proof.Machine

/-- A binary32 value: a NaN of any sign and payload, an infinity, or a finite value of magnitude `mag × 2^-149`. -/
inductive FVal where
  | nan
  | inf (neg : Bool)
  | fin (neg : Bool) (mag : Nat)
deriving DecidableEq, Repr

namespace FVal

/-- The value of a bit pattern (R80): `arg[31]` sign, `arg[30:23]` biased exponent, `arg[22:0]` fraction. -/
def ofBits (b : F32) : FVal :=
  let neg := b.getLsbD 31
  let e := (b.extractLsb' 23 8).toNat
  let f := (b.extractLsb' 0 23).toNat
  if e = 255 then (if f = 0 then .inf neg else .nan)
  else if e = 0 then .fin neg f
  else .fin neg ((2 ^ 23 + f) * 2 ^ (e - 1))

/-- How many powers of two a magnitude's unit in the last place is above 2^-149. -/
def scaleOf (n : Nat) : Nat := n.log2 - 23

/-- The nearest integer to `num / den`, ties to even. -/
def nearestEven (num den : Nat) : Nat :=
  let q := num / den
  let r := num % den
  if 2 * r < den then q
  else if 2 * r = den ∧ q % 2 = 0 then q
  else q + 1

/-- The magnitude, in units of 2^-149 and with no bound on the exponent, nearest to `num / den` units among those with a 24-bit significand. -/
def roundMag (num den : Nat) : Nat :=
  let e := scaleOf (num / den)
  nearestEven num (den * 2 ^ e) * 2 ^ e

/-- 2^128 in units of 2^-149: magnitudes from here on are infinite. -/
def overflowMag : Nat := 2 ^ 24 * 2 ^ 253

/-- `fl` of a value of sign `neg` and exact magnitude `num / den` units (R20). -/
def round (neg : Bool) (num den : Nat) : FVal :=
  let m := roundMag num den
  if overflowMag ≤ m then .inf neg else .fin neg m

/-- The low 31 bits of the pattern of a finite magnitude. -/
def magBits (m : Nat) : Nat :=
  let e := scaleOf m
  e * 2 ^ 23 + m / 2 ^ e

/-- The bit pattern of a value; `nanBits` is the pattern a NaN takes. -/
def toBits (nanBits : F32) : FVal → F32
  | .nan => nanBits
  | .inf neg => BitVec.ofBool neg ++ 0x7F800000#31
  | .fin neg m => BitVec.ofBool neg ++ BitVec.ofNat 31 (magBits m)

/-- The exact value in units of 2^-149; an infinity counts as 2^300 of them, which is above every finite value. -/
def units : FVal → Int
  | .nan => 0
  | .inf false => 2 ^ 150 * 2 ^ 150
  | .inf true => -(2 ^ 150 * 2 ^ 150)
  | .fin false m => m
  | .fin true m => -m

/-- `x < y`; false when either is a NaN. -/
def lt (x y : FVal) : Bool :=
  decide (x ≠ .nan) && decide (y ≠ .nan) && decide (x.units < y.units)

/-- Negation; a NaN stays a NaN. -/
def neg : FVal → FVal
  | .nan => .nan
  | .inf s => .inf (!s)
  | .fin s m => .fin (!s) m

/-- `fl(x + y)`: an exact zero sum is +0 unless both operands are −0. -/
def add : FVal → FVal → FVal
  | .nan, _ => .nan
  | .inf _, .nan => .nan
  | .fin _ _, .nan => .nan
  | .inf s, .inf t => if s = t then .inf s else .nan
  | .inf s, .fin _ _ => .inf s
  | .fin _ _, .inf t => .inf t
  | .fin s m, .fin t n =>
    let z : Int := units (.fin s m) + units (.fin t n)
    if z = 0 then .fin (s && t) 0 else round (decide (z < 0)) z.natAbs 1

/-- `fl(x - y)`. -/
def sub (x y : FVal) : FVal := add x (neg y)

/-- `fl(x * y)`. -/
def mul : FVal → FVal → FVal
  | .nan, _ => .nan
  | .inf _, .nan => .nan
  | .fin _ _, .nan => .nan
  | .inf s, .inf t => .inf (s ^^ t)
  | .inf s, .fin t n => if n = 0 then .nan else .inf (s ^^ t)
  | .fin s m, .inf t => if m = 0 then .nan else .inf (s ^^ t)
  | .fin s m, .fin t n => round (s ^^ t) (m * n) (2 ^ 149)

/-- `fl(x / y)`. -/
def div : FVal → FVal → FVal
  | .nan, _ => .nan
  | .inf _, .nan => .nan
  | .fin _ _, .nan => .nan
  | .inf _, .inf _ => .nan
  | .inf s, .fin t _ => .inf (s ^^ t)
  | .fin s _, .inf t => .fin (s ^^ t) 0
  | .fin s m, .fin t n =>
    if n = 0 then (if m = 0 then .nan else .inf (s ^^ t)) else round (s ^^ t) (m * 2 ^ 149) n

/-- 1.0. -/
def one : FVal := .fin false (2 ^ 149)

/-- 0.5. -/
def half : FVal := .fin false (2 ^ 148)

end FVal

/-- The NaN encoding of draw number `n` (I3, D36): its sign and payload are free, its exponent is all ones and its fraction is not zero (log 4). -/
def nanBits (n : Nat) : F32 :=
  let b := Config.freeNaN n ||| 0x7F800000#32
  if b.extractLsb' 0 23 = 0#23 then b ||| 0x00400000#32 else b

/-- Whether a bit pattern is a NaN. -/
def isNaN (b : F32) : Bool := decide (FVal.ofBits b = .nan)

/-- Whether a rate is admitted: not a NaN and in [RATE_MIN, RATE_MAX] (00_scope.md R19, 41_transposer.md R143). -/
def rateAdmitted (r : F32) : Bool :=
  !isNaN r && !FVal.lt (.ofBits r) (.ofBits Config.rateMin) && !FVal.lt (.ofBits Config.rateMax) (.ofBits r)

/-- `Cutoff(r)` (R141). For an admitted rate it is no NaN, so the draw it names is never used. -/
def cutoffOf (r : F32) : F32 :=
  let x := FVal.ofBits r
  FVal.toBits (nanBits 0) (if FVal.lt FVal.one x then FVal.div FVal.half x else FVal.mul FVal.half x)

/-- `Step(r) = floor(r × 65536 + 1/2)` in exact arithmetic (R142): `r × 65536` is `units / 2^133`. -/
def stepOf (r : F32) : Nat :=
  (((FVal.ofBits r).units + 2 ^ 132) / 2 ^ 133).toNat

end Sys2Proof.Machine
end

