-- ==== Sys2Proof/Machine/Transpose.lean ====
section
/-! DEFINITION. The interpolation algorithm (41_transposer.md R160 to R165), the anti-alias filter's interface (R166, R167) and the three put paths (R146 to R148), written
once for both variants over a `Kernel`. -/

namespace Sys2Proof.Machine

/-- What R160 leaves to the variant: the phase tests and arithmetic (R163, R164), the emission (R161, R162), `AA_EVAL` at the cutoff in force (R166), the
zero sample, and the encoding of the `n`-th NaN draw. `interp` answers none for a NaN result, whose encoding is a free value (I3). -/
structure Kernel (σ π : Type) where
  exceeds : π → Bool
  wrap : π → π
  advance : π → π
  interp : π → σ → σ → Option σ
  fresh : Nat → σ
  filter : List σ → σ
  zero : σ

/-- FIXED emission (R161): `tdiv((65536 - s)·a + s·b, 65536)`, exact, truncating toward zero. -/
def interpFixed (s : Nat) (a b : I16) : I16 :=
  BitVec.ofInt 16 (Int.tdiv ((65536 - (s : Int)) * a.toInt + (s : Int) * b.toInt) 65536)

/-- FLOAT emission (R162): `fl(fl(fl(1.0 - φ)·a) + fl(φ·b))`, each operation rounded singly. -/
def interpFloat (φ a b : F32) : FVal :=
  let x := FVal.ofBits φ
  FVal.add (FVal.mul (FVal.sub FVal.one x) (FVal.ofBits a)) (FVal.mul x (FVal.ofBits b))

/-- An emitted FLOAT sample, none when it is a NaN. -/
def interpFloatBits (φ a b : F32) : Option F32 :=
  match interpFloat φ a b with
  | .nan => none
  | v => some (FVal.toBits (nanBits 0) v)

/-- `fl(phase + rate)` (R164). A NaN phase, which R40 rules out, stays a NaN: the draw it names is never stored (log 13). -/
def advanceFloat (rate phase : F32) : F32 :=
  FVal.toBits (nanBits 0) (FVal.add (.ofBits phase) (.ofBits rate))

/-- `fl(phase - 1.0)` (R164). -/
def wrapFloat (phase : F32) : F32 :=
  FVal.toBits (nanBits 0) (FVal.sub (.ofBits phase) FVal.one)

/-- `phase > 1.0` (R160, C3: strict). -/
def exceedsFloat (phase : F32) : Bool := FVal.lt FVal.one (.ofBits phase)

/-- The FIXED kernel: `ONE = 65536`, `acc = slope`, `adv = step` (R160, R163). -/
def fixedKernel (step : Nat) (cutoff : F32) : Kernel I16 Nat where
  exceeds := fun slope => decide (65536 < slope)
  wrap := fun slope => slope - 65536
  advance := fun slope => slope + step
  interp := fun slope a b => some (interpFixed slope a b)
  fresh := fun _ => 0#16
  filter := Config.aaEvalI16 cutoff
  zero := 0#16

/-- The FLOAT kernel: `ONE = 1.0`, `acc = phase`, `adv = rate` (R160, R164). -/
def floatKernel (rate cutoff : F32) : Kernel F32 F32 where
  exceeds := exceedsFloat
  wrap := wrapFloat
  advance := advanceFloat rate
  interp := interpFloatBits
  fresh := nanBits
  filter := Config.aaEvalF32 cutoff
  zero := 0#32

section
variable {σ π : Type}

/-- What a run of interpolation gives: the phase it ends at, the NaN draws made so far, and the frames emitted. -/
structure Run (σ π : Type) where
  acc : π
  draws : Nat
  frames : List (List σ)

/-- One output frame: every channel at the same phase (R161, R162). A NaN result takes the next draw. -/
def emitFrame (k : Kernel σ π) (acc : π) : List σ → List σ → Nat → List σ × Nat
  | a :: as, b :: bs, draws =>
    match k.interp acc a b with
    | some v =>
      let (vs, d) := emitFrame k acc as bs draws
      (v :: vs, d)
    | none =>
      let (vs, d) := emitFrame k acc as bs (draws + 1)
      (k.fresh draws :: vs, d)
  | [], _, draws => ([], draws)
  | _ :: _, [], draws => ([], draws)

/-- A bound on the emissions between two wraps. With a rate in [2^-16, 2^8] there are at most 2^17 + 1 of them (log 13). -/
def emitFuel : Nat := 262144

/-- The emissions between one pair of source frames: emit and advance until the phase exceeds `ONE` (R160). None when it never does. -/
def emitRun (k : Kernel σ π) (left right : List σ) : Nat → π → Nat → Option (Run σ π)
  | 0, _, _ => none
  | fuel + 1, acc, draws =>
    if k.exceeds acc then some ⟨acc, draws, []⟩
    else
      let (y, d) := emitFrame k acc left right draws
      match emitRun k left right fuel (k.advance acc) d with
      | none => none
      | some r => some ⟨r.acc, r.draws, y :: r.frames⟩

/-- The loop of R160 from left endpoint `left` over the right endpoints still to come: emit on this pair, wrap once, and go on to the next pair; stop when
no right endpoint is left. -/
def transposeFrom (k : Kernel σ π) (left : List σ) : List (List σ) → π → Nat → Option (Run σ π)
  | [], acc, draws => some ⟨acc, draws, []⟩
  | right :: rest, acc, draws =>
    match emitRun k left right emitFuel acc draws with
    | none => none
    | some r =>
      match transposeFrom k right rest (k.wrap r.acc) r.draws with
      | none => none
      | some t => some ⟨t.acc, t.draws, r.frames ++ t.frames⟩

/-- `src(-1) = [prev[0], ..., prev[channels-1]]` (R160). -/
def Lane.prevFrame (lane : Lane σ π) (ch : Channels) : List σ := [lane.prev0, lane.prev1].take ch.count

/-- `prev[c] <- f[c]` for every channel of a frame (R165). -/
def Lane.setPrev (lane : Lane σ π) (f : List σ) : Lane σ π :=
  { lane with
    prev0 := f[0]?.getD lane.prev0
    prev1 := f[1]?.getD lane.prev1 }

/-- A lane with the frames and draws that go with it. -/
structure LaneRun (σ π : Type) where
  lane : Lane σ π
  draws : Nat
  frames : List (List σ)

/-- `Transpose(x)` (R160, R165): the frames emitted, the phase and previous-sample registers updated. -/
def Lane.transpose (k : Kernel σ π) (ch : Channels) (x : List (List σ)) (lane : Lane σ π) (draws : Nat) : Option (LaneRun σ π) :=
  match transposeFrom k (lane.prevFrame ch) x lane.acc draws with
  | none => none
  | some r =>
    let lane := { lane with acc := r.acc }
    some ⟨(match x.getLast? with
      | none => lane
      | some f => lane.setPrev f), r.draws, r.frames⟩

/-- `AA_COUNT(m) = max(0, m - L)` (R167). -/
def aaCount (L m : Nat) : Nat := m - L

/-- The window of output `i`, channel `c`: the `L` samples from input frame `i` on (R166). -/
def window (k : Kernel σ π) (L : Nat) (buf : List (List σ)) (i c : Nat) : List σ :=
  ((buf.drop i).take L).map (fun f => f[c]?.getD k.zero)

/-- `FilterEval(buf, count)` (R166). -/
def filterEval (k : Kernel σ π) (ch : Channels) (L : Nat) (buf : List (List σ)) (count : Nat) : List (List σ) :=
  (List.range count).map (fun i => (List.range ch.count).map (fun c => k.filter (window k L buf i c)))

/-- `PutDirect` (R146). -/
def Lane.putDirect (k : Kernel σ π) (ch : Channels) (x : List (List σ)) (lane : Lane σ π) (draws : Nat) : Option (Lane σ π × Nat) :=
  match lane.transpose k ch x draws with
  | none => none
  | some r => some ({ r.lane with output := r.lane.output ++ r.frames }, r.draws)

/-- `PutUpsample` (R147): interpolate first, then filter. -/
def Lane.putUpsample (k : Kernel σ π) (ch : Channels) (L : Nat) (x : List (List σ)) (lane : Lane σ π) (draws : Nat) : Option (Lane σ π × Nat) :=
  match lane.transpose k ch x draws with
  | none => none
  | some r =>
    let store := r.lane.store ++ r.frames
    let count := aaCount L store.length
    some ({ r.lane with
      output := r.lane.output ++ filterEval k ch L store count
      store := store.drop count }, r.draws)

/-- `PutDownsample` (R148): filter first, then interpolate; `temp` holds the filtered frames in between and is empty again at the end. -/
def Lane.putDownsample (k : Kernel σ π) (ch : Channels) (L : Nat) (x : List (List σ)) (lane : Lane σ π) (draws : Nat) : Option (Lane σ π × Nat) :=
  let store := lane.store ++ x
  let count := aaCount L store.length
  let filtered := { lane with
    temp := filterEval k ch L store count
    store := store.drop count }
  match filtered.transpose k ch filtered.temp draws with
  | none => none
  | some r => some ({ r.lane with
      output := r.lane.output ++ r.frames
      temp := [] }, r.draws)

/-- `TR.PUT` on a lane (R145): nothing for no frames; else the path that `aa_enable` and the rate choose. None when the interpolation does not end. -/
def Lane.put (k : Kernel σ π) (ch : Channels) (L : Nat) (aaEnable upsample : Bool) (x : List (List σ)) (lane : Lane σ π) (draws : Nat) :
    Option (Lane σ π × Nat) :=
  if x = [] then some (lane, draws)
  else if aaEnable = false then lane.putDirect k ch x draws
  else if upsample then lane.putUpsample k ch L x draws
  else lane.putDownsample k ch L x draws

/-- `output` and the store emptied, `temp` too (R151). -/
def Lane.clear (lane : Lane σ π) : Lane σ π := { lane with store := [], temp := [], output := [] }

/-- The interpolation registers reset (R144). -/
def Lane.resetInterp (lane : Lane σ π) (zeroσ : σ) (zeroπ : π) : Lane σ π :=
  { lane with acc := zeroπ, prev0 := zeroσ, prev1 := zeroσ }

/-- The first frames of `output` taken away (R150). -/
def Lane.dropOutput (lane : Lane σ π) (m : Nat) : Lane σ π := { lane with output := lane.output.drop m }

end

/-! ### Over the datapath of either variant -/

/-- `output <- [] ; store <- [] ; temp <- []` (R151). -/
def Datapath.clear : Datapath → Datapath
  | .fixed step lane => .fixed step lane.clear
  | .float lane => .float lane.clear

/-- `slope <- 0` or `phase <- 0.0`, and `prev[0] <- 0 ; prev[1] <- 0` (R144). -/
def Datapath.resetInterp : Datapath → Datapath
  | .fixed step lane => .fixed step (lane.resetInterp 0#16 0)
  | .float lane => .float (lane.resetInterp 0#32 0#32)

/-- `|store|`. -/
def Datapath.storeLength : Datapath → Nat
  | .fixed _ lane => lane.store.length
  | .float lane => lane.store.length

/-- `|output|`. -/
def Datapath.outputLength : Datapath → Nat
  | .fixed _ lane => lane.output.length
  | .float lane => lane.output.length

/-- `if VARIANT == FIXED: step <- v` (R143). -/
def Datapath.setStep (v : Nat) : Datapath → Datapath
  | .fixed _ lane => .fixed v lane
  | .float lane => .float lane

/-- `take(m, output)` (R150). -/
def Datapath.takeOutput (m : Nat) : Datapath → Block
  | .fixed _ lane => .i16 (lane.output.take m)
  | .float lane => .f32 (lane.output.take m)

/-- `drop(m, output)` (R150). -/
def Datapath.dropOutput (m : Nat) : Datapath → Datapath
  | .fixed step lane => .fixed step (lane.dropOutput m)
  | .float lane => .float (lane.dropOutput m)

/-- `rate < 1.0` (R145): the path is chosen by the binary32 rate in both variants. -/
def UnitB.upsamples (b : UnitB) : Bool := FVal.lt (.ofBits b.rate) FVal.one

/-- `TR.PUT` on unit B with `L` taps (R145): the unit and the NaN draws after it, or the model's own refusals for a block that is not of the unit's sample
type and width (log 12) and for an interpolation that does not end (log 13). -/
def UnitB.put (L : Nat) (x : Block) (b : UnitB) (draws : Nat) : Except Refusal (UnitB × Nat) :=
  if x.framesHave b.channels.count = false then .error .illFormedPut
  else
    match b.datapath, x with
    | .fixed step lane, .i16 frames =>
      match lane.put (fixedKernel step b.cutoff) b.channels L b.aaEnable b.upsamples frames draws with
      | none => .error .transposeDiverges
      | some (lane', d) => .ok ({ b with datapath := .fixed step lane' }, d)
    | .float lane, .f32 frames =>
      match lane.put (floatKernel b.rate b.cutoff) b.channels L b.aaEnable b.upsamples frames draws with
      | none => .error .transposeDiverges
      | some (lane', d) => .ok ({ b with datapath := .float lane' }, d)
    | .fixed _ _, .f32 _ => .error .illFormedPut
    | .float _, .i16 _ => .error .illFormedPut

end Sys2Proof.Machine
end

