-- ==== Sys2Proof/Machine/Transposer.lean ====
section
/-! DEFINITION. The commands of unit B (41_transposer.md R140 to R153). None emits an event (60_exceptions.md R206). -/

namespace Sys2Proof.Machine

/-- `TR.RESET` (R140, R223): all of unit B; VARIANT is a parameter and stays. -/
def execTrReset (s : State) : Result :=
  (s.setUnitB
    { rate := 0x3F800000#32
      cutoff := cutoffOf 0x3F800000#32
      channels := .stereo
      aaEnable := true
      datapath := match s.unitB.datapath.variant with
        | .fixed => .fixed (stepOf 0x3F800000#32) (Lane.reset 0#16 0)
        | .float => .float (Lane.reset 0#32 0#32) }).ok [] []

/-- `TR.SETRATE rate` (R143): `rate`, `cutoff`, and `step` when FIXED. -/
def execTrSetrate (r : F32) (s : State) : Result :=
  if rateAdmitted r then
    (s.setUnitB { s.unitB with
      rate := r
      cutoff := cutoffOf r
      datapath := s.unitB.datapath.setStep (stepOf r) }).ok [] []
  else .refused (.rateRange r)

/-- `TR.SETCH n` (R144, R153, R197): the CHANNELS fault, then the no-op, then the non-empty refusal, then the change. -/
def execTrSetch (n : U32) (s : State) : Result :=
  match channelsOf n with
  | none => .fault (.channels n)
  | some ch =>
    if ch = s.unitB.channels then s.ok [] []
    else if 0 < s.unitB.datapath.storeLength ∨ 0 < s.unitB.datapath.outputLength then .refused .channelChangeNonempty
    else
      (s.setUnitB { s.unitB with
        channels := ch
        datapath := s.unitB.datapath.resetInterp }).ok [] []

/-- `TR.SETAA b` (R149): `aa_enable` only. -/
def execTrSetaa (enable : Bool) (s : State) : Result :=
  (s.setUnitB { s.unitB with aaEnable := enable }).ok [] []

/-- `TR.PUT n, s...` (R145 to R148). -/
def execTrPut (block : Block) (s : State) : Result :=
  match s.unitB.put s.cfg.aaLength block s.nanDraws with
  | .error r => .refused r
  | .ok (b, draws) => State.ok { s with unitB := b, nanDraws := draws } [] []

/-- `TR.RECEIVE n` (R150): take `min(n, |output|)` frames, oldest first. -/
def execTrReceive (n : U32) (s : State) : Result :=
  let m := min n.toNat s.unitB.datapath.outputLength
  (s.setUnitB { s.unitB with datapath := s.unitB.datapath.dropOutput m }).ok
    (receiveWords (s.unitB.datapath.takeOutput m)) []

/-- `TR.CLEAR` (R151): the buffers only; the phase and `prev` are kept. -/
def execTrClear (s : State) : Result :=
  (s.setUnitB { s.unitB with datapath := s.unitB.datapath.clear }).ok [] []

/-- `TR.ISEMPTY` (R152). -/
def execTrIsempty (s : State) : Result :=
  s.ok [boolWord (s.unitB.datapath.outputLength == 0 && s.unitB.datapath.storeLength == 0)] []

end Sys2Proof.Machine
end

