-- ==== Sys2Proof/Machine/Dispatch.lean ====
section
/-! DEFINITION. The meaning of every command: one arm per constructor, each one call. -/

namespace Sys2Proof.Machine

def exec (i : Instr) (s : State) : Host.Outcome State Fault Refusal :=
  match i with
  | .fifoInit p => Sys2Proof.Machine.execFifoInit p s
  | .fifoSend p value => Sys2Proof.Machine.execFifoSend p value s
  | .fifoRecv p => Sys2Proof.Machine.execFifoRecv p s
  | .fifoCnt p value => Sys2Proof.Machine.execFifoCnt p value s
  | .fifoRdcnt p => Sys2Proof.Machine.execFifoRdcnt p s
  | .trReset => Sys2Proof.Machine.execTrReset s
  | .trSetrate rate => Sys2Proof.Machine.execTrSetrate rate s
  | .trSetch n => Sys2Proof.Machine.execTrSetch n s
  | .trSetaa enable => Sys2Proof.Machine.execTrSetaa enable s
  | .trPut block => Sys2Proof.Machine.execTrPut block s
  | .trReceive n => Sys2Proof.Machine.execTrReceive n s
  | .trClear => Sys2Proof.Machine.execTrClear s
  | .trIsempty => Sys2Proof.Machine.execTrIsempty s

end Sys2Proof.Machine
end

