-- ==== Sys2Proof/Machine/Step.lean ====
section
/-! DEFINITION. One step of the machine: take the request at the front of the port and run its command (70_reset_and_hazards.md R227, R232, R233). -/

namespace Sys2Proof.Machine

/-- One step. A state with a fault or a refusal recorded goes nowhere (60_exceptions.md R195, R196; log 10). With an empty port the run has ended (R233, log 7). Decoding
comes before any state is read or written by the command (R197). -/
def step (s : State) : Host.Outcome State Fault Refusal :=
  match s.faultMark, s.refusalMark, s.port with
  | some f, _, _ => .fault f
  | none, some r, _ => .refused r
  | none, none, [] => .refused .noCommand
  | none, none, req :: rest =>
    match requestCommand s.format req with
    | .error r => .refused r
    | .ok i => exec i (s.issue req.agent rest)

/-- The state with one command's words placed where the next step takes them: at the front of the port. Nothing else changes; the command is tagged
with the agent that owns it. -/
def State.withFetchWord (s : State) (nbits w : Nat) : State :=
  s.placeWords (tableWords nbits w)

end Sys2Proof.Machine
end

