-- ==== Sys2Proof/Safety.lean ====
section
/-! DEFINITION. What a run is, which of its states count, and the invariants claims are stated with (40_fifo.md R136; 10_state.md R28, R29, R37 to R41;
70_reset_and_hazards.md R233). -/

namespace Sys2Proof.Machine

/-! ### Runs -/

/-- The state a run shows after one more step: the next state, or the same state with the fault or refusal recorded (00_scope.md R22; 60_exceptions.md R195, R196; log 10). -/
def State.advance (s : State) : State := s.afterOutcome (step s)

/-- The state after `n` steps. -/
def State.run : Nat → State → State
  | 0, s => s
  | n + 1, s => State.run n s.advance

/-- A state is final when every request has been taken and no fault or refusal is recorded (R195, R196, R233). -/
def State.final (s : State) : Bool := s.port.isEmpty && s.faultMark.isNone && s.refusalMark.isNone

/-- Whether every request at the port is issued by the agent R210 and R211 give its command to. The block does not check it (R209, log 8). -/
def State.ownersIssue (s : State) : Bool :=
  s.port.all (fun r =>
    match requestCommand s.format r with
    | .error _ => true
    | .ok i => decide (r.agent = i.owner))

/-- The outcome of a list of commands run one after another, stopping at the first fault or refusal. -/
def execAll : List Instr → State → Result
  | [], s => .next s
  | i :: is, s =>
    match exec i s with
    | .next t => execAll is t
    | .fault f => .fault f
    | .refused r => .refused r

/-- What every completed command does and leaves (R22, R42, R43, R45, R233): the index advances by one, one response is output, and the parameters, the port,
the issuer and the marks stay. -/
structure Completed (s t : State) (result : List U32) (events : List Event) : Prop where
  index : t.index = s.index + 1
  outputs : t.outputs = s.outputs ++ [⟨s.agent, result, events⟩]
  cfg : t.cfg = s.cfg
  port : t.port = s.port
  agent : t.agent = s.agent
  faultMark : t.faultMark = s.faultMark
  refusalMark : t.refusalMark = s.refusalMark

/-- Unit B, its sample buffers and the NaN draws are untouched. -/
structure SameUnitB (s t : State) : Prop where
  unitB : t.unitB = s.unitB
  nanDraws : t.nanDraws = s.nanDraws

/-- Unit A is untouched, and with it every byte of both I/O banks. -/
structure SameUnitA (s t : State) : Prop where
  unitA : t.unitA = s.unitA
  bank : ∀ p offset, t.bankByte p offset = s.bankByte p offset

/-- Two registers agree on every bit outside a mask. -/
def SameBitsExcept (mask c d : U16) : Prop := c &&& ~~~mask = d &&& ~~~mask

/-! ### Unit A -/

/-- A command that takes its success path (R206): a SEND by an enabled sender into a queue that is not full, a RECV by an enabled receiver from a queue that is
not empty, or a CNT. -/
def Succeeds (s : State) : Instr → Prop
  | .fifoSend p _ => Cnt.enable (s.cnt p) = true ∧ (s.queue p).size ≤ 15
  | .fifoRecv p => Cnt.enable (s.cnt p) = true ∧ (s.queue p.peer).size ≠ 0
  | .fifoCnt _ _ => True
  | .fifoInit _ => False
  | .fifoRdcnt _ => False
  | .trReset => False
  | .trSetrate _ => False
  | .trSetch _ => False
  | .trSetaa _ => False
  | .trPut _ => False
  | .trReceive _ => False
  | .trClear => False
  | .trIsempty => False

/-- R37: `size` lies in [0,16] and `size mod 16 = (tail - head) mod 16`. -/
structure Queue.Inv (q : Queue) : Prop where
  size_le : q.size ≤ Config.fifoDepth
  size_mod : q.size % Config.fifoDepth = (q.tail - q.head).val

/-- One processor's side once it is initialised: SCLEAR and the reserved bits read 0 (R28, R29), SEMPTY and SFULL agree with the send queue (R136(a), R136(b)). -/
structure UnitA.SideInv (a : UnitA) (p : Proc) : Prop where
  zero_bits : a.cnt.get p &&& Cnt.zeroBits = 0#16
  sempty : Cnt.sempty (a.cnt.get p) = (a.queue.get p).isEmpty
  sfull : Cnt.sfull (a.cnt.get p) = (a.queue.get p).isFull

/-- The invariant of unit A. -/
structure UnitA.Inv (a : UnitA) : Prop where
  queue : ∀ p, (a.queue.get p).Inv
  side : ∀ p, a.init.get p = true → a.SideInv p

/-- R136(c): the receiver's REMPTY and RFULL agree with the queue it receives from. -/
def UnitA.ReceiverAgrees (a : UnitA) (p : Proc) : Prop :=
  Cnt.rempty (a.cnt.get p) = (a.queue.get p.peer).isEmpty ∧ Cnt.rfull (a.cnt.get p) = (a.queue.get p.peer).isFull

/-- Two states that differ at most in the register and queue of processors that are not initialised (R38). -/
structure SameWhereInitialised (s t : State) : Prop where
  rest : t = { s with unitA := { s.unitA with cnt := t.unitA.cnt, queue := t.unitA.queue } }
  cnt : ∀ p, s.unitA.init.get p = true → t.cnt p = s.cnt p
  queue : ∀ p, s.unitA.init.get p = true → t.queue p = s.queue p

/-- Two states that differ at most in queue slots outside the words still queued (R44, R132). -/
structure SameButFreeSlots (s t : State) : Prop where
  rest : t = { s with unitA := { s.unitA with queue := t.unitA.queue } }
  head : ∀ p, (t.queue p).head = (s.queue p).head
  tail : ∀ p, (t.queue p).tail = (s.queue p).tail
  size : ∀ p, (t.queue p).size = (s.queue p).size
  contents : ∀ p, (t.queue p).contents = (s.queue p).contents

/-- Two outcomes of the same kind: related next states, or the same fault, or the same refusal. -/
def SameOutcome (rel : State → State → Prop) : Result → Result → Prop
  | .next t, .next t' => rel t t'
  | .fault f, .fault f' => f = f'
  | .refused r, .refused r' => r = r'
  | _, _ => False

/-! ### Unit B -/

/-- The exact value of a finite binary32 pattern, from its sign, exponent and fraction fields (R80). -/
def f32Value (b : F32) : ℚ :=
  let e := (b.extractLsb' 23 8).toNat
  let f := (b.extractLsb' 0 23).toNat
  let sign : ℚ := if b.getLsbD 31 then -1 else 1
  if e = 0 then sign * (f : ℚ) * 2 ^ (-149 : ℤ)
  else sign * ((2 ^ 23 + f : ℕ) : ℚ) * 2 ^ ((e : ℤ) - 150)

/-- Whether a binary32 pattern is a finite value: its exponent field is not all ones (R80). -/
def f32Finite (b : F32) : Prop := (b.extractLsb' 23 8).toNat ≠ 255

/-- `r` is `fl` of the exact value `v` (R20, D16). Below half a unit in the last place past the largest finite value it is a finite pattern no farther from `v`
than any other, even on a tie; from there on it is the infinity of that sign; and a nonzero `v` gives it its sign. -/
structure RoundsTo (v : ℚ) (r : F32) : Prop where
  nearest : |v| < (2 ^ 25 - 1) * 2 ^ 103 → f32Finite r ∧ ∀ b, f32Finite b →
    |v - f32Value r| ≤ |v - f32Value b| ∧ (|v - f32Value r| = |v - f32Value b| → f32Value b ≠ f32Value r → r.getLsbD 0 = false)
  overflow : (2 ^ 25 - 1) * 2 ^ 103 ≤ |v| → r = if v < 0 then 0xFF800000#32 else 0x7F800000#32
  sign : v ≠ 0 → r.getLsbD 31 = decide (v < 0)

/-- How many of the pairs of a left and a right frame a FLOAT emission at phase `φ` answers with a NaN (R162). -/
def nanEmissions (φ : F32) (left right : List F32) : Nat :=
  (left.zip right).countP (fun ab => decide (interpFloat φ ab.1 ab.2 = .nan))

/-- The loop of R160 as the spec writes it, with `j + 1` counted from 0, `y` accumulated, and `fuel` iterations allowed: `src(j)` is the previous-sample
frame for `j = -1` and frame `j` of the block from then on. -/
def loopR160 {σ π : Type} (k : Kernel σ π) (prev : List σ) (x : List (List σ)) : Nat → Nat → π → Nat → List (List σ) → Option (Run σ π)
  | 0, _, _, _, _ => none
  | fuel + 1, j1, acc, draws, y =>
    match x[j1]? with
    | none => some ⟨acc, draws, y⟩
    | some right =>
      if k.exceeds acc then loopR160 k prev x fuel (j1 + 1) (k.wrap acc) draws y
      else
        let left := if j1 = 0 then prev else x[j1 - 1]?.getD prev
        let (frame, d) := emitFrame k acc left right draws
        loopR160 k prev x fuel j1 (k.advance acc) d (y ++ [frame])

/-- Every frame of a buffer has `w` samples (R41). -/
def framesHaveWidth {σ : Type} (w : Nat) (x : List (List σ)) : Prop := ∀ f ∈ x, f.length = w

/-- A lane's buffers: frames of `channels` samples, `temp` empty (R41), and at most `L` frames held in `store` (R167, R168(b)). -/
structure Lane.Inv {σ π : Type} (L : Nat) (ch : Channels) (lane : Lane σ π) : Prop where
  store : framesHaveWidth ch.count lane.store
  output : framesHaveWidth ch.count lane.output
  temp : lane.temp = []
  held : lane.store.length ≤ L

/-- The phase and step of a datapath (R39, R40): FIXED `step = Step(rate)` and `slope ≤ 65536 + 2^24`; FLOAT `phase ∈ [0, 257]`, as a bit pattern of a
non-negative finite value. -/
def Datapath.PhaseInv (rate : F32) : Datapath → Prop
  | .fixed step lane => step = stepOf rate ∧ lane.acc ≤ 65536 + 2 ^ 24
  | .float lane => lane.acc.toNat ≤ 0x43808000

/-- The buffers of a datapath. -/
def Datapath.BufferInv (L : Nat) (ch : Channels) : Datapath → Prop
  | .fixed _ lane => lane.Inv L ch
  | .float lane => lane.Inv L ch

/-- The invariant of unit B (R39 to R41). -/
structure UnitB.Inv (L : Nat) (b : UnitB) : Prop where
  rate : rateAdmitted b.rate = true
  cutoff : b.cutoff = cutoffOf b.rate
  phase : b.datapath.PhaseInv b.rate
  buffers : b.datapath.BufferInv L b.channels

/-- The invariant of the block. -/
structure State.Inv (s : State) : Prop where
  cfg : s.cfg.wf
  unitA : s.unitA.Inv
  unitB : s.unitB.Inv s.cfg.aaLength

end Sys2Proof.Machine
end

