-- ==== Sys2Proof/Certificates/Slice0/Obligations.lean ====
section
/-! DEFINITION. The statements for the provers. Each docstring names the rules of spec/ it formalises; where a clause rests on a decision of the spec (D<n> of
92_eei_decisions.md) or on the model's own log, the docstring says so. -/

open Sys2Proof Sys2Proof.Machine

/-! ### Encoding (30_encoding.md) -/

/-- R70 to R83, R85 (all by decision D10): decoding the encoding of any well-formed command gives that command back, whatever words follow it, and no operand bit is
dropped. -/
def Obligations.DecodeOfEncodeIsTheCommand : Prop :=
  ∀ (fmt : PutFormat) (i : Instr) (rest : List U32), i.wellFormed fmt = true →
    decodeFront fmt (encode i ++ rest) = .ok (i, rest) ∧ decode fmt (encode i) = .ok i

/-- R70 to R83, R85 (D10), the other direction: words that decode are exactly the encoding of the command they decode to, and that command is well formed. So every
command has one encoding, and no reserved bit is ignored. -/
def Obligations.EncodeOfDecodeIsTheWords : Prop :=
  ∀ (fmt : PutFormat) (ws : List U32) (i : Instr), decode fmt ws = .ok i → i.wellFormed fmt = true ∧ encode i = ws

/-- R77, R73, R197 (D11): a command word is refused as a reserved opcode exactly when its low byte is 0x00, 0x06 to 0x0F, or 0x18 to 0xFF, whatever its other bits and operands. With an opcode of
the map, a nonzero bit in 31:9, or bit 8 set on a unit B command, is refused as a reserved bit. -/
def Obligations.ReservedCommandWordsAreRefused : Prop :=
  ∀ (fmt : PutFormat) (cmd : U32) (ws : List U32),
    (decode fmt (cmd :: ws) = .error .reservedOpcode ↔
      cmd.toNat % 256 = 0 ∨ (0x06 ≤ cmd.toNat % 256 ∧ cmd.toNat % 256 ≤ 0x0F) ∨ 0x18 ≤ cmd.toNat % 256) ∧
    ((1 ≤ cmd.toNat % 256 ∧ cmd.toNat % 256 ≤ 0x05) ∨ (0x10 ≤ cmd.toNat % 256 ∧ cmd.toNat % 256 ≤ 0x17) →
      (512 ≤ cmd.toNat ∨ (0x10 ≤ cmd.toNat % 256 ∧ 256 ≤ cmd.toNat)) →
      decode fmt (cmd :: ws) = .error .reservedBits)

/-- R78, R79, R81, R82 (D11): an operand word with a nonzero bit where 0 is required is refused for its reserved bits: `FIFO.CNT` with `arg[31:16]`, `TR.SETAA` with
`arg[31:1]`, and `TR.PUT` with an i16 sample word whose bits 31:16 are not all copies of bit 15. An f32 sample word is accepted whatever it is. -/
def Obligations.ReservedOperandBitsAreRefused : Prop :=
  (∀ (fmt : PutFormat) (arg : U32), decode fmt [0x00000004#32, arg] = .error .reservedBits ↔ 2 ^ 16 ≤ arg.toNat) ∧
  (∀ (fmt : PutFormat) (arg : U32), decode fmt [0x00000104#32, arg] = .error .reservedBits ↔ 2 ^ 16 ≤ arg.toNat) ∧
  (∀ (fmt : PutFormat) (arg : U32), decode fmt [0x00000013#32, arg] = .error .reservedBits ↔ 2 ≤ arg.toNat) ∧
  (∀ (ch : Channels) (n : U32) (ws : List U32), ws.length = n.toNat * ch.count →
    (decode ⟨ch, .fixed⟩ (0x00000014#32 :: n :: ws) = .error .reservedBits ↔
      ∃ w ∈ ws, 0x8000 ≤ w.toNat ∧ w.toNat < 0xFFFF8000)) ∧
  (∀ (ch : Channels) (n : U32) (ws : List U32), ws.length = n.toNat * ch.count →
    ∃ frames, decode ⟨ch, .float⟩ (0x00000014#32 :: n :: ws) = .ok (.trPut (.f32 frames)) ∧ frames.length = n.toNat ∧ frames.flatten = ws)

/-- R70, R76, R79 to R83 (D10): words written out from the tables decode to the commands they stand for, one or more of each family and operand form. -/
def Obligations.WrittenOutWordsDecode : Prop :=
  decode ⟨.mono, .fixed⟩ [0x00000001#32] = .ok (.fifoInit .p0) ∧
  decode ⟨.mono, .fixed⟩ [0x00000102#32, 0x12345678#32] = .ok (.fifoSend .p1 0x12345678#32) ∧
  decode ⟨.mono, .fixed⟩ [0x00000103#32] = .ok (.fifoRecv .p1) ∧
  decode ⟨.mono, .fixed⟩ [0x00000104#32, 0x00008400#32] = .ok (.fifoCnt .p1 0x8400#16) ∧
  decode ⟨.mono, .fixed⟩ [0x00000105#32] = .ok (.fifoRdcnt .p1) ∧
  decode ⟨.mono, .fixed⟩ [0x00000010#32] = .ok .trReset ∧
  decode ⟨.mono, .fixed⟩ [0x00000011#32, 0x3F000000#32] = .ok (.trSetrate 0x3F000000#32) ∧
  decode ⟨.mono, .fixed⟩ [0x00000012#32, 0x00000001#32] = .ok (.trSetch 1#32) ∧
  decode ⟨.mono, .fixed⟩ [0x00000013#32, 0x00000001#32] = .ok (.trSetaa true) ∧
  decode ⟨.mono, .fixed⟩ [0x00000014#32, 0x00000001#32, 0xFFFF8000#32] = .ok (.trPut (.i16 [[0x8000#16]])) ∧
  decode ⟨.stereo, .float⟩ [0x00000014#32, 0x00000001#32, 0x3F800000#32, 0xBF800000#32] = .ok (.trPut (.f32 [[0x3F800000#32, 0xBF800000#32]])) ∧
  decode ⟨.mono, .fixed⟩ [0x00000015#32, 0xFFFFFFFF#32] = .ok (.trReceive 0xFFFFFFFF#32) ∧
  decode ⟨.mono, .fixed⟩ [0x00000016#32] = .ok .trClear ∧
  decode ⟨.mono, .fixed⟩ [0x00000017#32] = .ok .trIsempty

/-! ### One step (60_exceptions.md R195 to R197, 70_reset_and_hazards.md R233) -/

/-- R233, R197 (derived there), over choices of the model: with no stop recorded, one step takes the request at the front of the port (the port is the model's own, log 5, DESIGN CHOICE): words that
decode are run, step being `exec` of the command at that state with the request taken and its agent recorded as the issuer and not checked (log 8, DEDUCED); words that do not decode are refused for
the decoder's reason, in every state, initialised or not. Those reasons are RESERVED_OPCODE and RESERVED_BITS of R196 and wordCount, a refusal of the model's own (log 6, DESIGN CHOICE). -/
def Obligations.StepRunsTheDecodedCommand : Prop :=
  ∀ (s : State) (a : Agent) (ws : List U32) (rest : List Request),
    s.faultMark = none → s.refusalMark = none → s.port = .command a ws :: rest →
    (∀ i, decode s.format ws = .ok i → step s = exec i { s with port := rest, agent := some a }) ∧
    (∀ e, decode s.format ws = .error e → step s = .refused (Refusal.ofDecode e))

/-- R54, R55 (D9) and R84 (informative general knowledge, log 11): a 16-bit read of CNT is `FIFO.RDCNT`, a 16-bit write of it `FIFO.CNT`, a 32-bit write at the send
address `FIFO.SEND`, a 32-bit read at the receive address `FIFO.RECV`; every other access that touches one of the two bytes of CNT is refused BUS_WIDTH. -/
def Obligations.BusAccessesIssueTheirCommands : Prop :=
  ∀ (s : State) (p : Proc) (acc : BusAccess) (rest : List Request),
    s.faultMark = none → s.refusalMark = none → s.port = .bus p acc :: rest →
    (acc = .read16 0x04000184#32 → step s = exec (.fifoRdcnt p) { s with port := rest, agent := some (.processor p) }) ∧
    (∀ v, acc = .write16 0x04000184#32 v → step s = exec (.fifoCnt p v) { s with port := rest, agent := some (.processor p) }) ∧
    (∀ v, acc = .write32 0x04000188#32 v → step s = exec (.fifoSend p v) { s with port := rest, agent := some (.processor p) }) ∧
    (acc = .read32 0x04100000#32 → step s = exec (.fifoRecv p) { s with port := rest, agent := some (.processor p) }) ∧
    (∀ a, (acc = .read8 a ∨ ∃ v, acc = .write8 a v) → (a = 0x04000184#32 ∨ a = 0x04000185#32) → step s = .refused .busWidth) ∧
    (∀ a, (acc = .read16 a ∨ ∃ v, acc = .write16 a v) → (a = 0x04000183#32 ∨ a = 0x04000185#32) → step s = .refused .busWidth) ∧
    (∀ a, (acc = .read32 a ∨ ∃ v, acc = .write32 a v) → 0x04000181 ≤ a.toNat → a.toNat ≤ 0x04000185 → step s = .refused .busWidth)

/-- R195, R196 (by D7 and D11), R42: a step that ends in a fault, or in a refusal of a command, changes no state, emits nothing and does not advance the index; only the mark records it. The stop ends the
run. That the run is a state which stays as it was, because every later step answers the recorded stop again, and in which no state is final, is the model's way to say so (log 10, DEDUCED). The
exception for noCommand, the model's own answer at an empty port, which leaves no mark, is log 7 (DESIGN CHOICE). -/
def Obligations.StopsAreRecordedForGood : Prop :=
  (∀ (s : State), s.faultMark = none → s.refusalMark = none →
    (∀ f, step s = .fault f → s.advance = { s with faultMark := some f }) ∧
    (∀ r, step s = .refused r → r ≠ .noCommand → s.advance = { s with refusalMark := some r })) ∧
  (∀ (n : Nat) (s : State), (s.faultMark ≠ none ∨ s.refusalMark ≠ none) → s.run n = s ∧ (s.run n).final = false)

/-- R194, R196 (by D7, D11, D19, D23), and the model's own refusals of logs 12 and 13: exactly when a command faults, and the reasons it can be refused for. -/
def Obligations.FaultsAndRefusalsAreTheListedOnes : Prop :=
  ∀ (i : Instr) (s : State),
    (∀ f, exec i s = .fault f ↔
      (∃ p, i.proc? = some p ∧ i ≠ .fifoInit p ∧ s.unitA.ready = false ∧ f = .uninit p) ∨
      (∃ n, i = .trSetch n ∧ n ≠ 1#32 ∧ n ≠ 2#32 ∧ f = .channels n)) ∧
    (∀ r, exec i s = .refused r →
      (∃ v, i = .trSetrate v ∧ r = .rateRange v) ∨
      ((∃ n, i = .trSetch n) ∧ r = .channelChangeNonempty) ∨
      ((∃ b, i = .trPut b ∧ b.wellFormed s.format = false) ∧ r = .illFormedPut) ∨
      ((∃ b, i = .trPut b) ∧ ¬ s.Inv ∧ r = .transposeDiverges))

/-- R42 (D14), R45, R66 (derived), R200, R206: every completed command advances the index by one and outputs one response; no command changes the parameters or the
variant; a command of unit A leaves unit B alone; a command of unit B leaves unit A and every byte of the banks alone and emits no event; only `FIFO.INIT` changes an
initialisation mark. -/
def Obligations.EveryCommandKeepsTheCommonFrame : Prop :=
  ∀ (i : Instr) (s t : State), exec i s = .next t →
    ∃ result events, Completed s t result events ∧
      t.unitB.datapath.variant = s.unitB.datapath.variant ∧
      (i.proc? ≠ none → SameUnitB s t) ∧
      (i.proc? = none → SameUnitA s t ∧ events = []) ∧
      (∀ q, i ≠ .fifoInit q → t.unitA.init.get q = s.unitA.init.get q)

/-- R66 (derived there): the order of a command of unit A and a command of unit B never changes either unit's results. If they complete in one order they complete in the other, each with the
same result words and the same events, and the units, the draws and the index are the same at the end; and when one of them completes, the other faults or is refused after it exactly as
before it. -/
def Obligations.UnitsCommute : Prop :=
  ∀ (i j : Instr) (s : State), i.proc? ≠ none → j.proc? = none →
    (∀ t u, exec i s = .next t → exec j t = .next u →
      ∃ t' u' r e r' e', exec j s = .next t' ∧ exec i t' = .next u' ∧
        Completed s t r e ∧ Completed t u r' e' ∧ Completed s t' r' e' ∧ Completed t' u' r e ∧
        u'.unitA = u.unitA ∧ u'.unitB = u.unitB ∧ u'.nanDraws = u.nanDraws ∧ u'.index = u.index) ∧
    (∀ t' u', exec j s = .next t' → exec i t' = .next u' →
      ∃ t u r e r' e', exec i s = .next t ∧ exec j t = .next u ∧
        Completed s t r e ∧ Completed t u r' e' ∧ Completed s t' r' e' ∧ Completed t' u' r e ∧
        u.unitA = u'.unitA ∧ u.unitB = u'.unitB ∧ u.nanDraws = u'.nanDraws ∧ u.index = u'.index) ∧
    (∀ t, exec i s = .next t → (∀ f, exec j t = .fault f ↔ exec j s = .fault f) ∧ (∀ r, exec j t = .refused r ↔ exec j s = .refused r)) ∧
    (∀ t', exec j s = .next t' → (∀ f, exec i t' = .fault f ↔ exec i s = .fault f) ∧ (∀ r, exec i t' = .refused r ↔ exec i s = .refused r))

/-! ### Unit A (40_fifo.md, 60_exceptions.md) -/

/-- R100 (its register value in the layout of D1): `FIFO.INIT` completes in every state: the queue is zeroed, the register is 0x8101 (ENABLE, SEMPTY and REMPTY set, all else clear), the mark is set, nothing
is emitted, and the peer's register (also its REMPTY and RFULL, R101), queue and mark stay. -/
def Obligations.InitZeroesOneSide : Prop :=
  ∀ (p : Proc) (s : State), ∃ t, exec (.fifoInit p) s = .next t ∧
    (∀ j : Fin 16, (t.queue p).buf[j] = 0#32) ∧ (t.queue p).head = 0 ∧ (t.queue p).tail = 0 ∧ (t.queue p).size = 0 ∧
    t.cnt p = 0x8101#16 ∧ Cnt.enable (t.cnt p) = true ∧ Cnt.sempty (t.cnt p) = true ∧ Cnt.rempty (t.cnt p) = true ∧
    Cnt.error (t.cnt p) = false ∧ Cnt.sfull (t.cnt p) = false ∧ Cnt.rfull (t.cnt p) = false ∧ Cnt.sirq (t.cnt p) = false ∧
    Cnt.rirq (t.cnt p) = false ∧ t.unitA.init.get p = true ∧
    t.cnt p.peer = s.cnt p.peer ∧ t.queue p.peer = s.queue p.peer ∧ t.unitA.init.get p.peer = s.unitA.init.get p.peer ∧
    SameUnitB s t ∧ Completed s t [] []

/-- R221, R222 (derived there; values in the layout of D1): both INITs, in either order and from any state, give the same unit A: both registers 0x8101, both queues
empty with zeroed slots, both marks set; neither emits an event. -/
def Obligations.FifoResetGivesTheResetValues : Prop :=
  ∀ (s : State), ∃ t u, execAll (Pseudo.expand .fifoReset) s = .next t ∧ execAll [.fifoInit .p1, .fifoInit .p0] s = .next u ∧
    t.unitA = u.unitA ∧ (∀ p, t.cnt p = 0x8101#16 ∧ t.unitA.init.get p = true ∧ t.unitA.ReceiverAgrees p ∧ (t.queue p).head = 0 ∧ (t.queue p).tail = 0 ∧
      (t.queue p).size = 0 ∧ ∀ j : Fin 16, (t.queue p).buf[j] = 0#32) ∧
    t.outputs = s.outputs ++ [⟨s.agent, [], []⟩, ⟨s.agent, [], []⟩]

/-- R112: a SEND whose sender has ENABLE clear changes nothing and emits nothing, and its value is lost; only the sender's ENABLE is tested: with it set, a SEND to a receiver
whose own ENABLE is clear queues its word, updates the registers and notifies as any other. -/
def Obligations.DisabledSenderSendsNothing : Prop :=
  ∀ (p : Proc) (v : U32) (s : State), s.unitA.ready = true →
    (Cnt.enable (s.cnt p) = false →
      ∃ t, exec (.fifoSend p v) s = .next t ∧ t.unitA = s.unitA ∧ SameUnitB s t ∧ Completed s t [] []) ∧
    (Cnt.enable (s.cnt p) = true → (s.queue p).size ≤ 15 → Cnt.enable (s.cnt p.peer) = false →
      ∃ t, exec (.fifoSend p v) s = .next t ∧ (t.queue p).size = (s.queue p).size + 1 ∧ (t.queue p).buf[(s.queue p).tail] = v ∧
        Cnt.sempty (t.cnt p) = false ∧ Cnt.rempty (t.cnt p.peer) = false ∧ Cnt.enable (t.cnt p.peer) = false ∧
        Completed s t [] ((if Cnt.rirq (s.cnt p.peer) then [Event.irq p.peer .recvNonempty] else []) ++ [.resched]))

/-- R113, R191: a SEND by an enabled sender into a full queue sets the sender's ERROR and nothing else: no other bit of its register, no queue, not the receiver's
register; no result, no event. -/
def Obligations.SendIntoFullQueueOnlySetsError : Prop :=
  ∀ (p : Proc) (v : U32) (s : State), s.unitA.ready = true → Cnt.enable (s.cnt p) = true → 15 < (s.queue p).size →
    ∃ t, exec (.fifoSend p v) s = .next t ∧ Cnt.error (t.cnt p) = true ∧ SameBitsExcept Cnt.ERROR (t.cnt p) (s.cnt p) ∧
      t.cnt p.peer = s.cnt p.peer ∧ t.unitA.queue = s.unitA.queue ∧ t.unitA.init = s.unitA.init ∧ SameUnitB s t ∧ Completed s t [] []

/-- R110 with R111 (ERR_STRIP by D2): a successful SEND writes the word at `tail`, advances `tail` modulo 16 and `size` by one, and leaves every other slot, `head` and
the other queue; in the sender's register it clears SEMPTY, sets SFULL exactly at 16 words, clears ERROR only if ERR_STRIP; in the receiver's register the same with
REMPTY and RFULL; it requests the receiver's interrupt if RIRQ is set (R114), then notifies. -/
def Obligations.SendAppendsOneWord : Prop :=
  ∀ (p : Proc) (v : U32) (s : State), s.unitA.ready = true → Cnt.enable (s.cnt p) = true → (s.queue p).size ≤ 15 →
    ∃ t, exec (.fifoSend p v) s = .next t ∧
      (∀ j : Fin 16, (t.queue p).buf[j] = if j = (s.queue p).tail then v else (s.queue p).buf[j]) ∧
      (t.queue p).head = (s.queue p).head ∧ (t.queue p).tail.val = ((s.queue p).tail.val + 1) % 16 ∧
      (t.queue p).size = (s.queue p).size + 1 ∧ t.queue p.peer = s.queue p.peer ∧ t.unitA.init = s.unitA.init ∧
      Cnt.sempty (t.cnt p) = false ∧ Cnt.sfull (t.cnt p) = decide ((t.queue p).size = 16) ∧
      Cnt.error (t.cnt p) = (Cnt.error (s.cnt p) && !s.cfg.errStrip) ∧
      SameBitsExcept (Cnt.SEMPTY ||| Cnt.SFULL ||| Cnt.ERROR) (t.cnt p) (s.cnt p) ∧
      Cnt.rempty (t.cnt p.peer) = false ∧ Cnt.rfull (t.cnt p.peer) = decide ((t.queue p).size = 16) ∧
      Cnt.error (t.cnt p.peer) = (Cnt.error (s.cnt p.peer) && !s.cfg.errStrip) ∧
      SameBitsExcept (Cnt.REMPTY ||| Cnt.RFULL ||| Cnt.ERROR) (t.cnt p.peer) (s.cnt p.peer) ∧
      SameUnitB s t ∧
      Completed s t [] ((if Cnt.rirq (s.cnt p.peer) then [Event.irq p.peer .recvNonempty] else []) ++ [.resched])

/-- R121: a RECV whose receiver has ENABLE clear returns 0, changes nothing and emits nothing; the sender's ENABLE is not tested: with the receiver enabled and a word
waiting, the word is returned also from a disabled sender. -/
def Obligations.DisabledReceiverReceivesZero : Prop :=
  ∀ (p : Proc) (s : State), s.unitA.ready = true →
    (Cnt.enable (s.cnt p) = false →
      ∃ t, exec (.fifoRecv p) s = .next t ∧ t.unitA = s.unitA ∧ SameUnitB s t ∧ Completed s t [0#32] []) ∧
    (Cnt.enable (s.cnt p) = true → (s.queue p.peer).size ≠ 0 → Cnt.enable (s.cnt p.peer) = false →
      ∃ t events, exec (.fifoRecv p) s = .next t ∧ Completed s t [(s.queue p.peer).buf[(s.queue p.peer).head]] events ∧
        (t.queue p.peer).size = (s.queue p.peer).size - 1)

/-- R122, R192: a RECV by an enabled receiver from an empty queue sets the receiver's ERROR and nothing else, returns 0 and emits nothing. -/
def Obligations.RecvFromEmptyQueueOnlySetsError : Prop :=
  ∀ (p : Proc) (s : State), s.unitA.ready = true → Cnt.enable (s.cnt p) = true → (s.queue p.peer).size = 0 →
    ∃ t, exec (.fifoRecv p) s = .next t ∧ Cnt.error (t.cnt p) = true ∧ SameBitsExcept Cnt.ERROR (t.cnt p) (s.cnt p) ∧
      t.cnt p.peer = s.cnt p.peer ∧ t.unitA.queue = s.unitA.queue ∧ t.unitA.init = s.unitA.init ∧ SameUnitB s t ∧ Completed s t [0#32] []

/-- R120 with R111 (ERR_STRIP by D2) and R124(b): a successful RECV returns the word at `head` of the remote queue, advances `head` modulo 16, takes one from `size`, and leaves the
slots, `tail` and the local queue; in the receiver's register it clears RFULL and sets REMPTY exactly when the queue is now empty; in the sender's the same with SFULL
and SEMPTY; ERROR is cleared only if ERR_STRIP. It requests the send-empty
interrupt only when it empties the queue, only for the remote processor and only if that processor's SIRQ is set, before its notification (R123). -/
def Obligations.RecvTakesOneWord : Prop :=
  ∀ (p : Proc) (s : State), s.unitA.ready = true → Cnt.enable (s.cnt p) = true → (s.queue p.peer).size ≠ 0 →
    ∃ t, exec (.fifoRecv p) s = .next t ∧
      (t.queue p.peer).buf = (s.queue p.peer).buf ∧ (t.queue p.peer).head.val = ((s.queue p.peer).head.val + 1) % 16 ∧
      (t.queue p.peer).tail = (s.queue p.peer).tail ∧ (t.queue p.peer).size = (s.queue p.peer).size - 1 ∧
      t.queue p = s.queue p ∧ t.unitA.init = s.unitA.init ∧
      Cnt.rfull (t.cnt p) = false ∧ Cnt.rempty (t.cnt p) = decide ((t.queue p.peer).size = 0) ∧
      Cnt.error (t.cnt p) = (Cnt.error (s.cnt p) && !s.cfg.errStrip) ∧
      SameBitsExcept (Cnt.REMPTY ||| Cnt.RFULL ||| Cnt.ERROR) (t.cnt p) (s.cnt p) ∧
      Cnt.sfull (t.cnt p.peer) = false ∧ Cnt.sempty (t.cnt p.peer) = decide ((t.queue p.peer).size = 0) ∧
      Cnt.error (t.cnt p.peer) = (Cnt.error (s.cnt p.peer) && !s.cfg.errStrip) ∧
      SameBitsExcept (Cnt.SEMPTY ||| Cnt.SFULL ||| Cnt.ERROR) (t.cnt p.peer) (s.cnt p.peer) ∧
      SameUnitB s t ∧
      Completed s t [(s.queue p.peer).buf[(s.queue p.peer).head]]
        ((if (t.queue p.peer).size = 0 ∧ Cnt.sirq (s.cnt p.peer) = true then [Event.irq p.peer .sendEmpty] else []) ++ [.resched])

/-- R130 to R133 (request bits and mask by D3, D4; slots by D30): `FIFO.CNT` completes whether or not the FIFO is enabled. Value bit 14 clears ERROR and 0 there keeps it; value bit 3 empties the send queue (its
slots stay), sets SEMPTY and the peer's REMPTY and clears SFULL and the peer's RFULL; SIRQ, RIRQ and ENABLE take the value's bits; every other bit of both registers, and
the other queue, stay. -/
def Obligations.CntConfiguresTheRegister : Prop :=
  ∀ (p : Proc) (v : U16) (s : State), s.unitA.ready = true →
    ∃ t, exec (.fifoCnt p v) s = .next t ∧
      Cnt.error (t.cnt p) = (Cnt.error (s.cnt p) && !v.getLsbD 14) ∧
      Cnt.sempty (t.cnt p) = (Cnt.sempty (s.cnt p) || v.getLsbD 3) ∧
      Cnt.sfull (t.cnt p) = (Cnt.sfull (s.cnt p) && !v.getLsbD 3) ∧
      Cnt.sirq (t.cnt p) = v.getLsbD 2 ∧ Cnt.rirq (t.cnt p) = v.getLsbD 10 ∧ Cnt.enable (t.cnt p) = v.getLsbD 15 ∧
      SameBitsExcept (Cnt.ERROR ||| Cnt.SEMPTY ||| Cnt.SFULL ||| Cnt.W) (t.cnt p) (s.cnt p) ∧
      Cnt.rempty (t.cnt p.peer) = (Cnt.rempty (s.cnt p.peer) || v.getLsbD 3) ∧
      Cnt.rfull (t.cnt p.peer) = (Cnt.rfull (s.cnt p.peer) && !v.getLsbD 3) ∧
      SameBitsExcept (Cnt.REMPTY ||| Cnt.RFULL) (t.cnt p.peer) (s.cnt p.peer) ∧
      (t.queue p).buf = (s.queue p).buf ∧
      (v.getLsbD 3 = true → (t.queue p).head = 0 ∧ (t.queue p).tail = 0 ∧ (t.queue p).size = 0) ∧
      (v.getLsbD 3 = false → t.queue p = s.queue p) ∧
      t.queue p.peer = s.queue p.peer ∧ t.unitA.init = s.unitA.init ∧ SameUnitB s t ∧
      ∃ events, Completed s t [] events

/-- R134: after its update `FIFO.CNT` requests SEND_EMPTY if SIRQ and SEMPTY are both 1 and RECV_NONEMPTY if RIRQ is 1 and REMPTY is 0, testing the register as it is
then and not an edge, in that order, both for the local processor. -/
def Obligations.CntTestsTheLevelsAfterItsUpdate : Prop :=
  ∀ (p : Proc) (v : U16) (s t : State) (result : List U32) (events : List Event),
    exec (.fifoCnt p v) s = .next t → Completed s t result events →
    events = (if Cnt.sirq (t.cnt p) = true ∧ Cnt.sempty (t.cnt p) = true then [Event.irq p .sendEmpty] else []) ++
      (if Cnt.rirq (t.cnt p) = true ∧ Cnt.rempty (t.cnt p) = false then [Event.irq p .recvNonempty] else []) ++ [.resched]

/-- R135, R75 (D10), R58 (derived): `FIFO.RDCNT` returns the register zero-extended and changes nothing, so a second one returns the same. -/
def Obligations.RdcntReadsTheRegister : Prop :=
  ∀ (p : Proc) (s : State), s.unitA.ready = true →
    ∃ t u, exec (.fifoRdcnt p) s = .next t ∧ t.unitA = s.unitA ∧ SameUnitB s t ∧ Completed s t [BitVec.ofNat 32 (s.cnt p).toNat] [] ∧
      exec (.fifoRdcnt p) t = .next u ∧ Completed t u [BitVec.ofNat 32 (s.cnt p).toNat] []

/-- R51, R53 (D9), R21: once `p` is initialised, the bank location at offset 0x184 reads as `CNT[p]`, low byte first, and no other offset of the bank is the block's. -/
def Obligations.BankLocationIsTheRegister : Prop :=
  ∀ (p : Proc) (s : State), s.unitA.init.get p = true →
    s.bankRead16 p 0x184 = some (s.cnt p) ∧
    s.bankByte p 0x184 = some (BitVec.ofNat 8 ((s.cnt p).toNat % 256)) ∧ s.bankByte p 0x185 = some (BitVec.ofNat 8 ((s.cnt p).toNat / 256)) ∧
    ∀ offset, offset ≠ 0x184 → offset ≠ 0x185 → s.bankByte p offset = none

/-- R201: over all commands, SEND_EMPTY is requested for `q` exactly by a RECV of the peer that empties `Q[q]` while SIRQ is set, and by a CNT of `q` after which SIRQ and
SEMPTY are both set. -/
def Obligations.SendEmptyHasExactlyTwoSources : Prop :=
  ∀ (q : Proc) (i : Instr) (s t : State) (result : List U32) (events : List Event), exec i s = .next t → Completed s t result events →
    (Event.irq q .sendEmpty ∈ events ↔
      (i = .fifoRecv q.peer ∧ (s.queue q).size ≠ 0 ∧ (t.queue q).size = 0 ∧ Cnt.sirq (t.cnt q) = true) ∨
      (∃ v, i = .fifoCnt q v ∧ Cnt.sirq (t.cnt q) = true ∧ Cnt.sempty (t.cnt q) = true))

/-- R202: over all commands, RECV_NONEMPTY is requested for `q` exactly by a successful SEND of the peer while RIRQ is set, and by a CNT of `q` after which RIRQ is set and REMPTY
is clear. -/
def Obligations.RecvNonemptyHasExactlyTwoSources : Prop :=
  ∀ (q : Proc) (i : Instr) (s t : State) (result : List U32) (events : List Event), exec i s = .next t → Completed s t result events →
    (Event.irq q .recvNonempty ∈ events ↔
      (∃ v, i = .fifoSend q.peer v ∧ Succeeds s i ∧ Cnt.rirq (t.cnt q) = true) ∨
      (∃ v, i = .fifoCnt q v ∧ Cnt.rirq (t.cnt q) = true ∧ Cnt.rempty (t.cnt q) = false))

/-- R206: the reschedule notification is emitted once and last by every successful SEND, every successful RECV and every CNT; every other completed command emits no
event at all. -/
def Obligations.ReschedIsLastAndOnlyOnSuccess : Prop :=
  ∀ (i : Instr) (s t : State) (result : List U32) (events : List Event), exec i s = .next t → Completed s t result events →
    (Succeeds s i → ∃ irqs, events = irqs ++ [.resched] ∧ Event.resched ∉ irqs) ∧ (¬ Succeeds s i → events = [])

/-- R205: a command makes at most two requests. Only CNT can make two, both for its own processor, SEND_EMPTY first; SEND can make one for its peer, RECV one for its
peer; no other command makes any; the notification comes after them. -/
def Obligations.RequestsComeInTheStatedOrder : Prop :=
  ∀ (i : Instr) (s t : State) (result : List U32) (events : List Event), exec i s = .next t → Completed s t result events →
    (∀ p v, i = .fifoCnt p v → events.Sublist [.irq p .sendEmpty, .irq p .recvNonempty, .resched]) ∧
    (∀ p v, i = .fifoSend p v → events.Sublist [.irq p.peer .recvNonempty, .resched]) ∧
    (∀ p, i = .fifoRecv p → events.Sublist [.irq p.peer .sendEmpty, .resched]) ∧
    ((∀ p v, i ≠ .fifoCnt p v) → (∀ p v, i ≠ .fifoSend p v) → (∀ p, i ≠ .fifoRecv p) → events = [])

/-- R136(d), R33: ERROR of `q` becomes 1 only by its own SEND into a full queue or its own RECV from an empty one, both enabled, and becomes 0 only by its own CNT with value bit 14,
its own INIT, or, with ERR_STRIP, a successful SEND or RECV of either processor. -/
def Obligations.ErrorBitChangesOnlyAsStated : Prop :=
  ∀ (q : Proc) (i : Instr) (s t : State), exec i s = .next t →
    (Cnt.error (s.cnt q) = false → Cnt.error (t.cnt q) = true →
      (∃ v, i = .fifoSend q v ∧ Cnt.enable (s.cnt q) = true ∧ 15 < (s.queue q).size) ∨
      (i = .fifoRecv q ∧ Cnt.enable (s.cnt q) = true ∧ (s.queue q.peer).size = 0)) ∧
    (Cnt.error (s.cnt q) = true → Cnt.error (t.cnt q) = false →
      (∃ v, i = .fifoCnt q v ∧ v.getLsbD 14 = true) ∨ i = .fifoInit q ∨
      (s.cfg.errStrip = true ∧ Succeeds s i ∧ ((∃ p v, i = .fifoSend p v) ∨ ∃ p, i = .fifoRecv p)))

/-- R136(c) (derived there; R101, R226): with both processors initialised, every command but INIT keeps the agreement of each receiver's REMPTY and RFULL with the queue it receives
from. -/
def Obligations.OnlyInitBreaksReceiverAgreement : Prop :=
  ∀ (i : Instr) (s t : State), s.Inv → s.unitA.ready = true → (∀ p, s.unitA.ReceiverAgrees p) → (∀ p, i ≠ .fifoInit p) →
    exec i s = .next t → ∀ p, t.unitA.ReceiverAgrees p

/-- R110, R120, R124(c) (derived there): the queue is a first-in first-out list. A successful SEND appends its word to the queued words of the sender; a successful RECV
returns the first of the queued words of its peer and leaves the rest; the other direction's words stay. -/
def Obligations.QueueIsAFirstInFirstOutList : Prop :=
  ∀ (s : State), s.Inv → s.unitA.ready = true →
    (∀ p v, Succeeds s (.fifoSend p v) → ∃ t, exec (.fifoSend p v) s = .next t ∧
      (t.queue p).contents = (s.queue p).contents ++ [v] ∧ (t.queue p.peer).contents = (s.queue p.peer).contents) ∧
    (∀ p, Succeeds s (.fifoRecv p) → ∃ t w events, exec (.fifoRecv p) s = .next t ∧ Completed s t [w] events ∧
      (s.queue p.peer).contents = w :: (t.queue p.peer).contents ∧ (t.queue p).contents = (s.queue p).contents)

/-- R124(c) (derived there): with both processors initialised and enabled and the queue empty, sending any `N ≤ 16` words and receiving `N` times completes, returns the words
in the order they were sent, and leaves the queue empty. -/
def Obligations.SendsThenReceivesRoundTrip : Prop :=
  ∀ (p : Proc) (vs : List U32) (s : State), s.Inv → s.unitA.ready = true → Cnt.enable (s.cnt p) = true → Cnt.enable (s.cnt p.peer) = true →
    (s.queue p).size = 0 → vs.length ≤ 16 →
    ∃ t u, execAll (vs.map (Instr.fifoSend p)) s = .next t ∧ execAll (List.replicate vs.length (Instr.fifoRecv p.peer)) t = .next u ∧
      (u.outputs.drop t.outputs.length).map Response.result = vs.map (fun v => [v]) ∧ (u.queue p).size = 0

/-- R38 (D7), R220: what the registers and queues hold before INIT cannot be seen: two states that differ only there answer every command alike, with the same results
and events, and differ only there afterwards. The zero the model keeps there (log 1) is one such value. -/
def Obligations.ContentsBeforeInitCannotBeSeen : Prop :=
  ∀ (i : Instr) (s s' : State), SameWhereInitialised s s' → SameOutcome SameWhereInitialised (exec i s) (exec i s')

/-- R44 (derived), R132: queue slots outside the queued words cannot be seen: two states that differ only there answer every command alike and differ only there afterwards. -/
def Obligations.FreeSlotsCannotBeSeen : Prop :=
  ∀ (i : Instr) (s s' : State), s.Inv → SameButFreeSlots s s' → SameOutcome SameButFreeSlots (exec i s) (exec i s')

/-! ### Invariants -/

/-- R37, R28, R29, R136(a), R136(b), R39 to R41 (several derived there): every step keeps the invariant of the block: queue sizes agree with their indices, reserved bits read 0,
SEMPTY and SFULL agree with the queues, the rate is admitted with its cutoff and step, the phase stays in its range, frames have `channels` samples, `temp` is empty and
at most `L` frames are held. -/
def Obligations.EveryStepKeepsTheInvariant : Prop :=
  ∀ (s t : State), s.Inv → step s = .next t → t.Inv

/-- R220, R223 (D7, D26; log 1 and log 2 for the values the model chose): the power-on state of every configuration and both variants meets the invariant, and so does State.reset. -/
def Obligations.PowerOnMeetsTheInvariant : Prop :=
  (∀ (cfg : Config) (v : Variant), cfg.wf → (State.powerOn cfg v).Inv) ∧ State.reset.Inv

/-- R220, R223 (D7, D26): at power-on no processor is initialised, no stop is recorded, the index is 0, and unit B holds the values of its table, which `TR.ISEMPTY` shows as empty. -/
def Obligations.PowerOnStateIsAsStated : Prop :=
  ∀ (cfg : Config) (v : Variant), ∃ s, State.powerOn cfg v = s ∧
    (∀ p, s.unitA.init.get p = false) ∧ s.faultMark = none ∧ s.refusalMark = none ∧ s.index = 0 ∧
    s.unitB.rate = 0x3F800000#32 ∧ s.unitB.cutoff = 0x3F000000#32 ∧ s.unitB.channels = .stereo ∧ s.unitB.aaEnable = true ∧
    s.unitB.datapath.variant = v ∧
    (∀ step lane, s.unitB.datapath = .fixed step lane → step = 65536 ∧ lane = ⟨0, 0#16, 0#16, [], [], []⟩) ∧
    (∀ lane, s.unitB.datapath = .float lane → lane = ⟨0#32, 0#32, 0#32, [], [], []⟩) ∧
    ∃ t, exec .trIsempty s = .next t ∧ t.outputs = [⟨none, [1#32], []⟩]

/-! ### Unit B (41_transposer.md) -/

/-- R140, R223 (D26): `TR.RESET` completes in every state and leaves unit B as its table says, whatever it held; the variant, unit A and the NaN draws stay; no event. -/
def Obligations.TrResetRestoresTheTable : Prop :=
  ∀ (s : State), ∃ t, exec .trReset s = .next t ∧
    t.unitB.rate = 0x3F800000#32 ∧ t.unitB.cutoff = 0x3F000000#32 ∧ t.unitB.channels = .stereo ∧ t.unitB.aaEnable = true ∧
    (∀ step lane, s.unitB.datapath = .fixed step lane → t.unitB.datapath = .fixed 65536 ⟨0, 0#16, 0#16, [], [], []⟩) ∧
    (∀ lane, s.unitB.datapath = .float lane → t.unitB.datapath = .float ⟨0#32, 0#32, 0#32, [], [], []⟩) ∧
    t.nanDraws = s.nanDraws ∧ SameUnitA s t ∧ Completed s t [] []

/-- R143, R19 (range by D19), R231 (D39 for what it does to held frames): a finite rate in [2^-16, 2^8] is stored, with its cutoff and, when FIXED, its step; the phase, `prev`, the channel count, the enable and
all buffers stay. Every other pattern (0, negative, too small, too large, infinite, NaN) is refused RATE_RANGE. -/
def Obligations.SetrateStoresAnAdmittedRate : Prop :=
  ∀ (r : F32) (s : State),
    (f32Finite r ∧ 1 / 2 ^ 16 ≤ f32Value r ∧ f32Value r ≤ 2 ^ 8 →
      ∃ t, exec (.trSetrate r) s = .next t ∧ t.unitB.rate = r ∧ t.unitB.cutoff = cutoffOf r ∧
        t.unitB.channels = s.unitB.channels ∧ t.unitB.aaEnable = s.unitB.aaEnable ∧
        (∀ step lane, s.unitB.datapath = .fixed step lane → t.unitB.datapath = .fixed (stepOf r) lane) ∧
        (∀ lane, s.unitB.datapath = .float lane → t.unitB.datapath = .float lane) ∧
        t.nanDraws = s.nanDraws ∧ SameUnitA s t ∧ Completed s t [] []) ∧
    (¬ (f32Finite r ∧ 1 / 2 ^ 16 ≤ f32Value r ∧ f32Value r ≤ 2 ^ 8) → exec (.trSetrate r) s = .refused (.rateRange r))

/-- R142 (halves up by D18): for an admitted rate the step is `floor(r × 65536 + 1/2)` of the exact rate, and lies in [1, 2^24]. -/
def Obligations.StepIsTheRoundedRate : Prop :=
  ∀ (r : F32), rateAdmitted r = true →
    (stepOf r : ℤ) = ⌊f32Value r * 65536 + 1 / 2⌋ ∧ 1 ≤ stepOf r ∧ stepOf r ≤ 2 ^ 24

/-- R141 (in binary32 by D22): for an admitted rate the cutoff is a finite binary32 value nearest to `0.5 / rate` if `rate > 1` and to `0.5 × rate` if not; it is positive and at most 0.5. -/
def Obligations.CutoffIsTheNearestFloat : Prop :=
  ∀ (r : F32), rateAdmitted r = true →
    f32Finite (cutoffOf r) ∧ 0 < f32Value (cutoffOf r) ∧ f32Value (cutoffOf r) ≤ 1 / 2 ∧
    ∀ (b : F32), f32Finite b →
      |f32Value (cutoffOf r) - (if 1 < f32Value r then 1 / 2 / f32Value r else 1 / 2 * f32Value r)| ≤
      |f32Value b - (if 1 < f32Value r then 1 / 2 / f32Value r else 1 / 2 * f32Value r)|

/-- R20 `fl`, R162, R164 (by D16): the rounding of every binary32 operation. For an exact value of sign `neg` and magnitude `num / den` units of 2^-149: below half a unit in the last
place past the largest finite value, the result is a binary32 value no farther from it than any other of that sign, and on a tie it is the one with an even pattern; from there on it is the infinity. -/
def Obligations.RoundingIsToNearestEven : Prop :=
  ∀ (neg : Bool) (num den : Nat), 0 < den →
    (num < (2 ^ 25 - 1) * 2 ^ 252 * den →
      ∃ m, FVal.round neg num den = .fin neg m ∧ (∃ b : F32, FVal.ofBits b = .fin neg m) ∧
        ∀ (b : F32) (k : Nat), FVal.ofBits b = .fin neg k →
          |(num : ℤ) - m * den| ≤ |(num : ℤ) - k * den| ∧
          (|(num : ℤ) - m * den| = |(num : ℤ) - k * den| → k ≠ m → (FVal.toBits 0#32 (.fin neg m)).getLsbD 0 = false)) ∧
    ((2 ^ 25 - 1) * 2 ^ 252 * den ≤ num → FVal.round neg num den = .inf neg)

/-- R144 (its refusal by R153, D23) with the order of R197: `TR.SETCH n` faults CHANNELS for `n` outside 1 and 2 whatever is buffered (R193); for the current count it changes nothing; for the other
count it is refused while `store` or `output` holds a frame, and else sets the count, zeroes the phase and both previous samples, and keeps everything else. -/
def Obligations.SetchFollowsItsFourCases : Prop :=
  ∀ (n : U32) (s : State),
    (n ≠ 1#32 → n ≠ 2#32 → exec (.trSetch n) s = .fault (.channels n)) ∧
    (n.toNat = s.unitB.channels.count →
      ∃ t, exec (.trSetch n) s = .next t ∧ SameUnitB s t ∧ SameUnitA s t ∧ Completed s t [] []) ∧
    ((n = 1#32 ∨ n = 2#32) → n.toNat ≠ s.unitB.channels.count →
      (s.unitB.datapath.storeLength ≠ 0 ∨ s.unitB.datapath.outputLength ≠ 0 → exec (.trSetch n) s = .refused .channelChangeNonempty) ∧
      (s.unitB.datapath.storeLength = 0 → s.unitB.datapath.outputLength = 0 →
        ∃ t, exec (.trSetch n) s = .next t ∧ t.unitB.channels.count = n.toNat ∧
          t.unitB.rate = s.unitB.rate ∧ t.unitB.cutoff = s.unitB.cutoff ∧ t.unitB.aaEnable = s.unitB.aaEnable ∧
          (∀ step lane, s.unitB.datapath = .fixed step lane →
            t.unitB.datapath = .fixed step { lane with acc := 0, prev0 := 0#16, prev1 := 0#16 }) ∧
          (∀ lane, s.unitB.datapath = .float lane →
            t.unitB.datapath = .float { lane with acc := 0#32, prev0 := 0#32, prev1 := 0#32 }) ∧
          t.nanDraws = s.nanDraws ∧ SameUnitA s t ∧ Completed s t [] []))

/-- R149 (D25): `TR.SETAA` completes in every state and changes `aa_enable` only; frames in `store` stay there. -/
def Obligations.SetaaChangesTheEnableOnly : Prop :=
  ∀ (b : Bool) (s : State), ∃ t, exec (.trSetaa b) s = .next t ∧
    t.unitB.aaEnable = b ∧ t.unitB.rate = s.unitB.rate ∧ t.unitB.cutoff = s.unitB.cutoff ∧ t.unitB.channels = s.unitB.channels ∧
    t.unitB.datapath = s.unitB.datapath ∧ t.nanDraws = s.nanDraws ∧ SameUnitA s t ∧ Completed s t [] []

/-- R145 with R164 (derived there): in every state that meets the invariant, in both variants, a well-formed `TR.PUT` completes: the interpolation loop ends for every admitted
rate and every sample, NaNs and infinities included. It emits nothing, changes no configuration register and leaves unit A alone; a put of no frames changes nothing of unit B. -/
def Obligations.PutCompletes : Prop :=
  ∀ (x : Block) (s : State), s.Inv → x.wellFormed s.format = true →
    ∃ t, exec (.trPut x) s = .next t ∧ t.unitB.rate = s.unitB.rate ∧ t.unitB.cutoff = s.unitB.cutoff ∧
      t.unitB.channels = s.unitB.channels ∧ t.unitB.aaEnable = s.unitB.aaEnable ∧ (x.length = 0 → SameUnitB s t) ∧ SameUnitA s t ∧ Completed s t [] []

/-- R146: with the filter off, a put appends exactly the transposed frames to `output` (no capacity estimate bounds them) and does not touch `store`; the phase,
`prev` and the draws are those the transposition ends with. Stated for each variant, for a put that completes (PutCompletes says when). -/
def Obligations.PutDirectAppendsTheTransposedFrames : Prop :=
  ∀ (s t : State), s.unitB.aaEnable = false →
    (∀ step lane frames, s.unitB.datapath = .fixed step lane → frames ≠ [] → exec (.trPut (.i16 frames)) s = .next t →
      ∃ r, lane.transpose (fixedKernel step s.unitB.cutoff) s.unitB.channels frames s.nanDraws = some r ∧ t.nanDraws = r.draws ∧
        t.unitB.datapath = .fixed step { lane with acc := r.lane.acc, prev0 := r.lane.prev0, prev1 := r.lane.prev1, output := lane.output ++ r.frames }) ∧
    (∀ lane frames, s.unitB.datapath = .float lane → frames ≠ [] → exec (.trPut (.f32 frames)) s = .next t →
      ∃ r, lane.transpose (floatKernel s.unitB.rate s.unitB.cutoff) s.unitB.channels frames s.nanDraws = some r ∧ t.nanDraws = r.draws ∧
        t.unitB.datapath = .float { lane with acc := r.lane.acc, prev0 := r.lane.prev0, prev1 := r.lane.prev1, output := lane.output ++ r.frames })

/-- R147 with R167 (D21) and R145's choice of path: with the filter on and a rate below 1, a put interpolates first: the transposed frames join `store`, the filtered frames join `output`, and
the first `max(0, m - L)` frames leave `store`. -/
def Obligations.PutUpsampleInterpolatesThenFilters : Prop :=
  ∀ (s t : State), s.unitB.aaEnable = true → f32Finite s.unitB.rate → f32Value s.unitB.rate < 1 →
    (∀ step lane frames, s.unitB.datapath = .fixed step lane → frames ≠ [] → exec (.trPut (.i16 frames)) s = .next t →
      ∃ r lane', lane.transpose (fixedKernel step s.unitB.cutoff) s.unitB.channels frames s.nanDraws = some r ∧ t.nanDraws = r.draws ∧
        t.unitB.datapath = .fixed step lane' ∧ lane'.acc = r.lane.acc ∧ lane'.prev0 = r.lane.prev0 ∧ lane'.prev1 = r.lane.prev1 ∧ lane'.temp = lane.temp ∧
        lane'.store = (lane.store ++ r.frames).drop ((lane.store ++ r.frames).length - s.cfg.aaLength) ∧
        lane'.output = lane.output ++ filterEval (fixedKernel step s.unitB.cutoff) s.unitB.channels s.cfg.aaLength (lane.store ++ r.frames)
          ((lane.store ++ r.frames).length - s.cfg.aaLength)) ∧
    (∀ lane frames, s.unitB.datapath = .float lane → frames ≠ [] → exec (.trPut (.f32 frames)) s = .next t →
      ∃ r lane', lane.transpose (floatKernel s.unitB.rate s.unitB.cutoff) s.unitB.channels frames s.nanDraws = some r ∧ t.nanDraws = r.draws ∧
        t.unitB.datapath = .float lane' ∧ lane'.acc = r.lane.acc ∧ lane'.prev0 = r.lane.prev0 ∧ lane'.prev1 = r.lane.prev1 ∧ lane'.temp = lane.temp ∧
        lane'.store = (lane.store ++ r.frames).drop ((lane.store ++ r.frames).length - s.cfg.aaLength) ∧
        lane'.output = lane.output ++ filterEval (floatKernel s.unitB.rate s.unitB.cutoff) s.unitB.channels s.cfg.aaLength (lane.store ++ r.frames)
          ((lane.store ++ r.frames).length - s.cfg.aaLength))

/-- R148 with R167 (D21) and R145's choice of path: with the filter on and a rate of at least 1, a put filters first: the input frames join `store`, the first `max(0, m - L)` frames leave it, and the
filtered frames are transposed into `output`; `temp` is empty at the end. -/
def Obligations.PutDownsampleFiltersThenInterpolates : Prop :=
  ∀ (s t : State), s.unitB.aaEnable = true → f32Finite s.unitB.rate → 1 ≤ f32Value s.unitB.rate →
    (∀ step lane frames, s.unitB.datapath = .fixed step lane → frames ≠ [] → exec (.trPut (.i16 frames)) s = .next t →
      ∃ r lane', lane.transpose (fixedKernel step s.unitB.cutoff) s.unitB.channels
          (filterEval (fixedKernel step s.unitB.cutoff) s.unitB.channels s.cfg.aaLength (lane.store ++ frames) ((lane.store ++ frames).length - s.cfg.aaLength))
          s.nanDraws = some r ∧ t.nanDraws = r.draws ∧
        t.unitB.datapath = .fixed step lane' ∧ lane'.acc = r.lane.acc ∧ lane'.prev0 = r.lane.prev0 ∧ lane'.prev1 = r.lane.prev1 ∧ lane'.temp = [] ∧
        lane'.store = (lane.store ++ frames).drop ((lane.store ++ frames).length - s.cfg.aaLength) ∧
        lane'.output = lane.output ++ r.frames) ∧
    (∀ lane frames, s.unitB.datapath = .float lane → frames ≠ [] → exec (.trPut (.f32 frames)) s = .next t →
      ∃ r lane', lane.transpose (floatKernel s.unitB.rate s.unitB.cutoff) s.unitB.channels
          (filterEval (floatKernel s.unitB.rate s.unitB.cutoff) s.unitB.channels s.cfg.aaLength (lane.store ++ frames) ((lane.store ++ frames).length - s.cfg.aaLength))
          s.nanDraws = some r ∧ t.nanDraws = r.draws ∧
        t.unitB.datapath = .float lane' ∧ lane'.acc = r.lane.acc ∧ lane'.prev0 = r.lane.prev0 ∧ lane'.prev1 = r.lane.prev1 ∧ lane'.temp = [] ∧
        lane'.store = (lane.store ++ frames).drop ((lane.store ++ frames).length - s.cfg.aaLength) ∧
        lane'.output = lane.output ++ r.frames)

/-- R160: the model's transposition is the loop of the rule: whatever it answers, the rule's loop answers with some number of iterations, and with every number of iterations
that suffices. -/
def Obligations.TransposeIsTheLoopOfTheRule : Prop :=
  ∀ (σ π : Type) (k : Kernel σ π) (left : List σ) (x : List (List σ)) (acc : π) (draws : Nat) (r : Run σ π),
    transposeFrom k left x acc draws = some r →
    (∃ fuel, loopR160 k left x fuel 0 acc draws [] = some r) ∧
    ∀ fuel r', loopR160 k left x fuel 0 acc draws [] = some r' → r' = r

/-- R161 (truncation by D17): a FIXED emission at a slope in [0, 65536] is `((65536 - s)·a + s·b) / 65536` rounded toward zero, exactly, and lies between the endpoints, so nothing saturates. A FIXED
frame is the emission of its two source frames channel by channel, every channel at the same slope, and takes no NaN draw. -/
def Obligations.FixedEmissionLiesBetweenItsEndpoints : Prop :=
  (∀ (s : Nat) (a b : I16), s ≤ 65536 →
    (interpFixed s a b).toInt = Int.tdiv ((65536 - (s : ℤ)) * a.toInt + s * b.toInt) 65536 ∧
    min a.toInt b.toInt ≤ (interpFixed s a b).toInt ∧ (interpFixed s a b).toInt ≤ max a.toInt b.toInt) ∧
  ∀ (step : Nat) (cutoff : F32) (s : Nat) (left right : List I16) (draws : Nat),
    emitFrame (fixedKernel step cutoff) s left right draws = (List.zipWith (interpFixed s) left right, draws)

/-- R162 over a whole frame (NaN payloads free by I3 and D36; the stream of draws they come from is log 4, DESIGN CHOICE): every channel is emitted at the same phase. A channel whose emission is not
a NaN gets a pattern of its value and takes no draw; one whose emission is a NaN gets the next draw, so the draw of channel `c` comes after those of the channels before it; every draw is a NaN
pattern. -/
def Obligations.FloatEmissionDrawsOnlyForNaN : Prop :=
  (∀ n, isNaN (nanBits n) = true) ∧
  ∀ (rate cutoff φ : F32) (left right : List F32) (draws : Nat), left.length = right.length →
    (emitFrame (floatKernel rate cutoff) φ left right draws).1.length = left.length ∧
    (emitFrame (floatKernel rate cutoff) φ left right draws).2 = draws + nanEmissions φ left right ∧
    ∀ (c : Nat) (a b : F32), left[c]? = some a → right[c]? = some b →
      (interpFloat φ a b = .nan →
        (emitFrame (floatKernel rate cutoff) φ left right draws).1[c]? = some (nanBits (draws + nanEmissions φ (left.take c) (right.take c)))) ∧
      (interpFloat φ a b ≠ .nan →
        ∃ v, (emitFrame (floatKernel rate cutoff) φ left right draws).1[c]? = some v ∧ FVal.ofBits v = interpFloat φ a b)

/-- R165: a transposition of at least one frame leaves each channel's previous-sample register at the last frame's sample, the phase where the loop of R160 ended, and every other register as it was; a transposition of no frame
changes nothing. -/
def Obligations.TransposeSavesTheLastFrame : Prop :=
  ∀ (σ π : Type) (k : Kernel σ π) (ch : Channels) (x : List (List σ)) (lane : Lane σ π) (draws : Nat) (r : LaneRun σ π),
    framesHaveWidth ch.count x → lane.transpose k ch x draws = some r →
    (∀ l, x.getLast? = some [l] → r.lane.prev0 = l ∧ r.lane.prev1 = lane.prev1) ∧
    (∀ l m, x.getLast? = some [l, m] → r.lane.prev0 = l ∧ r.lane.prev1 = m) ∧
    (x = [] → r.lane = lane ∧ r.draws = draws ∧ r.frames = []) ∧
    r.lane.store = lane.store ∧ r.lane.temp = lane.temp ∧ r.lane.output = lane.output ∧
    ∃ run, transposeFrom k (lane.prevFrame ch) x lane.acc draws = some run ∧ r.lane.acc = run.acc ∧ r.frames = run.frames

/-- R163 (derived there): the FIXED phase arithmetic is exact: over a transposition, the slope at the end plus 65536 for each source frame is the slope at the start plus the step for each
frame emitted; and from a slope of at most 65536 plus a step the slope ends at most one step above 0 when a frame was put. -/
def Obligations.FixedPhaseIsConserved : Prop :=
  ∀ (step : Nat) (cutoff : F32) (left : List I16) (x : List (List I16)) (slope draws : Nat) (r : Run I16 Nat),
    transposeFrom (fixedKernel step cutoff) left x slope draws = some r →
    r.acc + 65536 * x.length = slope + step * r.frames.length ∧ (slope ≤ 65536 + step → x ≠ [] → r.acc ≤ step)

/-- R168(a) (derived there): splitting a put changes nothing: if two puts one after the other complete, the put of both blocks together completes with the same unit B (the phase, `prev`, the
buffers and the outputs), on every path and in both variants. That the NaN patterns and the count of draws agree too rests on the model's stream of draws (log 4, DESIGN CHOICE): of the hardware
I3 lets a claim say only that such a sample is a NaN. -/
def Obligations.CallSplittingIsTransparent : Prop :=
  ∀ (s t u : State),
    (∀ x x', exec (.trPut (.i16 x)) s = .next t → exec (.trPut (.i16 x')) t = .next u →
      ∃ w, exec (.trPut (.i16 (x ++ x'))) s = .next w ∧ w.unitB = u.unitB ∧ w.nanDraws = u.nanDraws) ∧
    (∀ x x', exec (.trPut (.f32 x)) s = .next t → exec (.trPut (.f32 x')) t = .next u →
      ∃ w, exec (.trPut (.f32 (x ++ x'))) s = .next w ∧ w.unitB = u.unitB ∧ w.nanDraws = u.nanDraws)

/-- R167, R168(b), R230 (derived there, on the count of D21): with the filter on, a put leaves exactly `min(m, L)` frames in `store`, where `m` is the frames found there and those the put brings: its
block at a rate of at least 1, the transposed block at a rate below 1. So `store` never shrinks and never holds more than `L`, and once it is non-empty no put empties it and `TR.ISEMPTY`
returns 0. -/
def Obligations.FilteredPutHoldsBackFrames : Prop :=
  ∀ (x : Block) (s t : State), s.Inv → s.unitB.aaEnable = true → exec (.trPut x) s = .next t →
    (∃ m, t.unitB.datapath.storeLength = min m s.cfg.aaLength ∧
      (1 ≤ f32Value s.unitB.rate → m = s.unitB.datapath.storeLength + x.length) ∧
      (f32Value s.unitB.rate < 1 →
        (∀ step lane frames, s.unitB.datapath = .fixed step lane → x = .i16 frames →
          ∃ r, lane.transpose (fixedKernel step s.unitB.cutoff) s.unitB.channels frames s.nanDraws = some r ∧ m = lane.store.length + r.frames.length) ∧
        (∀ lane frames, s.unitB.datapath = .float lane → x = .f32 frames →
          ∃ r, lane.transpose (floatKernel s.unitB.rate s.unitB.cutoff) s.unitB.channels frames s.nanDraws = some r ∧ m = lane.store.length + r.frames.length))) ∧
    s.unitB.datapath.storeLength ≤ t.unitB.datapath.storeLength ∧ t.unitB.datapath.storeLength ≤ s.cfg.aaLength ∧
    (s.unitB.datapath.storeLength ≠ 0 → ∃ u, exec .trIsempty t = .next u ∧ Completed t u [0#32] [])

/-- R168(d), R229 (derived there): from reset with VARIANT = FIXED, rate 1.0 and the filter off, a put of a non-empty block outputs one zero frame and then the block, mono or stereo. -/
def Obligations.UnitRateIsADelayedCopy : Prop :=
  ∀ (ch : Channels) (x : List (List I16)) (s : State),
    s.unitB = { UnitB.reset .fixed with aaEnable := false, channels := ch } → x ≠ [] → framesHaveWidth ch.count x →
    ∃ t, exec (.trPut (.i16 x)) s = .next t ∧ t.unitB.datapath.takeOutput (x.length + 1) = .i16 (List.replicate ch.count 0#16 :: x) ∧
      t.unitB.datapath.outputLength = x.length + 1

/-- R166 (window by D21): the filter's output `i`, channel `c`, is `AA_EVAL` of the `L` samples of channel `c` from input frame `i` on, at the cutoff the kernel was made with; the channels
are filtered independently with the same function. -/
def Obligations.FilterWindowsAreTheRulesWindows : Prop :=
  (∀ step cutoff, (fixedKernel step cutoff).filter = Config.aaEvalI16 cutoff) ∧ (∀ rate cutoff, (floatKernel rate cutoff).filter = Config.aaEvalF32 cutoff) ∧
  ∀ (σ π : Type) (k : Kernel σ π) (ch : Channels) (L count : Nat) (buf : List (List σ)), framesHaveWidth ch.count buf → count + L ≤ buf.length →
    (filterEval k ch L buf count).length = count ∧
    ∀ (i c : Nat), i < count → c < ch.count →
      ∃ frame w, (filterEval k ch L buf count)[i]? = some frame ∧ frame.length = ch.count ∧ frame[c]? = some (k.filter w) ∧ w.length = L ∧
        ∀ j, j < L → ∃ f, buf[i + j]? = some f ∧ w[j]? = f[c]?

/-- R150, R83, R75 (D27, D10): `TR.RECEIVE n` returns `m = min(n, |output|)` and then the samples of the first `m` frames, i16 samples sign-extended and f32 samples as they are, and removes those frames;
everything else stays; no event. -/
def Obligations.ReceiveTakesTheOldestFrames : Prop :=
  ∀ (n : U32) (s : State),
    (∀ step lane, s.unitB.datapath = .fixed step lane →
      ∃ t, exec (.trReceive n) s = .next t ∧
        t.unitB = { s.unitB with datapath := .fixed step { lane with output := lane.output.drop n.toNat } } ∧ t.nanDraws = s.nanDraws ∧ SameUnitA s t ∧
        Completed s t (BitVec.ofNat 32 (min n.toNat lane.output.length) :: (lane.output.take n.toNat).flatten.map (BitVec.signExtend 32)) []) ∧
    (∀ lane, s.unitB.datapath = .float lane →
      ∃ t, exec (.trReceive n) s = .next t ∧
        t.unitB = { s.unitB with datapath := .float { lane with output := lane.output.drop n.toNat } } ∧ t.nanDraws = s.nanDraws ∧ SameUnitA s t ∧
        Completed s t (BitVec.ofNat 32 (min n.toNat lane.output.length) :: (lane.output.take n.toNat).flatten) [])

/-- R151 (the phase kept by D24): `TR.CLEAR` completes in every state and empties the buffers; the phase, `prev`, the step and every configuration register stay; `TR.ISEMPTY` then returns 1. -/
def Obligations.ClearEmptiesTheBuffersOnly : Prop :=
  ∀ (s : State), ∃ t u, exec .trClear s = .next t ∧
    t.unitB.rate = s.unitB.rate ∧ t.unitB.cutoff = s.unitB.cutoff ∧ t.unitB.channels = s.unitB.channels ∧ t.unitB.aaEnable = s.unitB.aaEnable ∧
    (∀ step lane, s.unitB.datapath = .fixed step lane → t.unitB.datapath = .fixed step { lane with store := [], temp := [], output := [] }) ∧
    (∀ lane, s.unitB.datapath = .float lane → t.unitB.datapath = .float { lane with store := [], temp := [], output := [] }) ∧
    t.nanDraws = s.nanDraws ∧ SameUnitA s t ∧ Completed s t [] [] ∧
    exec .trIsempty t = .next u ∧ Completed t u [1#32] []

/-- R152: `TR.ISEMPTY` completes in every state, returns 1 when both `output` and `store` are empty and 0 when either is not, and changes nothing. -/
def Obligations.IsemptyTestsBothBuffers : Prop :=
  ∀ (s : State), ∃ t, exec .trIsempty s = .next t ∧ SameUnitB s t ∧ SameUnitA s t ∧
    (s.unitB.datapath.outputLength = 0 ∧ s.unitB.datapath.storeLength = 0 → Completed s t [1#32] []) ∧
    (s.unitB.datapath.outputLength ≠ 0 ∨ s.unitB.datapath.storeLength ≠ 0 → Completed s t [0#32] [])

/-! ### binary32 arithmetic -/

/-- R20, R162, R164 (IEEE 754 binary32 by D16 and D36, whose zeros, infinities and NaNs this spells out): each FLOAT operation hands the rounding the exact value. Sum, difference and product of finite patterns
round the exact sum, difference and product; a NaN operand, infinity minus infinity and zero times infinity give a NaN; other infinities keep their sign. An emission is
`fl(fl(fl(1.0 - φ)·a) + fl(φ·b))` of any patterns, each operation rounded singly, the advance is `fl(phase + rate)`, the wrap `fl(phase - 1.0)`, and the test is `phase > 1.0`. -/
def Obligations.FloatOperationsRoundTheExactValue : Prop :=
  (∀ (a b : F32), f32Finite a → f32Finite b →
    (∃ r, FVal.add (.ofBits a) (.ofBits b) = .ofBits r ∧ RoundsTo (f32Value a + f32Value b) r ∧
      (f32Value a + f32Value b = 0 → r = if a.getLsbD 31 && b.getLsbD 31 then 0x80000000#32 else 0#32)) ∧
    (∃ r, FVal.sub (.ofBits a) (.ofBits b) = .ofBits r ∧ RoundsTo (f32Value a - f32Value b) r ∧
      (f32Value a - f32Value b = 0 → r = if a.getLsbD 31 && !b.getLsbD 31 then 0x80000000#32 else 0#32)) ∧
    (∃ r, FVal.mul (.ofBits a) (.ofBits b) = .ofBits r ∧ RoundsTo (f32Value a * f32Value b) r ∧ r.getLsbD 31 = (a.getLsbD 31 ^^ b.getLsbD 31))) ∧
  (∀ (a b : F32), isNaN a = true ∨ isNaN b = true →
    FVal.add (.ofBits a) (.ofBits b) = .nan ∧ FVal.sub (.ofBits a) (.ofBits b) = .nan ∧ FVal.mul (.ofBits a) (.ofBits b) = .nan) ∧
  (∀ (a b : F32) (s : Bool), FVal.ofBits a = .inf s →
    (f32Finite b →
      FVal.add (.ofBits a) (.ofBits b) = .inf s ∧ FVal.add (.ofBits b) (.ofBits a) = .inf s ∧
      FVal.sub (.ofBits a) (.ofBits b) = .inf s ∧ FVal.sub (.ofBits b) (.ofBits a) = .inf (!s) ∧
      FVal.mul (.ofBits a) (.ofBits b) = (if f32Value b = 0 then .nan else .inf (s ^^ b.getLsbD 31)) ∧
      FVal.mul (.ofBits b) (.ofBits a) = (if f32Value b = 0 then .nan else .inf (s ^^ b.getLsbD 31))) ∧
    (∀ t, FVal.ofBits b = .inf t →
      FVal.add (.ofBits a) (.ofBits b) = (if s = t then .inf s else .nan) ∧ FVal.sub (.ofBits a) (.ofBits b) = (if s = t then .nan else .inf s) ∧
      FVal.mul (.ofBits a) (.ofBits b) = .inf (s ^^ t))) ∧
  (∀ (φ a b : F32), ∃ d p q : F32,
    FVal.sub (.ofBits 0x3F800000#32) (.ofBits φ) = .ofBits d ∧ FVal.mul (.ofBits d) (.ofBits a) = .ofBits p ∧ FVal.mul (.ofBits φ) (.ofBits b) = .ofBits q ∧
    interpFloat φ a b = FVal.add (.ofBits p) (.ofBits q)) ∧
  (∀ (φ a b : F32), f32Finite φ → 0 ≤ f32Value φ → f32Value φ ≤ 1 → f32Finite a → f32Finite b → ∃ d p q r : F32,
    RoundsTo (1 - f32Value φ) d ∧ RoundsTo (f32Value d * f32Value a) p ∧ RoundsTo (f32Value φ * f32Value b) q ∧
    f32Finite d ∧ f32Finite p ∧ f32Finite q ∧ RoundsTo (f32Value p + f32Value q) r ∧ interpFloat φ a b = .ofBits r) ∧
  ∀ (rate cutoff phase : F32), f32Finite rate → f32Finite phase →
    RoundsTo (f32Value phase + f32Value rate) ((floatKernel rate cutoff).advance phase) ∧
    RoundsTo (f32Value phase - 1) ((floatKernel rate cutoff).wrap phase) ∧
    ((floatKernel rate cutoff).exceeds phase = true ↔ 1 < f32Value phase)
end

