-- ==== Sys2Proof/Laws/Binary32.lean ====
section
/-! SUPPORT. What the rounding and the bit patterns of binary32 can do, said once: a rounded magnitude is one a pattern holds, patterns and values agree, and
rounding moves a value by at most half a unit in the last place. -/

namespace Sys2Proof.Machine

open Sys2Proof

namespace FVal

/-- The magnitudes a finite binary32 pattern holds: a significand of at most 24 bits times a power of two, below 2^128. -/
def Representable (m : Nat) : Prop := ∃ e q, m = q * 2 ^ e ∧ q ≤ 2 ^ 24 ∧ (2 ^ 23 ≤ q ∨ e = 0) ∧ m < overflowMag

theorem overflowMag_eq : overflowMag = 2 ^ 23 * 2 ^ 254 := by
  rw [overflowMag, pow_succ 2 23, pow_succ 2 253, Nat.mul_assoc, Nat.mul_comm (2 ^ 253) 2]

theorem small_le_overflowMag : 2 ^ 23 ≤ overflowMag := by
  rw [overflowMag_eq]
  exact Nat.le_mul_of_pos_right _ (Nat.two_pow_pos _)

/-! ### Nearest integers -/

theorem nearestEven_spec (num den : Nat) :
    ∃ q, q = num / den ∧ ((nearestEven num den = q ∧ 2 * (num % den) ≤ den) ∨ (nearestEven num den = q + 1 ∧ den ≤ 2 * (num % den))) := by
  refine ⟨num / den, rfl, ?_⟩
  unfold nearestEven
  simp only
  split
  · left; exact ⟨rfl, by omega⟩
  · split
    · left; exact ⟨rfl, by omega⟩
    · right; exact ⟨rfl, by omega⟩

/-- The nearest integer is within half of the quotient: stated without division. -/
theorem nearestEven_error (num den : Nat) (hd : 0 < den) :
    2 * (nearestEven num den * den) ≤ 2 * num + den ∧ 2 * num ≤ 2 * (nearestEven num den * den) + den := by
  obtain ⟨q, hq, h⟩ := nearestEven_spec num den
  have hdm := Nat.div_add_mod num den
  rw [← hq] at hdm
  rcases h with ⟨h, hr⟩ | ⟨h, hr⟩ <;> rw [h]
  · rw [Nat.mul_comm q den]; omega
  · have := Nat.mod_lt num hd
    rw [Nat.add_mul, Nat.mul_comm q den]; omega

theorem nearestEven_le (num den : Nat) : nearestEven num den ≤ num / den + 1 := by
  obtain ⟨q, hq, ⟨h, -⟩ | ⟨h, -⟩⟩ := nearestEven_spec num den <;> omega

theorem le_nearestEven (num den : Nat) : num / den ≤ nearestEven num den := by
  obtain ⟨q, hq, ⟨h, -⟩ | ⟨h, -⟩⟩ := nearestEven_spec num den <;> omega

theorem nearestEven_one (num : Nat) : nearestEven num 1 = num := by simp [nearestEven, Nat.mod_one]

/-! ### Rounding to a 24-bit significand -/

theorem scaleOf_spec (n : Nat) : n < 2 ^ 24 * 2 ^ scaleOf n ∧ (2 ^ 23 * 2 ^ scaleOf n ≤ n ∨ scaleOf n = 0) := by
  unfold scaleOf
  rcases Nat.eq_zero_or_pos n with rfl | hn
  · simp
  · have h1 := Nat.lt_log2_self (n := n)
    have h2 := Nat.log2_self_le (n := n) (by omega)
    rw [← pow_add, ← pow_add]
    constructor
    · exact lt_of_lt_of_le h1 (Nat.pow_le_pow_right (by decide) (by omega))
    · rcases Nat.le_total n.log2 23 with h | h
      · right; omega
      · left
        have : 23 + (n.log2 - 23) = n.log2 := by omega
        rw [this]; exact h2

/-- The quotient at the scale of a value has at most 24 bits, and 24 of them unless the scale is 0. -/
theorem scaled_quotient (num den : Nat) :
    num / (den * 2 ^ scaleOf (num / den)) < 2 ^ 24 ∧ (2 ^ 23 ≤ num / (den * 2 ^ scaleOf (num / den)) ∨ scaleOf (num / den) = 0) := by
  obtain ⟨h1, h2⟩ := scaleOf_spec (num / den)
  rw [← Nat.div_div_eq_div_mul]
  have hp : 0 < 2 ^ scaleOf (num / den) := Nat.two_pow_pos _
  constructor
  · rw [Nat.div_lt_iff_lt_mul hp]; exact h1
  · rcases h2 with h2 | h2
    · left; rw [Nat.le_div_iff_mul_le hp]; exact h2
    · right; exact h2

/-- A rounded magnitude below the overflow bound is one a finite pattern holds. -/
theorem roundMag_representable (num den : Nat) (h : roundMag num den < overflowMag) : Representable (roundMag num den) := by
  obtain ⟨h1, h2⟩ := scaled_quotient num den
  refine ⟨scaleOf (num / den), nearestEven num (den * 2 ^ scaleOf (num / den)), rfl, ?_, ?_, h⟩
  · have := nearestEven_le num (den * 2 ^ scaleOf (num / den)); omega
  · have := le_nearestEven num (den * 2 ^ scaleOf (num / den)); omega

/-- Rounding moves a value by at most half a unit in the last place of its quotient, and that unit is at most 2^-23 of the value unless it is the smallest unit. -/
theorem roundMag_error (num den : Nat) (hd : 0 < den) :
    2 * (roundMag num den * den) ≤ 2 * num + den * 2 ^ scaleOf (num / den) ∧
    2 * num ≤ 2 * (roundMag num den * den) + den * 2 ^ scaleOf (num / den) := by
  have h := nearestEven_error num (den * 2 ^ scaleOf (num / den)) (Nat.mul_pos hd (Nat.two_pow_pos _))
  have e : roundMag num den * den = nearestEven num (den * 2 ^ scaleOf (num / den)) * (den * 2 ^ scaleOf (num / den)) := by
    simp only [roundMag]; rw [Nat.mul_assoc, Nat.mul_comm (2 ^ _) den]
  rw [e]; exact h

/-- A finite result of `round` is representable. -/
theorem round_eq_fin {neg s : Bool} {num den m : Nat} (h : round neg num den = .fin s m) : s = neg ∧ m = roundMag num den ∧ Representable m := by
  simp only [round] at h
  split at h
  · cases h
  · injection h with h1 h2
    subst h1 h2
    exact ⟨rfl, rfl, roundMag_representable num den (by omega)⟩

theorem round_ne_nan (neg : Bool) (num den : Nat) : round neg num den ≠ .nan := by
  simp only [round]; split <;> simp

/-! ### Patterns -/

/-- The scale of a normalised magnitude is its exponent. -/
theorem scaleOf_mul {q e : Nat} (h1 : 2 ^ 23 ≤ q) (h2 : q < 2 ^ 24) : scaleOf (q * 2 ^ e) = e := by
  have : (q * 2 ^ e).log2 = 23 + e := by
    rw [Nat.log2_eq_iff (by positivity)]
    constructor
    · rw [pow_add]; exact Nat.mul_le_mul_right _ h1
    · rw [show 23 + e + 1 = 24 + e by omega, pow_add]; exact Nat.mul_lt_mul_of_pos_right h2 (Nat.two_pow_pos _)
  simp [scaleOf, this]

theorem scaleOf_small {m : Nat} (h : m < 2 ^ 24) : scaleOf m = 0 := by
  unfold scaleOf
  rcases Nat.eq_zero_or_pos m with rfl | hm
  · rfl
  · have := (Nat.log2_lt (by omega)).mpr h
    omega

/-- A representable magnitude in a normal form: subnormal and at the smallest unit, or with a 24-bit significand. -/
theorem Representable.normal {m : Nat} (h : Representable m) :
    m < 2 ^ 23 ∨ ∃ e q, m = q * 2 ^ e ∧ 2 ^ 23 ≤ q ∧ q < 2 ^ 24 ∧ e ≤ 253 := by
  obtain ⟨e, q, rfl, hq, h, ho⟩ := h
  have key : ∀ e q, 2 ^ 23 ≤ q → q * 2 ^ e < overflowMag → e ≤ 253 := by
    intro e q h1 ho
    by_contra hc
    have : 2 ^ 23 * 2 ^ 254 ≤ q * 2 ^ e := Nat.mul_le_mul h1 (Nat.pow_le_pow_right (by decide) (by omega))
    rw [← overflowMag_eq] at this
    exact absurd (lt_of_le_of_lt this ho) (lt_irrefl _)
  rcases Nat.lt_or_ge q (2 ^ 23) with hlt | hge
  · left
    rcases h with h | h
    · omega
    · subst h; simpa using hlt
  · right
    rcases Nat.lt_or_ge q (2 ^ 24) with h24 | h24
    · exact ⟨e, q, rfl, hge, h24, key e q hge ho⟩
    · have : q = 2 ^ 24 := by omega
      subst this
      have e1 : 2 ^ 24 * 2 ^ e = 2 ^ 23 * 2 ^ (e + 1) := by rw [pow_succ 2 e]; ring
      rw [e1] at ho ⊢
      exact ⟨e + 1, 2 ^ 23, rfl, le_rfl, by decide, key _ _ le_rfl ho⟩

theorem magBits_small {m : Nat} (h : m < 2 ^ 24) : magBits m = m := by simp [magBits, scaleOf_small h]

theorem magBits_normal {q e : Nat} (h1 : 2 ^ 23 ≤ q) (h2 : q < 2 ^ 24) : magBits (q * 2 ^ e) = e * 2 ^ 23 + q := by
  simp only [magBits, scaleOf_mul h1 h2]
  rw [Nat.mul_div_cancel _ (Nat.two_pow_pos e)]

/-- The fields of a pattern made of a sign and 31 bits. -/
theorem ofBits_pattern (s : Bool) (n : Nat) (hn : n < 2 ^ 31) :
    ofBits (BitVec.ofBool s ++ BitVec.ofNat 31 n) =
      if n / 2 ^ 23 = 255 then (if n % 2 ^ 23 = 0 then .inf s else .nan)
      else if n / 2 ^ 23 = 0 then .fin s (n % 2 ^ 23)
      else .fin s ((2 ^ 23 + n % 2 ^ 23) * 2 ^ (n / 2 ^ 23 - 1)) := by
  have hs : (BitVec.ofBool s ++ BitVec.ofNat 31 n).getLsbD 31 = s := by
    rw [BitVec.getLsbD_append]
    cases s
    · rfl
    · rfl
  have ht : (BitVec.ofBool s ++ BitVec.ofNat 31 n).toNat = s.toNat * 2 ^ 31 + n := by
    rw [BitVec.toNat_append, BitVec.toNat_ofNat, Nat.mod_eq_of_lt hn, ← Nat.shiftLeft_add_eq_or_of_lt hn]
    simp [Nat.shiftLeft_eq]
  have he : (BitVec.extractLsb' 23 8 (BitVec.ofBool s ++ BitVec.ofNat 31 n)).toNat = n / 2 ^ 23 := by
    rw [BitVec.extractLsb'_toNat, ht, Nat.shiftRight_eq_div_pow]
    cases s
    · simp
      omega
    · simp
      omega
  have hf : (BitVec.extractLsb' 0 23 (BitVec.ofBool s ++ BitVec.ofNat 31 n)).toNat = n % 2 ^ 23 := by
    rw [BitVec.extractLsb'_toNat, ht]
    cases s
    · simp
    · simp
      omega
  simp only [ofBits, hs, he, hf]

/-- The pattern of a representable magnitude is read back as it. -/
theorem ofBits_toBits_fin (nb : F32) (s : Bool) {m : Nat} (h : Representable m) : ofBits (toBits nb (.fin s m)) = .fin s m := by
  simp only [toBits]
  rcases h.normal with h | ⟨e, q, rfl, h1, h2, he⟩
  · rw [magBits_small (by omega), ofBits_pattern s m (by omega)]
    have : m / 2 ^ 23 = 0 := by omega
    have h' : m % 2 ^ 23 = m := by omega
    rw [this, h', if_neg (by decide), if_pos rfl]
  · rw [magBits_normal h1 h2, ofBits_pattern s _ (by omega)]
    have hd : (e * 2 ^ 23 + q) / 2 ^ 23 = e + 1 := by omega
    have hm : (e * 2 ^ 23 + q) % 2 ^ 23 = q - 2 ^ 23 := by omega
    have hq : 2 ^ 23 + (q - 2 ^ 23) = q := by omega
    rw [hd, hm, if_neg (by omega), if_neg (by omega), hq, Nat.add_sub_cancel]

theorem ofBits_toBits_inf (nb : F32) (s : Bool) : ofBits (toBits nb (.inf s)) = .inf s :=
  (ofBits_pattern s 0x7F800000 (by decide)).trans (by simp)

/-- Every finite value a pattern holds is representable. -/
theorem representable_of_ofBits {b : F32} {s : Bool} {m : Nat} (h : ofBits b = .fin s m) : Representable m := by
  simp only [ofBits] at h
  have hf : (b.extractLsb' 0 23).toNat < 2 ^ 23 := (b.extractLsb' 0 23).isLt
  have he : (b.extractLsb' 23 8).toNat < 2 ^ 8 := (b.extractLsb' 23 8).isLt
  split at h
  · split at h <;> cases h
  · split at h
    · injection h with _ h
      subst h
      exact ⟨0, _, (by rw [pow_zero, Nat.mul_one]), by omega, Or.inr rfl, lt_of_lt_of_le hf small_le_overflowMag⟩
    · injection h with _ h
      subst h
      refine ⟨_, _, rfl, by omega, Or.inl (by omega), ?_⟩
      have h1 : (2 ^ 23 + (b.extractLsb' 0 23).toNat) * 2 ^ ((b.extractLsb' 23 8).toNat - 1) < 2 ^ 24 * 2 ^ ((b.extractLsb' 23 8).toNat - 1) :=
        Nat.mul_lt_mul_of_pos_right (by omega) (Nat.two_pow_pos _)
      refine lt_of_lt_of_le h1 ?_
      rw [overflowMag]
      exact Nat.mul_le_mul_left _ (Nat.pow_le_pow_right (by decide) (by omega))

/-- A pattern that is no NaN is the pattern of its value. -/
theorem toBits_ofBits (nb b : F32) (h : ofBits b ≠ .nan) : toBits nb (ofBits b) = b := by
  have hb : b = BitVec.ofBool (b.getLsbD 31) ++ BitVec.ofNat 31 (b.toNat % 2 ^ 31) := by
    apply BitVec.eq_of_toNat_eq
    have hlt := b.isLt
    rw [BitVec.toNat_append, BitVec.toNat_ofNat, Nat.mod_mod, ← Nat.shiftLeft_add_eq_or_of_lt (Nat.mod_lt _ (by decide))]
    have : b.getLsbD 31 = decide (2 ^ 31 ≤ b.toNat) := by
      rw [← BitVec.testBit_toNat, Nat.testBit_eq_decide_div_mod_eq]
      congr 1
      apply propext
      constructor <;> intro h <;> omega
    rw [this, Nat.shiftLeft_eq]
    by_cases h : 2 ^ 31 ≤ b.toNat
    · rw [decide_eq_true h]
      show b.toNat = 1 * 2 ^ 31 + b.toNat % 2 ^ 31
      omega
    · rw [decide_eq_false h]
      show b.toNat = 0 * 2 ^ 31 + b.toNat % 2 ^ 31
      omega
  have hn : b.toNat % 2 ^ 31 < 2 ^ 31 := Nat.mod_lt _ (by decide)
  generalize b.getLsbD 31 = s at hb
  generalize b.toNat % 2 ^ 31 = n at hb hn
  subst hb
  rw [ofBits_pattern s n hn] at h ⊢
  split at h
  · rename_i h1
    split at h
    · rename_i h2
      rw [if_pos h1, if_pos h2]
      have : n = 0x7F800000 := by omega
      subst this
      rfl
    · exact absurd rfl h
  · rename_i h1
    rw [if_neg h1]
    split at h
    · rename_i h2
      rw [if_pos h2]
      simp only [toBits]
      rw [magBits_small (by omega), show n % 2 ^ 23 = n by omega]
    · rename_i h2
      rw [if_neg h2]
      simp only [toBits]
      rw [magBits_normal (by omega) (by omega)]
      congr 2
      omega

/-! ### Rounding against representable magnitudes -/

/-- A representable magnitude is a multiple of the unit of every value not above it in scale, or lies below the binade of the value. -/
theorem Representable.multiple_or_below {B : Nat} (h : Representable B) (n : Nat) :
    (∃ k, B = k * 2 ^ scaleOf n) ∨ B ≤ 2 ^ 23 * 2 ^ scaleOf n := by
  obtain ⟨e, q, rfl, hq, -, -⟩ := h
  rcases Nat.le_total (scaleOf n) e with h | h
  · left
    refine ⟨q * 2 ^ (e - scaleOf n), ?_⟩
    rw [Nat.mul_assoc, ← pow_add]
    congr 2
    omega
  · rcases Nat.eq_or_lt_of_le h with h | h
    · left; exact ⟨q, by rw [h]⟩
    · right
      have h1 : q * 2 ^ e ≤ 2 ^ 24 * 2 ^ e := Nat.mul_le_mul_right _ hq
      have h2 : (2 : Nat) ^ 24 * 2 ^ e = 2 ^ 23 * 2 ^ (e + 1) := by rw [pow_succ 2 e]; ring
      have h3 : (2 : Nat) ^ (e + 1) ≤ 2 ^ scaleOf n := Nat.pow_le_pow_right (by decide) h
      have h4 := Nat.mul_le_mul_left (2 ^ 23) h3
      omega

theorem nearestEven_le_of_le {num den k : Nat} (hd : 0 < den) (h : num ≤ k * den) : nearestEven num den ≤ k := by
  obtain ⟨q, hq, ⟨h1, -⟩ | ⟨h1, hr⟩⟩ := nearestEven_spec num den
  · have : num / den ≤ k := Nat.div_le_of_le_mul (by rw [Nat.mul_comm]; exact h)
    omega
  · have hdm := Nat.div_add_mod num den
    have hlt : num / den < k := by
      by_contra hc
      have : k * den ≤ den * (num / den) := by rw [Nat.mul_comm k]; exact Nat.mul_le_mul_left _ (by omega)
      omega
    omega

theorem le_nearestEven_of_le {num den k : Nat} (hd : 0 < den) (h : k * den ≤ num) : k ≤ nearestEven num den :=
  le_trans ((Nat.le_div_iff_mul_le hd).mpr h) (le_nearestEven num den)

/-- Rounding does not pass a representable magnitude from below. -/
theorem roundMag_le_of_le {num den B : Nat} (hd : 0 < den) (hB : Representable B) (h : num ≤ B * den) : roundMag num den ≤ B := by
  have hp : 0 < 2 ^ scaleOf (num / den) := Nat.two_pow_pos _
  have hd' : 0 < den * 2 ^ scaleOf (num / den) := Nat.mul_pos hd hp
  rcases hB.multiple_or_below (num / den) with ⟨k, hk⟩ | hlow
  · have : nearestEven num (den * 2 ^ scaleOf (num / den)) ≤ k :=
      nearestEven_le_of_le hd' (by rw [hk] at h; rwa [Nat.mul_comm den, ← Nat.mul_assoc])
    calc roundMag num den = nearestEven num (den * 2 ^ scaleOf (num / den)) * 2 ^ scaleOf (num / den) := rfl
      _ ≤ k * 2 ^ scaleOf (num / den) := Nat.mul_le_mul_right _ this
      _ = B := hk.symm
  · rcases (scaleOf_spec (num / den)).2 with h23 | h0
    · have hBn : B ≤ num / den := le_trans hlow h23
      have hnum : B * den ≤ num := (Nat.le_div_iff_mul_le hd).mp hBn
      have heq : num = B * den := by omega
      have hdiv : num / den = B := by rw [heq, Nat.mul_div_cancel _ hd]
      have hBe : B = 2 ^ 23 * 2 ^ scaleOf (num / den) := by omega
      have : nearestEven num (den * 2 ^ scaleOf (num / den)) ≤ 2 ^ 23 :=
        nearestEven_le_of_le hd' (by rw [heq]; conv_lhs => rw [hBe]
                                     apply le_of_eq
                                     rw [← heq]
                                     ring)
      calc roundMag num den = nearestEven num (den * 2 ^ scaleOf (num / den)) * 2 ^ scaleOf (num / den) := rfl
        _ ≤ 2 ^ 23 * 2 ^ scaleOf (num / den) := Nat.mul_le_mul_right _ this
        _ = B := hBe.symm
    · have : nearestEven num (den * 2 ^ scaleOf (num / den)) ≤ B :=
        nearestEven_le_of_le hd' (by rw [h0]; simpa using h)
      calc roundMag num den = nearestEven num (den * 2 ^ scaleOf (num / den)) * 2 ^ scaleOf (num / den) := rfl
        _ ≤ B * 2 ^ scaleOf (num / den) := Nat.mul_le_mul_right _ this
        _ = B := by rw [h0]; simp

/-- Rounding does not pass a representable magnitude from above. -/
theorem le_roundMag_of_le {num den B : Nat} (hd : 0 < den) (hB : Representable B) (h : B * den ≤ num) : B ≤ roundMag num den := by
  have hp : 0 < 2 ^ scaleOf (num / den) := Nat.two_pow_pos _
  have hd' : 0 < den * 2 ^ scaleOf (num / den) := Nat.mul_pos hd hp
  rcases hB.multiple_or_below (num / den) with ⟨k, hk⟩ | hlow
  · have : k ≤ nearestEven num (den * 2 ^ scaleOf (num / den)) :=
      le_nearestEven_of_le hd' (by rw [hk] at h; rwa [Nat.mul_comm den, ← Nat.mul_assoc])
    calc B = k * 2 ^ scaleOf (num / den) := hk
      _ ≤ nearestEven num (den * 2 ^ scaleOf (num / den)) * 2 ^ scaleOf (num / den) := Nat.mul_le_mul_right _ this
      _ = roundMag num den := rfl
  · rcases (scaled_quotient num den).2 with h23 | h0
    · have : 2 ^ 23 ≤ nearestEven num (den * 2 ^ scaleOf (num / den)) := le_trans h23 (le_nearestEven _ _)
      exact le_trans hlow (Nat.mul_le_mul_right _ this)
    · have : B ≤ nearestEven num (den * 2 ^ scaleOf (num / den)) :=
        le_nearestEven_of_le hd' (by rw [h0]; simpa using h)
      calc B ≤ nearestEven num (den * 2 ^ scaleOf (num / den)) := this
        _ ≤ nearestEven num (den * 2 ^ scaleOf (num / den)) * 2 ^ scaleOf (num / den) := Nat.le_mul_of_pos_right _ hp
        _ = roundMag num den := rfl

/-- No integer is nearer to the quotient than `nearestEven`, and on a tie `nearestEven` is even. -/
theorem nearestEven_nearest (num den j : Nat) (hd : 0 < den) :
    |(num : ℤ) - nearestEven num den * den| ≤ |(num : ℤ) - j * den| ∧
      (|(num : ℤ) - nearestEven num den * den| = |(num : ℤ) - j * den| → j ≠ nearestEven num den → nearestEven num den % 2 = 0) := by
  have hdm := Nat.div_add_mod num den
  have hlt := Nat.mod_lt num hd
  generalize hq : num / den = q at hdm
  generalize hr : num % den = r at hdm hlt
  have hne : nearestEven num den = if 2 * r < den then q else if 2 * r = den ∧ q % 2 = 0 then q else q + 1 := by
    simp only [nearestEven, hq, hr]
  have hcast : (num : ℤ) = den * q + r := by exact_mod_cast hdm.symm
  have hj : (j : ℤ) * den = den * q + (j - q : ℤ) * den := by ring
  -- distance to j is at least r if j ≤ q and at least den - r if j > q
  have hdist : (j ≤ q → |(num : ℤ) - j * den| = r + (q - j : ℤ) * den) ∧ (q < j → |(num : ℤ) - j * den| = (j - q : ℤ) * den - r) := by
    constructor
    · intro h
      rw [hcast, hj]
      have : (0 : ℤ) ≤ (q - j : ℤ) * den := mul_nonneg (by omega) (by omega)
      rw [abs_of_nonneg (by nlinarith)]; ring
    · intro h
      rw [hcast, hj]
      have : (1 : ℤ) * den ≤ (j - q : ℤ) * den := mul_le_mul_of_nonneg_right (by omega) (by omega)
      rw [abs_of_nonpos (by nlinarith)]; ring
  have hle : q < j → (den : ℤ) ≤ (j - q : ℤ) * den := by
    intro h
    have : (1 : ℤ) * den ≤ (j - q : ℤ) * den := mul_le_mul_of_nonneg_right (by omega) (by omega)
    simpa using this
  have hle0 : j ≤ q → (0 : ℤ) ≤ (q - j : ℤ) * den := fun h => mul_nonneg (by omega) (by omega)
  have hle1 : j < q → (den : ℤ) ≤ (q - j : ℤ) * den := by
    intro h
    have : (1 : ℤ) * den ≤ (q - j : ℤ) * den := mul_le_mul_of_nonneg_right (by omega) (by omega)
    simpa using this
  have hq0 : |(num : ℤ) - (q : ℕ) * den| = r := by
    rw [hcast, show ((den : ℤ) * q + r - q * den) = r by ring]
    exact abs_of_nonneg (by omega)
  have hq1 : |(num : ℤ) - ((q + 1 : ℕ) : ℤ) * den| = den - r := by
    rw [hcast, show ((den : ℤ) * q + r - ((q + 1 : ℕ) : ℤ) * den) = r - den by push_cast; ring]
    rw [abs_of_nonpos (by omega)]; ring
  have hkq : 2 * r < den ∨ (2 * r = den ∧ q % 2 = 0) → nearestEven num den = q := by
    intro h; rw [hne]; rcases h with h | h
    · rw [if_pos h]
    · rw [if_neg (by omega), if_pos h]
  by_cases hA : 2 * r < den ∨ (2 * r = den ∧ q % 2 = 0)
  · rw [hkq hA, hq0]
    rcases Nat.lt_or_ge q j with h | h
    · rw [hdist.2 h]
      have := hle h
      refine ⟨by omega, fun e hne => ?_⟩
      rcases hA with hA | hA
      · omega
      · exact hA.2
    · rw [hdist.1 h]
      have := hle0 h
      refine ⟨by omega, fun e hne => ?_⟩
      have := hle1 (by omega)
      omega
  · have : nearestEven num den = q + 1 := by
      rw [hne, if_neg (by omega), if_neg (by omega)]
    rw [this, hq1]
    rcases Nat.lt_or_ge q j with h | h
    · rw [hdist.2 h]
      have := hle h
      refine ⟨by omega, fun e hne => ?_⟩
      have h2 : (2 : ℤ) * den ≤ (j - q : ℤ) * den := mul_le_mul_of_nonneg_right (by omega) (by omega)
      omega
    · rw [hdist.1 h]
      have := hle0 h
      refine ⟨by omega, fun e hne => ?_⟩
      omega

/-- No representable magnitude is nearer to `num / den` than `roundMag`, and on a tie its significand is even. -/
theorem roundMag_nearest (num den k : Nat) (hd : 0 < den) (hk : Representable k) :
    |(num : ℤ) - roundMag num den * den| ≤ |(num : ℤ) - k * den| ∧
      (|(num : ℤ) - roundMag num den * den| = |(num : ℤ) - k * den| → k ≠ roundMag num den →
        nearestEven num (den * 2 ^ scaleOf (num / den)) % 2 = 0) := by
  have hD : 0 < den * 2 ^ scaleOf (num / den) := Nat.mul_pos hd (Nat.two_pow_pos _)
  have hm : ((roundMag num den : ℕ) : ℤ) * den = nearestEven num (den * 2 ^ scaleOf (num / den)) * ((den * 2 ^ scaleOf (num / den) : ℕ) : ℤ) := by
    simp only [roundMag]; push_cast; ring
  have mult : ∀ j, |(num : ℤ) - roundMag num den * den| ≤ |(num : ℤ) - ((j * 2 ^ scaleOf (num / den) : ℕ) : ℤ) * den| ∧
      (|(num : ℤ) - roundMag num den * den| = |(num : ℤ) - ((j * 2 ^ scaleOf (num / den) : ℕ) : ℤ) * den| → j * 2 ^ scaleOf (num / den) ≠ roundMag num den →
        nearestEven num (den * 2 ^ scaleOf (num / den)) % 2 = 0) := by
    intro j
    have hj : ((j * 2 ^ scaleOf (num / den) : ℕ) : ℤ) * den = j * ((den * 2 ^ scaleOf (num / den) : ℕ) : ℤ) := by push_cast; ring
    rw [hm, hj]
    obtain ⟨h1, h2⟩ := nearestEven_nearest num (den * 2 ^ scaleOf (num / den)) j hD
    refine ⟨h1, fun e hne => h2 e ?_⟩
    intro he
    apply hne
    simp only [roundMag]
    rw [he]
  rcases hk.multiple_or_below (num / den) with ⟨j, rfl⟩ | hlow
  · exact mult j
  · rcases (scaleOf_spec (num / den)).2 with h23 | h0
    · obtain ⟨h1, -⟩ := mult (2 ^ 23)
      have hbase : 2 ^ 23 * 2 ^ scaleOf (num / den) * den ≤ num := (Nat.le_div_iff_mul_le hd).mp h23
      have hkb : k * den ≤ 2 ^ 23 * 2 ^ scaleOf (num / den) * den := Nat.mul_le_mul_right _ hlow
      have e1 : |(num : ℤ) - ((2 ^ 23 * 2 ^ scaleOf (num / den) : ℕ) : ℤ) * den| = num - ((2 ^ 23 * 2 ^ scaleOf (num / den) : ℕ) : ℤ) * den :=
        abs_of_nonneg (by have : ((2 ^ 23 * 2 ^ scaleOf (num / den) : ℕ) : ℤ) * den ≤ num := by exact_mod_cast hbase
                          omega)
      have hkb' : (k : ℤ) * den ≤ ((2 ^ 23 * 2 ^ scaleOf (num / den) : ℕ) : ℤ) * den := by exact_mod_cast hkb
      have hb' : ((2 ^ 23 * 2 ^ scaleOf (num / den) : ℕ) : ℤ) * den ≤ num := by exact_mod_cast hbase
      have e2 : |(num : ℤ) - k * den| = num - k * den := abs_of_nonneg (by omega)
      rw [e1] at h1
      rw [e2]
      refine ⟨by omega, fun e hne => ?_⟩
      have hkeq : (k : ℤ) * den = ((2 ^ 23 * 2 ^ scaleOf (num / den) : ℕ) : ℤ) * den := by omega
      have hkk : k = 2 ^ 23 * 2 ^ scaleOf (num / den) := Nat.eq_of_mul_eq_mul_right hd (by exact_mod_cast hkeq)
      have := (mult (2 ^ 23)).2
      rw [← hkk] at this
      exact this (by rw [e2]; exact e) hne
    · have := mult k
      rw [h0] at this ⊢
      simpa using this

/-- A pattern with an even significand is even. -/
theorem toBits_lsb (nb : F32) (s : Bool) {q e : Nat} (hq : q ≤ 2 ^ 24) (h : 2 ^ 23 ≤ q ∨ e = 0) (h2 : q % 2 = 0) :
    (toBits nb (.fin s (q * 2 ^ e))).getLsbD 0 = false := by
  have key : magBits (q * 2 ^ e) % 2 = 0 := by
    rcases Nat.lt_or_ge q (2 ^ 24) with hlt | hge
    · rcases Nat.lt_or_ge q (2 ^ 23) with h23 | h23
      · have : e = 0 := by omega
        subst this
        rw [magBits_small (by omega)]; omega
      · rw [magBits_normal h23 hlt]; omega
    · have : q = 2 ^ 24 := by omega
      subst this
      rw [show 2 ^ 24 * 2 ^ e = 2 ^ 23 * 2 ^ (e + 1) by rw [pow_succ 2 e]; ring, magBits_normal le_rfl (by decide)]
      omega
  simp only [toBits]
  rw [BitVec.getLsbD_append, if_pos (by decide), BitVec.getLsbD_ofNat, Nat.testBit_zero]
  simp [key]

/-! ### Patterns of sign 0 -/

/-- The magnitude the low 31 bits of a finite pattern hold. -/
def patMag (n : Nat) : Nat := if n / 2 ^ 23 = 0 then n % 2 ^ 23 else (2 ^ 23 + n % 2 ^ 23) * 2 ^ (n / 2 ^ 23 - 1)

theorem patMag_lt_succ (n : Nat) : patMag n < patMag (n + 1) := by
  unfold patMag
  by_cases hc : n % 2 ^ 23 = 2 ^ 23 - 1
  · have h1 : (n + 1) % 2 ^ 23 = 0 := by omega
    have h2 : (n + 1) / 2 ^ 23 = n / 2 ^ 23 + 1 := by omega
    rw [h1, h2, hc]
    generalize n / 2 ^ 23 = d
    rw [if_neg (Nat.succ_ne_zero d), Nat.add_sub_cancel]
    cases d with
    | zero => decide
    | succ e =>
      rw [if_neg (Nat.succ_ne_zero e), Nat.add_sub_cancel, pow_succ 2 e]
      have := Nat.two_pow_pos e
      omega
  · have h1 : (n + 1) % 2 ^ 23 = n % 2 ^ 23 + 1 := by omega
    have h2 : (n + 1) / 2 ^ 23 = n / 2 ^ 23 := by omega
    rw [h1, h2]
    split
    · omega
    · exact Nat.mul_lt_mul_of_pos_right (by omega) (Nat.two_pow_pos _)

theorem patMag_strictMono : StrictMono patMag := strictMono_nat_of_lt_succ patMag_lt_succ

/-- A finite pattern with sign 0 is a number below 0x7F800000, and its magnitude is that number's. -/
theorem ofBits_eq_fin_false_iff (b : F32) (m : Nat) :
    ofBits b = .fin false m ↔ b.toNat < 0x7F800000 ∧ m = patMag b.toNat := by
  have hs : b.getLsbD 31 = decide (2 ^ 31 ≤ b.toNat) := by
    rw [← BitVec.testBit_toNat, Nat.testBit_eq_decide_div_mod_eq]
    congr 1
    apply propext
    have := b.isLt
    constructor <;> intro h <;> omega
  have he : (b.extractLsb' 23 8).toNat = b.toNat / 2 ^ 23 % 2 ^ 8 := by
    rw [BitVec.extractLsb'_toNat, Nat.shiftRight_eq_div_pow]
  have hf : (b.extractLsb' 0 23).toNat = b.toNat % 2 ^ 23 := by
    rw [BitVec.extractLsb'_toNat, Nat.shiftRight_zero]
  have hlt := b.isLt
  simp only [ofBits, hs, he, hf, patMag]
  by_cases h31 : 2 ^ 31 ≤ b.toNat
  · rw [decide_eq_true h31]
    constructor
    · intro h
      split at h
      · split at h <;> cases h
      · split at h <;> cases h
    · rintro ⟨h, -⟩; omega
  · rw [decide_eq_false h31]
    have hm : b.toNat / 2 ^ 23 % 2 ^ 8 = b.toNat / 2 ^ 23 := by omega
    rw [hm]
    by_cases h255 : b.toNat / 2 ^ 23 = 255
    · rw [if_pos h255]
      constructor
      · intro h; split at h <;> cases h
      · rintro ⟨h, -⟩; omega
    · rw [if_neg h255]
      split
      · rename_i h0
        constructor
        · intro h; injection h with _ h; exact ⟨by omega, h.symm⟩
        · rintro ⟨-, h⟩; rw [h]
      · constructor
        · intro h; injection h with _ h; exact ⟨by omega, h.symm⟩
        · rintro ⟨-, h⟩; rw [h]

/-- Patterns of sign 0 are ordered as their numbers. -/
theorem toNat_le_iff {b : F32} {m : Nat} (h : ofBits b = .fin false m) (n : Nat) : b.toNat ≤ n ↔ m ≤ patMag n := by
  rw [ofBits_eq_fin_false_iff] at h
  rw [h.2]
  exact patMag_strictMono.le_iff_le.symm

end FVal

/-! ### The ranges of the phase and of the rate -/

/-- The magnitude 257 in units of 2^-149, in the form of its pattern. -/
theorem patMag_phaseMax : FVal.patMag 0x43808000 = 257 * 2 ^ 15 * 2 ^ 134 := by
  simp [FVal.patMag]

/-- The phase range of R40 as values: a non-negative finite pattern of at most 257. -/
theorem phase_range_iff (b : F32) : b.toNat ≤ 0x43808000 ↔ ∃ m, FVal.ofBits b = .fin false m ∧ m ≤ 257 * 2 ^ 15 * 2 ^ 134 := by
  constructor
  · intro h
    have := (FVal.ofBits_eq_fin_false_iff b _).mpr ⟨by omega, rfl⟩
    refine ⟨_, this, ?_⟩
    rw [← patMag_phaseMax]
    exact (FVal.toNat_le_iff this _).mp h
  · rintro ⟨m, h, hm⟩
    rw [FVal.toNat_le_iff h, patMag_phaseMax]
    exact hm

/-- The admitted rates as values: from 2^-16 to 2^8, in units of 2^-149. -/
theorem rateAdmitted_iff (r : F32) :
    rateAdmitted r = true ↔ ∃ m, FVal.ofBits r = .fin false m ∧ 2 ^ 133 ≤ m ∧ m ≤ 2 ^ 157 := by
  have hmin : FVal.ofBits Config.rateMin = .fin false (2 ^ 133) := by decide +kernel
  have hmax : FVal.ofBits Config.rateMax = .fin false (2 ^ 157) := by decide +kernel
  simp only [rateAdmitted, isNaN, FVal.lt, hmin, hmax]
  have b1 : (2 : Int) ^ 157 < 2 ^ 150 * 2 ^ 150 := by norm_num
  have b2 : (0 : Int) < 2 ^ 133 := by norm_num
  cases h : FVal.ofBits r with
  | nan => simp
  | inf s =>
    cases s
    · simp [FVal.units]; 
    · simp [FVal.units];
  | fin s m =>
    cases s
    · simp [FVal.units]
    · simp [FVal.units]
      intro h
      have := of_decide_eq_false h
      omega

/-- The step of a rate of sign 0, as a quotient of its magnitude (R142). -/
theorem stepOf_eq {r : F32} {m : Nat} (h : FVal.ofBits r = .fin false m) : stepOf r = (m + 2 ^ 132) / 2 ^ 133 := by
  have : ((m : Int) + 2 ^ 132) / 2 ^ 133 = (((m + 2 ^ 132) / 2 ^ 133 : Nat) : Int) := by push_cast; rfl
  simp only [stepOf, h, FVal.units]
  rw [this, Int.toNat_natCast]

/-- The magnitude of a FLOAT phase. -/
def phaseMag (b : F32) : Nat := FVal.patMag b.toNat

theorem ofBits_phase {b : F32} (h : b.toNat ≤ 0x43808000) : FVal.ofBits b = .fin false (phaseMag b) :=
  (FVal.ofBits_eq_fin_false_iff b _).mpr ⟨by omega, rfl⟩

/-- A sum whose exact value is positive is the rounding of that value. -/
theorem add_fin_pos {s t : Bool} {m n k : Nat} (hk : 0 < k) (h : FVal.units (.fin s m) + FVal.units (.fin t n) = (k : Int)) :
    FVal.add (.fin s m) (.fin t n) = FVal.round false k 1 := by
  simp only [FVal.add]
  rw [h, if_neg (by omega), decide_eq_false (by omega)]
  rfl

end Sys2Proof.Machine
end

