-- ==== Sys2Proof/Laws/Decode.lean ====
section
/-! SUPPORT. The command word's fields, the sample words and the frames, said once for the round trips of the decoder and the encoder. -/

namespace Sys2Proof

/-! ### The command word -/

@[simp] theorem Opcode.ofCode_code (op : Opcode) : Opcode.ofCode op.code = some op := by cases op <;> decide

theorem Opcode.code_of_ofCode {c : BitVec 8} {op : Opcode} (h : Opcode.ofCode c = some op) : op.code = c := by
  simpa using List.find?_some h

/-- A code is reserved exactly when it is the code of no opcode. -/
theorem Opcode.ofCode_eq_none_iff (c : BitVec 8) : Opcode.ofCode c = none ↔ ∀ op : Opcode, op.code ≠ c := by
  constructor
  · intro h op e
    rw [← e, Opcode.ofCode_code] at h
    cases h
  · intro h
    cases hc : Opcode.ofCode c with
    | none => rfl
    | some op => exact absurd (Opcode.code_of_ofCode hc) (h op)

@[simp] theorem cmdOpc_cmdWord (op : Opcode) (p : Bool) : cmdOpc (cmdWord op p) = op.code := by
  cases op <;> cases p <;> decide

@[simp] theorem cmdP_cmdWord (op : Opcode) (p : Bool) : cmdP (cmdWord op p) = p := by
  cases op <;> cases p <;> decide

@[simp] theorem cmdRes_cmdWord (op : Opcode) (p : Bool) : cmdRes (cmdWord op p) = 0#23 := by
  cases op <;> cases p <;> decide

/-- A command word is its three fields. -/
theorem cmdWord_of_fields {cmd : U32} {op : Opcode} (h : op.code = cmdOpc cmd) (hr : cmdRes cmd = 0#23) : cmdWord op (cmdP cmd) = cmd := by
  unfold cmdWord
  rw [h, ← hr]
  apply BitVec.eq_of_getLsbD_eq
  intro i hi
  simp only [BitVec.getLsbD_append, cmdOpc, cmdRes, cmdP, BitVec.getLsbD_extractLsb', BitVec.getLsbD_ofBool]
  by_cases h8 : i < 8
  · simp [h8]
  · by_cases h9 : i < 9
    · have : i = 8 := by omega
      subst this
      simp
    · have h1 : ¬ i - 8 < 1 := by omega
      have h2 : i - 8 - 1 < 23 := by omega
      have h3 : 9 + (i - 8 - 1) = i := by omega
      simp only [h8, h1, h2, h3, decide_false, decide_true, Bool.true_and]
      simp

@[simp] theorem Proc.ofBit_toBit (p : Proc) : Proc.ofBit p.toBit = p := by cases p <;> rfl
@[simp] theorem Proc.toBit_ofBit (b : Bool) : (Proc.ofBit b).toBit = b := by cases b <;> rfl

/-! ### Sample words -/

@[simp] theorem i16OfWord_i16Word (s : I16) : i16OfWord (i16Word s) = some s := by
  have h : (i16Word s).extractLsb' 0 16 = s := by
    apply BitVec.eq_of_getLsbD_eq
    intro i hi
    have h32 : i < 32 := by omega
    simp [i16Word, hi, h32, BitVec.getElem_signExtend]
  simp [i16OfWord, h]

theorem i16Word_of_i16OfWord {w : U32} {s : I16} (h : i16OfWord w = some s) : i16Word s = w := by
  simp only [i16OfWord] at h
  split at h
  · rename_i e
    injection h with h
    rw [← h]
    exact e
  · cases h

@[simp] theorem i16sOfWords_map (ss : List I16) : i16sOfWords (ss.map i16Word) = some ss := by
  induction ss with
  | nil => rfl
  | cons s ss ih => simp [i16sOfWords, ih]

theorem map_of_i16sOfWords {ws : List U32} {ss : List I16} (h : i16sOfWords ws = some ss) : ss.map i16Word = ws := by
  induction ws generalizing ss with
  | nil => simp_all [i16sOfWords]
  | cons w ws ih =>
    simp only [i16sOfWords] at h
    split at h
    · cases h
    · rename_i s hs
      split at h
      · cases h
      · rename_i tail ht
        injection h with h
        subst h
        simp [ih ht, i16Word_of_i16OfWord hs]

/-- The sample words decode as i16 samples exactly when each of them does. -/
theorem i16sOfWords_eq_none_iff (ws : List U32) : i16sOfWords ws = none ↔ ∃ w ∈ ws, i16OfWord w = none := by
  induction ws with
  | nil => simp [i16sOfWords]
  | cons w ws ih =>
    simp only [i16sOfWords, List.mem_cons, exists_eq_or_imp, ← ih]
    cases i16OfWord w <;> cases i16sOfWords ws <;> simp

/-! ### Frames -/

section
variable {σ : Type}

theorem flatten_framesOf (ch : Channels) (l : List σ) : (framesOf ch l).flatten = l := by
  induction ch, l using framesOf.induct with
  | case1 => cases ‹Channels› <;> rfl
  | case2 s ss ih => simpa [framesOf] using ih
  | case3 s => rfl
  | case4 a b ss ih => simpa [framesOf] using ih

theorem framesOf_flatten (ch : Channels) (x : List (List σ)) (h : ∀ f ∈ x, f.length = ch.count) : framesOf ch x.flatten = x := by
  induction x with
  | nil => cases ch <;> rfl
  | cons f x ih =>
    have hf := h f (by simp)
    have ih := ih (fun g hg => h g (by simp [hg]))
    cases ch
    · obtain ⟨a, rfl⟩ := List.length_eq_one_iff.mp hf
      simpa [framesOf] using ih
    · obtain ⟨a, b, rfl⟩ := List.length_eq_two.mp hf
      simpa [framesOf] using ih

/-- A stream of `n × channels` samples makes `n` frames of `channels` samples. -/
theorem framesOf_shape (ch : Channels) (l : List σ) (n : Nat) (h : l.length = n * ch.count) :
    (framesOf ch l).length = n ∧ ∀ f ∈ framesOf ch l, f.length = ch.count := by
  induction n generalizing l with
  | zero =>
    have : l = [] := by simpa using h
    subst this
    cases ch <;> simp [framesOf]
  | succ n ih =>
    cases ch
    · match l, h with
      | s :: ss, h =>
        have := ih ss (by simp [Channels.count] at h ⊢; omega)
        simpa [framesOf, Channels.count] using this
      | [], h => simp [Channels.count] at h
    · match l, h with
      | a :: b :: ss, h =>
        have := ih ss (by simp [Channels.count] at h ⊢; omega)
        simpa [framesOf, Channels.count] using this
      | [s], h => simp [Channels.count] at h; omega
      | [], h => simp [Channels.count] at h

theorem length_flatten_of_width (w : Nat) (x : List (List σ)) (h : ∀ f ∈ x, f.length = w) : x.flatten.length = x.length * w := by
  induction x with
  | nil => simp
  | cons f x ih =>
    have := ih (fun g hg => h g (by simp [hg]))
    simp [h f (by simp), this, Nat.add_mul, Nat.add_comm]

end

/-- `framesHave` as a statement about every frame. -/
theorem Block.framesHave_i16 (w : Nat) (x : List (List I16)) : (Block.i16 x).framesHave w = true ↔ ∀ f ∈ x, f.length = w := by
  simp [Block.framesHave]

theorem Block.framesHave_f32 (w : Nat) (x : List (List F32)) : (Block.f32 x).framesHave w = true ↔ ∀ f ∈ x, f.length = w := by
  simp [Block.framesHave]

end Sys2Proof
end

