-- ==== Sys2Proof/Laws/State.lean ====
section
/-! SUPPORT. One lemma per field per update of the state, so that no later proof unfolds a record update. -/

namespace Sys2Proof.Machine

open Sys2Proof

@[simp] theorem peer_peer (p : Proc) : p.peer.peer = p := by cases p <;> rfl
@[simp] theorem peer_ne (p : Proc) : p.peer ≠ p := by cases p <;> decide
@[simp] theorem ne_peer (p : Proc) : p ≠ p.peer := by cases p <;> decide

/-- Every processor is `p` or its peer. -/
theorem eq_or_eq_peer (p q : Proc) : q = p ∨ q = p.peer := by cases p <;> cases q <;> simp [Proc.peer]

section PerProc
variable {α : Type} (x : PerProc α) (p q : Proc) (v : α)

@[simp] theorem PerProc.get_set : (x.set p v).get p = v := by cases p <;> rfl
@[simp] theorem PerProc.get_set_peer : (x.set p v).get p.peer = x.get p.peer := by cases p <;> rfl
@[simp] theorem PerProc.get_peer_set : (x.set p.peer v).get p = x.get p := by cases p <;> rfl
theorem PerProc.get_set_of_ne (h : q ≠ p) : (x.set p v).get q = x.get q := by
  cases p <;> cases q <;> first | rfl | exact absurd rfl h
@[simp] theorem PerProc.set_get : x.set p (x.get p) = x := by cases p <;> rfl
theorem PerProc.ext_get {y : PerProc α} (h : ∀ p, x.get p = y.get p) : x = y := by
  cases x; cases y; simpa [PerProc.get] using And.intro (h .p0) (h .p1)

end PerProc

section Updates
variable (s : State) (p q : Proc) (c : U16) (u : Queue) (b : UnitB) (a : Agent) (rest : List Request) (r : Request)
  (result : List U32) (events : List Event)

@[simp] theorem setCnt_cfg : (s.setCnt p c).cfg = s.cfg := rfl
@[simp] theorem setCnt_queue : (s.setCnt p c).unitA.queue = s.unitA.queue := rfl
@[simp] theorem setCnt_init : (s.setCnt p c).unitA.init = s.unitA.init := rfl
@[simp] theorem setCnt_unitB : (s.setCnt p c).unitB = s.unitB := rfl
@[simp] theorem setCnt_index : (s.setCnt p c).index = s.index := rfl
@[simp] theorem setCnt_faultMark : (s.setCnt p c).faultMark = s.faultMark := rfl
@[simp] theorem setCnt_refusalMark : (s.setCnt p c).refusalMark = s.refusalMark := rfl
@[simp] theorem setCnt_port : (s.setCnt p c).port = s.port := rfl
@[simp] theorem setCnt_agent : (s.setCnt p c).agent = s.agent := rfl
@[simp] theorem setCnt_outputs : (s.setCnt p c).outputs = s.outputs := rfl
@[simp] theorem setCnt_nanDraws : (s.setCnt p c).nanDraws = s.nanDraws := rfl
@[simp] theorem setCnt_cnt : (s.setCnt p c).cnt p = c := PerProc.get_set ..
@[simp] theorem setCnt_cnt_peer : (s.setCnt p c).cnt p.peer = s.cnt p.peer := PerProc.get_set_peer ..
@[simp] theorem setCnt_peer_cnt : (s.setCnt p.peer c).cnt p = s.cnt p := PerProc.get_peer_set ..
@[simp] theorem setCnt_queueAt : (s.setCnt p c).queue q = s.queue q := rfl

@[simp] theorem setQueue_cfg : (s.setQueue p u).cfg = s.cfg := rfl
@[simp] theorem setQueue_cntA : (s.setQueue p u).unitA.cnt = s.unitA.cnt := rfl
@[simp] theorem setQueue_init : (s.setQueue p u).unitA.init = s.unitA.init := rfl
@[simp] theorem setQueue_unitB : (s.setQueue p u).unitB = s.unitB := rfl
@[simp] theorem setQueue_index : (s.setQueue p u).index = s.index := rfl
@[simp] theorem setQueue_faultMark : (s.setQueue p u).faultMark = s.faultMark := rfl
@[simp] theorem setQueue_refusalMark : (s.setQueue p u).refusalMark = s.refusalMark := rfl
@[simp] theorem setQueue_port : (s.setQueue p u).port = s.port := rfl
@[simp] theorem setQueue_agent : (s.setQueue p u).agent = s.agent := rfl
@[simp] theorem setQueue_outputs : (s.setQueue p u).outputs = s.outputs := rfl
@[simp] theorem setQueue_nanDraws : (s.setQueue p u).nanDraws = s.nanDraws := rfl
@[simp] theorem setQueue_queue : (s.setQueue p u).queue p = u := PerProc.get_set ..
@[simp] theorem setQueue_queue_peer : (s.setQueue p u).queue p.peer = s.queue p.peer := PerProc.get_set_peer ..
@[simp] theorem setQueue_peer_queue : (s.setQueue p.peer u).queue p = s.queue p := PerProc.get_peer_set ..
@[simp] theorem setQueue_cnt : (s.setQueue p u).cnt q = s.cnt q := rfl

@[simp] theorem setUnitB_cfg : (s.setUnitB b).cfg = s.cfg := rfl
@[simp] theorem setUnitB_unitA : (s.setUnitB b).unitA = s.unitA := rfl
@[simp] theorem setUnitB_unitB : (s.setUnitB b).unitB = b := rfl
@[simp] theorem setUnitB_index : (s.setUnitB b).index = s.index := rfl
@[simp] theorem setUnitB_faultMark : (s.setUnitB b).faultMark = s.faultMark := rfl
@[simp] theorem setUnitB_refusalMark : (s.setUnitB b).refusalMark = s.refusalMark := rfl
@[simp] theorem setUnitB_port : (s.setUnitB b).port = s.port := rfl
@[simp] theorem setUnitB_agent : (s.setUnitB b).agent = s.agent := rfl
@[simp] theorem setUnitB_outputs : (s.setUnitB b).outputs = s.outputs := rfl
@[simp] theorem setUnitB_nanDraws : (s.setUnitB b).nanDraws = s.nanDraws := rfl

@[simp] theorem complete_cfg : (s.complete result events).cfg = s.cfg := rfl
@[simp] theorem complete_unitA : (s.complete result events).unitA = s.unitA := rfl
@[simp] theorem complete_unitB : (s.complete result events).unitB = s.unitB := rfl
@[simp] theorem complete_index : (s.complete result events).index = s.index + 1 := rfl
@[simp] theorem complete_faultMark : (s.complete result events).faultMark = s.faultMark := rfl
@[simp] theorem complete_refusalMark : (s.complete result events).refusalMark = s.refusalMark := rfl
@[simp] theorem complete_port : (s.complete result events).port = s.port := rfl
@[simp] theorem complete_agent : (s.complete result events).agent = s.agent := rfl
@[simp] theorem complete_outputs : (s.complete result events).outputs = s.outputs ++ [⟨s.agent, result, events⟩] := rfl
@[simp] theorem complete_nanDraws : (s.complete result events).nanDraws = s.nanDraws := rfl
@[simp] theorem complete_cnt : (s.complete result events).cnt q = s.cnt q := rfl
@[simp] theorem complete_queue : (s.complete result events).queue q = s.queue q := rfl

@[simp] theorem issue_cfg : (s.issue a rest).cfg = s.cfg := rfl
@[simp] theorem issue_unitA : (s.issue a rest).unitA = s.unitA := rfl
@[simp] theorem issue_unitB : (s.issue a rest).unitB = s.unitB := rfl
@[simp] theorem issue_index : (s.issue a rest).index = s.index := rfl
@[simp] theorem issue_faultMark : (s.issue a rest).faultMark = s.faultMark := rfl
@[simp] theorem issue_refusalMark : (s.issue a rest).refusalMark = s.refusalMark := rfl
@[simp] theorem issue_port : (s.issue a rest).port = rest := rfl
@[simp] theorem issue_agent : (s.issue a rest).agent = some a := rfl
@[simp] theorem issue_outputs : (s.issue a rest).outputs = s.outputs := rfl
@[simp] theorem issue_nanDraws : (s.issue a rest).nanDraws = s.nanDraws := rfl

@[simp] theorem submit_port : (s.submit r).port = s.port ++ [r] := rfl
@[simp] theorem submit_unitA : (s.submit r).unitA = s.unitA := rfl
@[simp] theorem submit_unitB : (s.submit r).unitB = s.unitB := rfl
@[simp] theorem submit_index : (s.submit r).index = s.index := rfl

end Updates

section Lanes
variable {σ π : Type} (lane : Lane σ π) (zs : σ) (zp : π) (m : Nat)

@[simp] theorem Lane.clear_acc : lane.clear.acc = lane.acc := rfl
@[simp] theorem Lane.clear_prev0 : lane.clear.prev0 = lane.prev0 := rfl
@[simp] theorem Lane.clear_prev1 : lane.clear.prev1 = lane.prev1 := rfl
@[simp] theorem Lane.clear_store : lane.clear.store = [] := rfl
@[simp] theorem Lane.clear_temp : lane.clear.temp = [] := rfl
@[simp] theorem Lane.clear_output : lane.clear.output = [] := rfl
@[simp] theorem Lane.resetInterp_acc : (lane.resetInterp zs zp).acc = zp := rfl
@[simp] theorem Lane.resetInterp_store : (lane.resetInterp zs zp).store = lane.store := rfl
@[simp] theorem Lane.resetInterp_temp : (lane.resetInterp zs zp).temp = lane.temp := rfl
@[simp] theorem Lane.resetInterp_output : (lane.resetInterp zs zp).output = lane.output := rfl
@[simp] theorem Lane.dropOutput_acc : (lane.dropOutput m).acc = lane.acc := rfl
@[simp] theorem Lane.dropOutput_store : (lane.dropOutput m).store = lane.store := rfl
@[simp] theorem Lane.dropOutput_temp : (lane.dropOutput m).temp = lane.temp := rfl
@[simp] theorem Lane.dropOutput_output : (lane.dropOutput m).output = lane.output.drop m := rfl
@[simp] theorem Lane.setPrev_acc (f : List σ) : (lane.setPrev f).acc = lane.acc := rfl
@[simp] theorem Lane.setPrev_store (f : List σ) : (lane.setPrev f).store = lane.store := rfl
@[simp] theorem Lane.setPrev_temp (f : List σ) : (lane.setPrev f).temp = lane.temp := rfl
@[simp] theorem Lane.setPrev_output (f : List σ) : (lane.setPrev f).output = lane.output := rfl

end Lanes

section Datapaths
variable (d : Datapath) (v : Nat)

@[simp] theorem Datapath.variant_clear : d.clear.variant = d.variant := by cases d <;> rfl
@[simp] theorem Datapath.variant_resetInterp : d.resetInterp.variant = d.variant := by cases d <;> rfl
@[simp] theorem Datapath.variant_setStep : (d.setStep v).variant = d.variant := by cases d <;> rfl
@[simp] theorem Datapath.variant_dropOutput : (d.dropOutput v).variant = d.variant := by cases d <;> rfl
@[simp] theorem Datapath.variant_reset (w : Variant) : (Datapath.reset w).variant = w := by cases w <;> rfl
@[simp] theorem Datapath.storeLength_clear : d.clear.storeLength = 0 := by cases d <;> rfl
@[simp] theorem Datapath.outputLength_clear : d.clear.outputLength = 0 := by cases d <;> rfl

end Datapaths

end Sys2Proof.Machine
end

