-- ==== Sys2Proof/Laws/Ops.lean ====
section
/-! SUPPORT. What each shared operation can do, said once: how a command completes, the UNINIT check, the queues as lists, and what a step does. -/

namespace Sys2Proof.Machine

open Sys2Proof

/-! ### Completing -/

/-- `ok` always answers a next state, the completed one. -/
@[simp] theorem ok_eq_next_iff (s t : State) (result : List U32) (events : List Event) :
    s.ok result events = .next t ↔ t = s.complete result events := by
  constructor
  · intro h; injection h with h; exact h.symm
  · rintro rfl; rfl

/-- What completing keeps, for a state that agrees with the one before the command on everything completing touches. -/
theorem completed_complete {s u : State} (result : List U32) (events : List Event)
    (hi : u.index = s.index) (ho : u.outputs = s.outputs) (hc : u.cfg = s.cfg) (hp : u.port = s.port) (ha : u.agent = s.agent)
    (hf : u.faultMark = s.faultMark) (hr : u.refusalMark = s.refusalMark) : Completed s (u.complete result events) result events :=
  ⟨by simp [hi], by simp [ho, ha], hc, hp, ha, hf, hr⟩

/-- What a completed command keeps, from the state it completes with. -/
theorem completed_of_ok {s u t : State} {result : List U32} {events : List Event} (h : u.ok result events = .next t)
    (hi : u.index = s.index) (ho : u.outputs = s.outputs) (hc : u.cfg = s.cfg) (hp : u.port = s.port) (ha : u.agent = s.agent)
    (hf : u.faultMark = s.faultMark) (hr : u.refusalMark = s.refusalMark) : Completed s t result events := by
  rw [ok_eq_next_iff] at h
  subst h
  exact completed_complete result events hi ho hc hp ha hf hr

/-- A completed command has one result and one event list. -/
theorem Completed.unique {s t : State} {r r' : List U32} {e e' : List Event} (h : Completed s t r e) (h' : Completed s t r' e') : r = r' ∧ e = e' := by
  have := h.outputs.symm.trans h'.outputs
  simpa using this

/-- The UNINIT check: with both marks set it is the command itself. -/
@[simp] theorem whenReady_of_ready {s : State} {p : Proc} {k : Result} (h : s.unitA.ready = true) : s.whenReady p k = k := by
  simp [State.whenReady, h]

/-- The UNINIT check: with a mark clear it is the fault. -/
@[simp] theorem whenReady_of_not_ready {s : State} {p : Proc} {k : Result} (h : s.unitA.ready = false) : s.whenReady p k = .fault (.uninit p) := by
  simp [State.whenReady, h]

/-- A command behind the UNINIT check that answers a next state found both marks set. -/
theorem whenReady_eq_next {s t : State} {p : Proc} {k : Result} (h : s.whenReady p k = .next t) : s.unitA.ready = true ∧ k = .next t := by
  cases hr : s.unitA.ready
  · rw [whenReady_of_not_ready hr] at h; cases h
  · exact ⟨rfl, by rwa [whenReady_of_ready hr] at h⟩

/-- With both marks set, each processor is initialised. -/
theorem init_of_ready {a : UnitA} (h : a.ready = true) (p : Proc) : a.init.get p = true := by
  simp only [UnitA.ready, Bool.and_eq_true] at h
  cases p
  · exact h.1
  · exact h.2

/-! ### Queues -/

@[simp] theorem Queue.push_size (q : Queue) (v : U32) : (q.push v).size = q.size + 1 := rfl
@[simp] theorem Queue.push_head (q : Queue) (v : U32) : (q.push v).head = q.head := rfl
@[simp] theorem Queue.push_tail (q : Queue) (v : U32) : (q.push v).tail = q.tail + 1 := rfl
@[simp] theorem Queue.pop_size (q : Queue) : q.pop.size = q.size - 1 := rfl
@[simp] theorem Queue.pop_head (q : Queue) : q.pop.head = q.head + 1 := rfl
@[simp] theorem Queue.pop_tail (q : Queue) : q.pop.tail = q.tail := rfl
@[simp] theorem Queue.pop_buf (q : Queue) : q.pop.buf = q.buf := rfl
@[simp] theorem Queue.clear_size (q : Queue) : q.clear.size = 0 := rfl
@[simp] theorem Queue.clear_buf (q : Queue) : q.clear.buf = q.buf := rfl
@[simp] theorem Queue.clear_head (q : Queue) : q.clear.head = 0 := rfl
@[simp] theorem Queue.clear_tail (q : Queue) : q.clear.tail = 0 := rfl

/-- `push` writes the slot at `tail` and no other. -/
theorem Queue.push_slot (q : Queue) (v : U32) (j : Fin Config.fifoDepth) :
    (q.push v).buf[j] = if j = q.tail then v else q.buf[j] := by
  show (q.buf.set q.tail v)[j.val] = _
  rw [Vector.getElem_set]
  by_cases h : j = q.tail
  · simp [h]
  · have : ¬ q.tail.val = j.val := fun e => h (Fin.ext e.symm)
    simp [h, this]

/-- A queue that is empty at the start of its buffer meets the invariant. -/
theorem Queue.zero_inv : Queue.zero.Inv := ⟨by decide, by decide⟩

theorem Queue.clear_inv (q : Queue) : q.clear.Inv := ⟨Nat.zero_le _, by simp [Queue.clear]⟩

/-- The invariant says where `tail` is. -/
theorem Queue.Inv.tail_val {q : Queue} (h : q.Inv) : q.tail.val = (q.head.val + q.size) % 16 := by
  have h1 := h.size_mod
  have ht := q.tail.isLt
  have hh := q.head.isLt
  simp only [Fin.sub_def, Config.fifoDepth] at h1 ht hh
  omega

theorem Queue.push_inv {q : Queue} (v : U32) (h : q.Inv) (hs : q.size ≤ 15) : (q.push v).Inv := by
  refine ⟨by simp only [Queue.push_size, Config.fifoDepth]; omega, ?_⟩
  have h1 := h.size_mod
  have ht := q.tail.isLt
  have hh := q.head.isLt
  simp only [Queue.push_size, Queue.push_head, Queue.push_tail, Fin.sub_def, Fin.val_add, Config.fifoDepth] at h1 ht hh ⊢
  simp only [Fin.isValue, Fin.coe_ofNat_eq_mod]
  omega

theorem Queue.pop_inv {q : Queue} (h : q.Inv) (hs : q.size ≠ 0) : q.pop.Inv := by
  have h0 := h.size_le
  refine ⟨by simp only [Queue.pop_size]; omega, ?_⟩
  have h1 := h.size_mod
  have ht := q.tail.isLt
  have hh := q.head.isLt
  simp only [Queue.pop_size, Queue.pop_head, Queue.pop_tail, Fin.sub_def, Fin.val_add, Config.fifoDepth] at h1 ht hh h0 ⊢
  simp only [Fin.isValue, Fin.coe_ofNat_eq_mod]
  omega

@[simp] theorem Queue.contents_length (q : Queue) : q.contents.length = q.size := by simp [Queue.contents]

/-- The queued words after `push` are the queued words and then the new one. -/
theorem Queue.contents_push {q : Queue} (v : U32) (h : q.Inv) (hs : q.size ≤ 15) : (q.push v).contents = q.contents ++ [v] := by
  have ht := h.tail_val
  apply List.ext_getElem
  · simp
  · intro i h1 h2
    simp only [Queue.contents_length, Queue.push_size] at h1
    have hi : i < 16 := by omega
    simp only [Queue.contents, Queue.push_size, Queue.push_head, List.getElem_map, List.getElem_range]
    rw [Queue.push_slot]
    by_cases hlast : i = q.size
    · have : q.head + Fin.ofNat Config.fifoDepth i = q.tail := by
        apply Fin.ext
        simp only [Fin.val_add, Fin.ofNat, Config.fifoDepth] at ht ⊢
        omega
      rw [if_pos this]
      simp [hlast]
    · have hlt : i < q.size := by omega
      have : q.head + Fin.ofNat Config.fifoDepth i ≠ q.tail := by
        intro e
        have := congrArg Fin.val e
        have hh := q.head.isLt
        simp only [Fin.val_add, Fin.ofNat, Config.fifoDepth] at ht this hh
        omega
      rw [if_neg this, List.getElem_append_left (by simpa using hlt)]
      simp

/-- The queued words are the front one and then those left after `pop`. -/
theorem Queue.contents_pop {q : Queue} (hs : q.size ≠ 0) : q.contents = q.front :: q.pop.contents := by
  obtain ⟨n, hn⟩ := Nat.exists_eq_succ_of_ne_zero hs
  simp only [Queue.contents, Queue.pop_size, hn, Nat.succ_eq_add_one, Nat.add_sub_cancel, List.range_succ_eq_map, List.map_cons, List.map_map]
  congr 1
  · simp [Queue.front]
  · apply List.map_congr_left
    intro i _
    have : q.head + Fin.ofNat Config.fifoDepth (i + 1) = q.pop.head + Fin.ofNat Config.fifoDepth i := by
      apply Fin.ext
      have hh := q.head.isLt
      simp only [Queue.pop_head, Fin.val_add, Fin.ofNat, Config.fifoDepth] at hh ⊢
      simp only [Fin.isValue, Fin.coe_ofNat_eq_mod]
      omega
    simp only [Function.comp_apply, Nat.succ_eq_add_one, Queue.pop_buf, this]

/-! ### Steps -/

/-- Everything a step that answers a next state did: no stop was recorded, the front request decoded to a command, and the command ran on the state with the
request taken. -/
theorem step_eq_next {s t : State} (h : step s = .next t) :
    s.faultMark = none ∧ s.refusalMark = none ∧
    ∃ req rest i, s.port = req :: rest ∧ requestCommand s.format req = .ok i ∧ exec i (s.issue req.agent rest) = .next t := by
  unfold step at h
  split at h
  · cases h
  · cases h
  · cases h
  · rename_i hf hr hp
    split at h
    · cases h
    · rename_i req rest hc i hi
      exact ⟨by assumption, by assumption, _, _, _, by assumption, hi, h⟩

end Sys2Proof.Machine
end

