-- ==== Sys2Proof/Laws/Flags.lean ====
section
/-! SUPPORT. What each status-register computation does to each named field, and which other bits it keeps. -/

namespace Sys2Proof.Machine.Cnt

open Sys2Proof Sys2Proof.Machine

/-- Two registers agree outside a mask when they agree at every bit the mask does not have. -/
theorem sameBitsExcept_iff (mask c d : U16) :
    SameBitsExcept mask c d ↔ ∀ i, i < 16 → mask.getLsbD i = false → c.getLsbD i = d.getLsbD i := by
  constructor
  · intro h i hi hm
    have := congrArg (fun x => x.getLsbD i) h
    simpa only [BitVec.getLsbD_and, BitVec.getLsbD_not, hi, hm, decide_true, Bool.not_false, Bool.and_self, Bool.and_true] using this
  · intro h
    apply BitVec.eq_of_getLsbD_eq
    intro i hi
    cases hm : mask.getLsbD i
    · simp only [BitVec.getLsbD_and, h i hi hm]
    · simp only [BitVec.getLsbD_and, BitVec.getLsbD_not, hm, Bool.not_true, Bool.and_false]

section
variable (es b : Bool) (c v : U16)

@[simp] theorem sempty_afterSendLocal : sempty (afterSendLocal es b c) = false := by
  cases es <;> cases b <;> simp [sempty, afterSendLocal, clearBits, setBits, stripS, SEMPTY, SFULL, ERROR]
@[simp] theorem sfull_afterSendLocal : sfull (afterSendLocal es b c) = b := by
  cases es <;> cases b <;> simp [sfull, afterSendLocal, clearBits, setBits, stripS, SEMPTY, SFULL, ERROR]
@[simp] theorem error_afterSendLocal : error (afterSendLocal es b c) = (error c && !es) := by
  cases es <;> cases b <;> simp [error, afterSendLocal, clearBits, setBits, stripS, SEMPTY, SFULL, ERROR]
@[simp] theorem rempty_afterSendLocal : rempty (afterSendLocal es b c) = rempty c := by
  cases es <;> cases b <;> simp [rempty, afterSendLocal, clearBits, setBits, stripS, SEMPTY, SFULL, ERROR]
@[simp] theorem rfull_afterSendLocal : rfull (afterSendLocal es b c) = rfull c := by
  cases es <;> cases b <;> simp [rfull, afterSendLocal, clearBits, setBits, stripS, SEMPTY, SFULL, ERROR]
@[simp] theorem enable_afterSendLocal : enable (afterSendLocal es b c) = enable c := by
  cases es <;> cases b <;> simp [enable, afterSendLocal, clearBits, setBits, stripS, SEMPTY, SFULL, ERROR]

@[simp] theorem rempty_afterSendRemote : rempty (afterSendRemote es b c) = false := by
  cases es <;> cases b <;> simp [rempty, afterSendRemote, clearBits, setBits, stripR, REMPTY, RFULL, ERROR]
@[simp] theorem rfull_afterSendRemote : rfull (afterSendRemote es b c) = b := by
  cases es <;> cases b <;> simp [rfull, afterSendRemote, clearBits, setBits, stripR, REMPTY, RFULL, ERROR]
@[simp] theorem error_afterSendRemote : error (afterSendRemote es b c) = (error c && !es) := by
  cases es <;> cases b <;> simp [error, afterSendRemote, clearBits, setBits, stripR, REMPTY, RFULL, ERROR]
@[simp] theorem sempty_afterSendRemote : sempty (afterSendRemote es b c) = sempty c := by
  cases es <;> cases b <;> simp [sempty, afterSendRemote, clearBits, setBits, stripR, REMPTY, RFULL, ERROR]
@[simp] theorem sfull_afterSendRemote : sfull (afterSendRemote es b c) = sfull c := by
  cases es <;> cases b <;> simp [sfull, afterSendRemote, clearBits, setBits, stripR, REMPTY, RFULL, ERROR]
@[simp] theorem rirq_afterSendRemote : rirq (afterSendRemote es b c) = rirq c := by
  cases es <;> cases b <;> simp [rirq, afterSendRemote, clearBits, setBits, stripR, REMPTY, RFULL, ERROR]
@[simp] theorem enable_afterSendRemote : enable (afterSendRemote es b c) = enable c := by
  cases es <;> cases b <;> simp [enable, afterSendRemote, clearBits, setBits, stripR, REMPTY, RFULL, ERROR]

/-- The receiver's register after a RECV is treated as after a SEND, with REMPTY in the place of RFULL. -/
@[simp] theorem rempty_afterRecvLocal : rempty (afterRecvLocal es b c) = b := by
  cases es <;> cases b <;> simp [rempty, afterRecvLocal, clearBits, setBits, stripR, REMPTY, RFULL, ERROR]
@[simp] theorem rfull_afterRecvLocal : rfull (afterRecvLocal es b c) = false := by
  cases es <;> cases b <;> simp [rfull, afterRecvLocal, clearBits, setBits, stripR, REMPTY, RFULL, ERROR]
@[simp] theorem error_afterRecvLocal : error (afterRecvLocal es b c) = (error c && !es) := by
  cases es <;> cases b <;> simp [error, afterRecvLocal, clearBits, setBits, stripR, REMPTY, RFULL, ERROR]
@[simp] theorem sempty_afterRecvLocal : sempty (afterRecvLocal es b c) = sempty c := by
  cases es <;> cases b <;> simp [sempty, afterRecvLocal, clearBits, setBits, stripR, REMPTY, RFULL, ERROR]
@[simp] theorem sfull_afterRecvLocal : sfull (afterRecvLocal es b c) = sfull c := by
  cases es <;> cases b <;> simp [sfull, afterRecvLocal, clearBits, setBits, stripR, REMPTY, RFULL, ERROR]
@[simp] theorem enable_afterRecvLocal : enable (afterRecvLocal es b c) = enable c := by
  cases es <;> cases b <;> simp [enable, afterRecvLocal, clearBits, setBits, stripR, REMPTY, RFULL, ERROR]

@[simp] theorem sempty_afterRecvRemote : sempty (afterRecvRemote es b c) = b := by
  cases es <;> cases b <;> simp [sempty, afterRecvRemote, clearBits, setBits, stripS, SEMPTY, SFULL, ERROR]
@[simp] theorem sfull_afterRecvRemote : sfull (afterRecvRemote es b c) = false := by
  cases es <;> cases b <;> simp [sfull, afterRecvRemote, clearBits, setBits, stripS, SEMPTY, SFULL, ERROR]
@[simp] theorem error_afterRecvRemote : error (afterRecvRemote es b c) = (error c && !es) := by
  cases es <;> cases b <;> simp [error, afterRecvRemote, clearBits, setBits, stripS, SEMPTY, SFULL, ERROR]
@[simp] theorem rempty_afterRecvRemote : rempty (afterRecvRemote es b c) = rempty c := by
  cases es <;> cases b <;> simp [rempty, afterRecvRemote, clearBits, setBits, stripS, SEMPTY, SFULL, ERROR]
@[simp] theorem rfull_afterRecvRemote : rfull (afterRecvRemote es b c) = rfull c := by
  cases es <;> cases b <;> simp [rfull, afterRecvRemote, clearBits, setBits, stripS, SEMPTY, SFULL, ERROR]
@[simp] theorem sirq_afterRecvRemote : sirq (afterRecvRemote es b c) = sirq c := by
  cases es <;> cases b <;> simp [sirq, afterRecvRemote, clearBits, setBits, stripS, SEMPTY, SFULL, ERROR]
@[simp] theorem enable_afterRecvRemote : enable (afterRecvRemote es b c) = enable c := by
  cases es <;> cases b <;> simp [enable, afterRecvRemote, clearBits, setBits, stripS, SEMPTY, SFULL, ERROR]

@[simp] theorem error_setError : error (setBits c ERROR) = true := by simp [error, setBits, ERROR]
@[simp] theorem sempty_setError : sempty (setBits c ERROR) = sempty c := by simp [sempty, setBits, ERROR]
@[simp] theorem sfull_setError : sfull (setBits c ERROR) = sfull c := by simp [sfull, setBits, ERROR]
@[simp] theorem rempty_setError : rempty (setBits c ERROR) = rempty c := by simp [rempty, setBits, ERROR]
@[simp] theorem rfull_setError : rfull (setBits c ERROR) = rfull c := by simp [rfull, setBits, ERROR]
@[simp] theorem enable_setError : enable (setBits c ERROR) = enable c := by simp [enable, setBits, ERROR]

@[simp] theorem error_afterConfigureLocal : error (afterConfigureLocal v c) = (error c && !error v) := by
  cases h : error v <;> cases h' : sclear v <;> simp_all [error, sclear, afterConfigureLocal, merge, clearBits, setBits, ERROR, SEMPTY, SFULL, W]
@[simp] theorem sempty_afterConfigureLocal : sempty (afterConfigureLocal v c) = (sempty c || sclear v) := by
  cases h : error v <;> cases h' : sclear v <;> simp_all [sempty, error, sclear, afterConfigureLocal, merge, clearBits, setBits, ERROR, SEMPTY, SFULL, W]
@[simp] theorem sfull_afterConfigureLocal : sfull (afterConfigureLocal v c) = (sfull c && !sclear v) := by
  cases h : error v <;> cases h' : sclear v <;> simp_all [sfull, error, sclear, afterConfigureLocal, merge, clearBits, setBits, ERROR, SEMPTY, SFULL, W]
@[simp] theorem rempty_afterConfigureLocal : rempty (afterConfigureLocal v c) = rempty c := by
  cases h : error v <;> cases h' : sclear v <;> simp_all [rempty, error, sclear, afterConfigureLocal, merge, clearBits, setBits, ERROR, SEMPTY, SFULL, W]
@[simp] theorem rfull_afterConfigureLocal : rfull (afterConfigureLocal v c) = rfull c := by
  cases h : error v <;> cases h' : sclear v <;> simp_all [rfull, error, sclear, afterConfigureLocal, merge, clearBits, setBits, ERROR, SEMPTY, SFULL, W]
@[simp] theorem sirq_afterConfigureLocal : sirq (afterConfigureLocal v c) = sirq v := by
  cases h : error v <;> cases h' : sclear v <;> simp_all [sirq, error, sclear, afterConfigureLocal, merge, clearBits, setBits, ERROR, SEMPTY, SFULL, W]
@[simp] theorem rirq_afterConfigureLocal : rirq (afterConfigureLocal v c) = rirq v := by
  cases h : error v <;> cases h' : sclear v <;> simp_all [rirq, error, sclear, afterConfigureLocal, merge, clearBits, setBits, ERROR, SEMPTY, SFULL, W]
@[simp] theorem enable_afterConfigureLocal : enable (afterConfigureLocal v c) = enable v := by
  cases h : error v <;> cases h' : sclear v <;> simp_all [enable, error, sclear, afterConfigureLocal, merge, clearBits, setBits, ERROR, SEMPTY, SFULL, W]

@[simp] theorem rempty_afterConfigureRemote : rempty (afterConfigureRemote v c) = (rempty c || sclear v) := by
  cases h : sclear v <;> simp [rempty, h, afterConfigureRemote, clearBits, setBits, REMPTY, RFULL]
@[simp] theorem rfull_afterConfigureRemote : rfull (afterConfigureRemote v c) = (rfull c && !sclear v) := by
  cases h : sclear v <;> simp [rfull, h, afterConfigureRemote, clearBits, setBits, REMPTY, RFULL]
@[simp] theorem sempty_afterConfigureRemote : sempty (afterConfigureRemote v c) = sempty c := by
  cases h : sclear v <;> simp [sempty, h, afterConfigureRemote, clearBits, setBits, REMPTY, RFULL]
@[simp] theorem sfull_afterConfigureRemote : sfull (afterConfigureRemote v c) = sfull c := by
  cases h : sclear v <;> simp [sfull, h, afterConfigureRemote, clearBits, setBits, REMPTY, RFULL]
@[simp] theorem error_afterConfigureRemote : error (afterConfigureRemote v c) = error c := by
  cases h : sclear v <;> simp [error, h, afterConfigureRemote, clearBits, setBits, REMPTY, RFULL]

end

/-! ### The bits each computation can change -/

theorem sameBitsExcept_refl (mask c : U16) : SameBitsExcept mask c c := rfl

theorem SameBitsExcept.trans {mask c d e : U16} (h : SameBitsExcept mask c d) (h' : SameBitsExcept mask d e) : SameBitsExcept mask c e :=
  Eq.trans h h'

/-- A mask's bits are the wider mask's too. -/
theorem getLsbD_of_subset {m mask : U16} (h : m &&& ~~~mask = 0#16) {i : Nat} (hi : i < 16) (hm : mask.getLsbD i = false) : m.getLsbD i = false := by
  have := congrArg (fun x => x.getLsbD i) h
  simpa only [BitVec.getLsbD_and, BitVec.getLsbD_not, hi, hm, decide_true, Bool.not_false, Bool.and_self, Bool.and_true, BitVec.getLsbD_zero] using this

theorem same_clearBits {m mask : U16} (h : m &&& ~~~mask = 0#16) (c : U16) : SameBitsExcept mask (clearBits c m) c := by
  rw [sameBitsExcept_iff]
  intro i hi hm
  simp only [clearBits, BitVec.getLsbD_and, BitVec.getLsbD_not, getLsbD_of_subset h hi hm, hi, decide_true, Bool.not_false, Bool.and_self, Bool.and_true]

theorem same_setBits {m mask : U16} (h : m &&& ~~~mask = 0#16) (c : U16) : SameBitsExcept mask (setBits c m) c := by
  rw [sameBitsExcept_iff]
  intro i hi hm
  simp only [setBits, BitVec.getLsbD_or, getLsbD_of_subset h hi hm, Bool.or_false]

theorem same_merge {mask : U16} (h : W &&& ~~~mask = 0#16) (c v : U16) : SameBitsExcept mask (merge c v) c := by
  rw [sameBitsExcept_iff]
  intro i hi hm
  simp only [merge, clearBits, BitVec.getLsbD_or, BitVec.getLsbD_and, BitVec.getLsbD_not, getLsbD_of_subset h hi hm, hi, decide_true, Bool.not_false,
    Bool.and_self, Bool.and_true, Bool.and_false, Bool.or_false]

theorem same_ite {mask c d e : U16} (b : Bool) (h : SameBitsExcept mask c e) (h' : SameBitsExcept mask d e) :
    SameBitsExcept mask (if b then c else d) e := by cases b <;> simpa

theorem same_afterSendLocal (es b : Bool) (c : U16) : SameBitsExcept (SEMPTY ||| SFULL ||| ERROR) (afterSendLocal es b c) c := by
  have h := same_clearBits (m := stripS es) (mask := SEMPTY ||| SFULL ||| ERROR) (by cases es <;> decide) c
  exact same_ite b ((same_setBits (by decide) _).trans h) h

theorem same_afterSendRemote (es b : Bool) (c : U16) : SameBitsExcept (REMPTY ||| RFULL ||| ERROR) (afterSendRemote es b c) c := by
  have h := same_clearBits (m := stripR es) (mask := REMPTY ||| RFULL ||| ERROR) (by cases es <;> decide) c
  exact same_ite b ((same_setBits (by decide) _).trans h) h

theorem same_afterRecvLocal (es b : Bool) (c : U16) : SameBitsExcept (REMPTY ||| RFULL ||| ERROR) (afterRecvLocal es b c) c := by
  have h := same_clearBits (m := stripR es) (mask := REMPTY ||| RFULL ||| ERROR) (by cases es <;> decide) c
  exact same_ite b ((same_setBits (by decide) _).trans h) h

theorem same_afterRecvRemote (es b : Bool) (c : U16) : SameBitsExcept (SEMPTY ||| SFULL ||| ERROR) (afterRecvRemote es b c) c := by
  have h := same_clearBits (m := stripS es) (mask := SEMPTY ||| SFULL ||| ERROR) (by cases es <;> decide) c
  exact same_ite b ((same_setBits (by decide) _).trans h) h

theorem same_afterConfigureLocal (v c : U16) : SameBitsExcept (ERROR ||| SEMPTY ||| SFULL ||| W) (afterConfigureLocal v c) c := by
  refine (same_merge (by decide) _ _).trans ?_
  refine (same_ite (sclear v) ((same_clearBits (by decide) _).trans (same_setBits (by decide) _)) (sameBitsExcept_refl ..)).trans ?_
  exact same_ite (error v) (same_clearBits (by decide) _) (sameBitsExcept_refl ..)

theorem same_afterConfigureRemote (v c : U16) : SameBitsExcept (REMPTY ||| RFULL) (afterConfigureRemote v c) c :=
  same_ite (sclear v) ((same_clearBits (by decide) _).trans (same_setBits (by decide) _)) (sameBitsExcept_refl ..)

/-- Bits that read 0 in a register stay 0 where none of them is in the mask. -/
theorem zeroBits_of_same {mask c d : U16} (h : SameBitsExcept mask c d) (hz : mask &&& zeroBits = 0#16) (hd : d &&& zeroBits = 0#16) :
    c &&& zeroBits = 0#16 := by
  rw [sameBitsExcept_iff] at h
  apply BitVec.eq_of_getLsbD_eq
  intro i hi
  have hd := congrArg (fun x => x.getLsbD i) hd
  have hz := congrArg (fun x => x.getLsbD i) hz
  simp only [BitVec.getLsbD_and, BitVec.getLsbD_zero] at hd hz ⊢
  cases hb : zeroBits.getLsbD i
  · simp
  · rw [hb, Bool.and_true] at hz hd
    rw [h i hi hz, hd]
    rfl

end Sys2Proof.Machine.Cnt
end

