-- ==== Sys2Proof/Laws/Transpose.lean ====
section
/-! SUPPORT. What the interpolation and the filter can do, said once: how a run unfolds, the widths of the frames it makes, what of the lane it keeps, that a
block can be split, and that in the ranges of 10_state.md R39 and R40 every run ends (41_transposer.md R160 to R168). -/

namespace Sys2Proof.Machine

open Sys2Proof

section
variable {σ π : Type} (k : Kernel σ π)

/-! ### One frame, one gap -/

/-- A frame emitted between two frames of one width has that width. -/
theorem emitFrame_length (acc : π) (l r : List σ) (draws : Nat) : (emitFrame k acc l r draws).1.length = min l.length r.length := by
  induction l generalizing r draws with
  | nil => simp [emitFrame]
  | cons a as ih =>
    cases r with
    | nil => simp [emitFrame]
    | cons b bs => 
      simp only [emitFrame]
      cases k.interp acc a b <;> simp [ih] 

/-- A run: it is over when the phase exceeds `ONE`; otherwise a frame, and the run from the advanced phase. -/
theorem emitRun_succ_eq_some {left right : List σ} {fuel : Nat} {acc : π} {draws : Nat} {r : Run σ π} :
    emitRun k left right (fuel + 1) acc draws = some r ↔
      (k.exceeds acc = true ∧ r = ⟨acc, draws, []⟩) ∨
      (k.exceeds acc = false ∧ ∃ e, emitRun k left right fuel (k.advance acc) (emitFrame k acc left right draws).2 = some e ∧
        r = ⟨e.acc, e.draws, (emitFrame k acc left right draws).1 :: e.frames⟩) := by
  rw [emitRun]
  cases k.exceeds acc
  · generalize emitFrame k acc left right draws = y
    obtain ⟨y, d⟩ := y
    cases h : emitRun k left right fuel (k.advance acc) d <;> simp [h, eq_comm]
  · simp [eq_comm]

/-- The run ends when the phase exceeds `ONE`. -/
theorem emitRun_exceeds {left right : List σ} {fuel : Nat} {acc : π} {draws : Nat} {r : Run σ π}
    (h : emitRun k left right fuel acc draws = some r) : k.exceeds r.acc = true := by
  induction fuel generalizing acc draws r with
  | zero => cases h
  | succ n ih =>
    obtain ⟨hx, rfl⟩ | ⟨-, e, he, rfl⟩ := (emitRun_succ_eq_some k).mp h
    · exact hx
    · have := ih he
      exact this

/-- Every frame of a run has the width of the frames it runs between. -/
theorem emitRun_width {left right : List σ} {w : Nat} (hl : left.length = w) (hr : right.length = w) {fuel : Nat} {acc : π} {draws : Nat} {r : Run σ π}
    (h : emitRun k left right fuel acc draws = some r) : framesHaveWidth w r.frames := by
  induction fuel generalizing acc draws r with
  | zero => cases h
  | succ n ih =>
    obtain ⟨-, rfl⟩ | ⟨-, e, he, rfl⟩ := (emitRun_succ_eq_some k).mp h
    · simp [framesHaveWidth]
    · intro f hf
      rcases List.mem_cons.mp hf with rfl | hf
      · rw [emitFrame_length, hl, hr, Nat.min_self]
      · exact ih he f hf

/-- More fuel changes nothing. -/
theorem emitRun_mono {left right : List σ} {fuel : Nat} {acc : π} {draws : Nat} {r : Run σ π}
    (h : emitRun k left right fuel acc draws = some r) : emitRun k left right (fuel + 1) acc draws = some r := by
  induction fuel generalizing acc draws r with
  | zero => cases h
  | succ n ih =>
    rw [emitRun_succ_eq_some] at h ⊢
    exact h.imp_right (fun ⟨hx, e, he, hr⟩ => ⟨hx, e, ih he, hr⟩)

/-- A property of the phase that every advance keeps until the phase exceeds `ONE` holds at the end of a run. -/
theorem emitRun_keeps {P : π → Prop} (hP : ∀ a, P a → k.exceeds a = false → P (k.advance a)) {left right : List σ} {fuel : Nat} {acc : π} {draws : Nat}
    {r : Run σ π} (ha : P acc) (h : emitRun k left right fuel acc draws = some r) : P r.acc := by
  induction fuel generalizing acc draws r with
  | zero => cases h
  | succ n ih =>
    obtain ⟨-, rfl⟩ | ⟨hx, e, he, rfl⟩ := (emitRun_succ_eq_some k).mp h
    · exact ha
    · have := ih (hP _ ha hx) he
      exact this

/-- A run ends when a measure falls with every advance that does not end it. -/
theorem emitRun_some {P : π → Prop} {measure : π → Nat}
    (hP : ∀ a, P a → k.exceeds a = false → P (k.advance a) ∧ (k.exceeds (k.advance a) = true ∨ measure (k.advance a) < measure a))
    (left right : List σ) (fuel : Nat) (acc : π) (draws : Nat) (ha : P acc) (hf : measure acc + 2 ≤ fuel) :
    ∃ r, emitRun k left right fuel acc draws = some r := by
  induction fuel generalizing acc draws with
  | zero => omega
  | succ n ih =>
    cases hx : k.exceeds acc
    · obtain ⟨hp, hm⟩ := hP acc ha hx
      suffices h : ∃ e, emitRun k left right n (k.advance acc) (emitFrame k acc left right draws).2 = some e by
        obtain ⟨e, he⟩ := h
        exact ⟨_, (emitRun_succ_eq_some k).mpr (.inr ⟨hx, e, he, rfl⟩)⟩
      rcases hm with hm | hm
      · obtain ⟨m, rfl⟩ : ∃ m, n = m + 1 := ⟨n - 1, by omega⟩
        exact ⟨_, (emitRun_succ_eq_some k).mpr (.inl ⟨hm, rfl⟩)⟩
      · exact ih _ _ hp (by omega)
    · exact ⟨_, (emitRun_succ_eq_some k).mpr (.inl ⟨hx, rfl⟩)⟩

/-! ### A whole block -/

theorem transposeFrom_nil (left : List σ) (acc : π) (draws : Nat) : transposeFrom k left [] acc draws = some ⟨acc, draws, []⟩ := rfl

/-- A transposition of a first frame and the rest: the run up to the first frame, the wrap, and the transposition of the rest. -/
theorem transposeFrom_cons_eq_some {left right : List σ} {x : List (List σ)} {acc : π} {draws : Nat} {r : Run σ π} :
    transposeFrom k left (right :: x) acc draws = some r ↔
      ∃ e t, emitRun k left right emitFuel acc draws = some e ∧ transposeFrom k right x (k.wrap e.acc) e.draws = some t ∧
        r = ⟨t.acc, t.draws, e.frames ++ t.frames⟩ := by
  rw [transposeFrom]
  constructor
  · intro h
    split at h
    · cases h
    · rename_i e he
      split at h
      · cases h
      · rename_i t ht
        injection h with h
        exact ⟨e, t, he, ht, h.symm⟩
  · rintro ⟨e, t, he, ht, rfl⟩
    simp [he, ht]

/-- Transposing a block in two parts: the second part starts from the first part's last frame, phase and draws. -/
theorem transposeFrom_append {left : List σ} {x y : List (List σ)} {acc : π} {draws : Nat} {r t : Run σ π}
    (hx : transposeFrom k left x acc draws = some r) (hy : transposeFrom k (x.getLast?.getD left) y r.acc r.draws = some t) :
    transposeFrom k left (x ++ y) acc draws = some ⟨t.acc, t.draws, r.frames ++ t.frames⟩ := by
  induction x generalizing left acc draws r with
  | nil =>
    injection hx with hx
    subst hx
    simpa using hy
  | cons f x ih =>
    obtain ⟨e, u, he, hu, rfl⟩ := (transposeFrom_cons_eq_some k).mp hx
    have := ih hu (by rw [List.getLast?_cons] at hy; exact hy)
    exact (transposeFrom_cons_eq_some k).mpr ⟨e, _, he, this, by simp⟩

/-- Every frame of a transposition has the width of its source frames. -/
theorem transposeFrom_width {w : Nat} {left : List σ} {x : List (List σ)} (hl : left.length = w) (hx : framesHaveWidth w x) {acc : π} {draws : Nat}
    {r : Run σ π} (h : transposeFrom k left x acc draws = some r) : framesHaveWidth w r.frames := by
  induction x generalizing left acc draws r with
  | nil => injection h with h; subst h; simp [framesHaveWidth]
  | cons f x ih =>
    obtain ⟨e, u, he, hu, rfl⟩ := (transposeFrom_cons_eq_some k).mp h
    have hf : f.length = w := hx f (by simp)
    intro g hg
    rcases List.mem_append.mp hg with hg | hg
    · exact emitRun_width k hl hf he g hg
    · exact ih hf (fun g hg => hx g (by simp [hg])) hu g hg

/-- A property of the phase that advances and wraps keep holds after a transposition. -/
theorem transposeFrom_keeps {P : π → Prop} (hP : ∀ a, P a → k.exceeds a = false → P (k.advance a)) (hW : ∀ a, P a → k.exceeds a = true → P (k.wrap a))
    {left : List σ} {x : List (List σ)} {acc : π} {draws : Nat} {r : Run σ π} (ha : P acc) (h : transposeFrom k left x acc draws = some r) : P r.acc := by
  induction x generalizing left acc draws r with
  | nil => injection h with h; subst h; exact ha
  | cons f x ih =>
    obtain ⟨e, u, he, hu, rfl⟩ := (transposeFrom_cons_eq_some k).mp h
    have := ih (hW _ (emitRun_keeps k hP ha he) (emitRun_exceeds k he)) hu
    exact this

/-- A transposition ends when every run does. -/
theorem transposeFrom_some {P : π → Prop} {measure : π → Nat}
    (hP : ∀ a, P a → k.exceeds a = false → P (k.advance a) ∧ (k.exceeds (k.advance a) = true ∨ measure (k.advance a) < measure a))
    (hW : ∀ a, P a → k.exceeds a = true → P (k.wrap a)) (hf : ∀ a, P a → measure a + 2 ≤ emitFuel)
    (left : List σ) (x : List (List σ)) (acc : π) (draws : Nat) (ha : P acc) : ∃ r, transposeFrom k left x acc draws = some r := by
  induction x generalizing left acc draws with
  | nil => exact ⟨_, rfl⟩
  | cons f x ih =>
    obtain ⟨e, he⟩ := emitRun_some k hP left f emitFuel acc draws ha (hf acc ha)
    have hpe := hW _ (emitRun_keeps k (fun a h hx => (hP a h hx).1) ha he) (emitRun_exceeds k he)
    obtain ⟨t, ht⟩ := ih f (k.wrap e.acc) e.draws hpe
    exact ⟨_, (transposeFrom_cons_eq_some k).mpr ⟨e, t, he, ht, rfl⟩⟩

/-! ### Lanes -/

/-- `Transpose` on a lane, as the run it makes. -/
theorem Lane.transpose_eq_some {ch : Channels} {x : List (List σ)} {lane : Lane σ π} {draws : Nat} {r : LaneRun σ π} :
    lane.transpose k ch x draws = some r ↔
      ∃ t, transposeFrom k (lane.prevFrame ch) x lane.acc draws = some t ∧
        r = ⟨x.getLast?.elim { lane with acc := t.acc } { lane with acc := t.acc }.setPrev, t.draws, t.frames⟩ := by
  unfold Lane.transpose
  cases h : transposeFrom k (lane.prevFrame ch) x lane.acc draws <;> cases h' : x.getLast? <;> simp [eq_comm]

/-- What a transposition leaves of a lane: the buffers. -/
theorem Lane.transpose_frame {ch : Channels} {x : List (List σ)} {lane : Lane σ π} {draws : Nat} {r : LaneRun σ π}
    (h : lane.transpose k ch x draws = some r) : r.lane.store = lane.store ∧ r.lane.temp = lane.temp ∧ r.lane.output = lane.output := by
  obtain ⟨t, -, rfl⟩ := (Lane.transpose_eq_some k).mp h
  cases x.getLast? <;> exact ⟨rfl, rfl, rfl⟩

theorem Lane.prevFrame_length (lane : Lane σ π) (ch : Channels) : (lane.prevFrame ch).length = ch.count := by cases ch <;> rfl

/-- After `prev` is set from a frame of the channels' width, the previous-sample frame is that frame. -/
theorem Lane.prevFrame_setPrev (lane : Lane σ π) (ch : Channels) (f : List σ) (hf : f.length = ch.count) : (lane.setPrev f).prevFrame ch = f := by
  cases ch
  · obtain ⟨a, rfl⟩ := List.length_eq_one_iff.mp hf; rfl
  · obtain ⟨a, b, rfl⟩ := List.length_eq_two.mp hf; rfl

/-- The phase of a lane is the phase its run ends at. -/
theorem Lane.transpose_keeps {P : π → Prop} (hP : ∀ a, P a → k.exceeds a = false → P (k.advance a)) (hW : ∀ a, P a → k.exceeds a = true → P (k.wrap a))
    {ch : Channels} {x : List (List σ)} {lane : Lane σ π} {draws : Nat} {r : LaneRun σ π} (ha : P lane.acc)
    (h : lane.transpose k ch x draws = some r) : P r.lane.acc := by
  obtain ⟨t, ht, rfl⟩ := (Lane.transpose_eq_some k).mp h
  have := transposeFrom_keeps k hP hW ha ht
  cases x.getLast? <;> exact this

theorem Lane.transpose_width {ch : Channels} {x : List (List σ)} {lane : Lane σ π} {draws : Nat} {r : LaneRun σ π}
    (hx : framesHaveWidth ch.count x) (h : lane.transpose k ch x draws = some r) : framesHaveWidth ch.count r.frames := by
  obtain ⟨t, ht, rfl⟩ := (Lane.transpose_eq_some k).mp h
  exact transposeFrom_width k (lane.prevFrame_length ch) hx ht

/-! ### The filter -/

theorem filterEval_length (ch : Channels) (L : Nat) (buf : List (List σ)) (count : Nat) : (filterEval k ch L buf count).length = count := by
  simp [filterEval]

theorem filterEval_width (ch : Channels) (L : Nat) (buf : List (List σ)) (count : Nat) : framesHaveWidth ch.count (filterEval k ch L buf count) := by
  intro f hf
  obtain ⟨i, -, rfl⟩ := List.mem_map.mp hf
  simp

/-- The first outputs of a filter over a longer buffer are those over the shorter one, as long as their windows lie in it. -/
theorem filterEval_append (ch : Channels) (L : Nat) (buf more : List (List σ)) (count : Nat) (h : count + L ≤ buf.length + 1) :
    filterEval k ch L (buf ++ more) count = filterEval k ch L buf count := by
  apply List.map_congr_left
  intro i hi
  apply List.map_congr_left
  intro c _
  have hi : i < count := by simpa using hi
  rw [window, window, List.drop_append_of_le_length (by omega), List.take_append_of_le_length (by simp; omega)]

/-- Outputs from a later frame on are the outputs over the buffer with the earlier frames taken away. -/
theorem filterEval_add (ch : Channels) (L : Nat) (buf : List (List σ)) (m n : Nat) :
    filterEval k ch L buf (m + n) = filterEval k ch L buf m ++ filterEval k ch L (buf.drop m) n := by
  simp only [filterEval, List.range_add, List.map_append, List.map_map]
  congr 1
  apply List.map_congr_left
  intro i _
  apply List.map_congr_left
  intro c _
  simp [window]

end
section
variable {σ π : Type} (k : Kernel σ π)

/-! ### A put on a lane -/

/-- A put, path by path: what it leaves of the lane and of the draws, from the transposition it makes. -/
theorem Lane.put_eq_some {ch : Channels} {L : Nat} {aa up : Bool} {x : List (List σ)} {lane lane' : Lane σ π} {draws d : Nat} :
    lane.put k ch L aa up x draws = some (lane', d) ↔
      (x = [] ∧ lane' = lane ∧ d = draws) ∨
      (x ≠ [] ∧ aa = false ∧ ∃ r, lane.transpose k ch x draws = some r ∧ lane' = { r.lane with output := r.lane.output ++ r.frames } ∧ d = r.draws) ∨
      (x ≠ [] ∧ aa = true ∧ up = true ∧ ∃ r, lane.transpose k ch x draws = some r ∧ d = r.draws ∧
        lane' = { r.lane with
          output := r.lane.output ++ filterEval k ch L (r.lane.store ++ r.frames) (aaCount L (r.lane.store ++ r.frames).length)
          store := (r.lane.store ++ r.frames).drop (aaCount L (r.lane.store ++ r.frames).length) }) ∨
      (x ≠ [] ∧ aa = true ∧ up = false ∧ ∃ r,
        Lane.transpose k ch (filterEval k ch L (lane.store ++ x) (aaCount L (lane.store ++ x).length))
          { lane with
            temp := filterEval k ch L (lane.store ++ x) (aaCount L (lane.store ++ x).length)
            store := (lane.store ++ x).drop (aaCount L (lane.store ++ x).length) } draws = some r ∧ d = r.draws ∧
        lane' = { r.lane with output := r.lane.output ++ r.frames, temp := [] }) := by
  unfold Lane.put
  by_cases hx : x = []
  · simp [hx, eq_comm]
  · rw [if_neg hx]
    cases aa
    · simp only [if_true, Lane.putDirect]
      cases lane.transpose k ch x draws <;> simp [hx, eq_comm]
    · cases up
      · simp only [Lane.putDownsample]
        cases Lane.transpose k ch (filterEval k ch L (lane.store ++ x) (aaCount L (lane.store ++ x).length))
          { lane with
            temp := filterEval k ch L (lane.store ++ x) (aaCount L (lane.store ++ x).length)
            store := (lane.store ++ x).drop (aaCount L (lane.store ++ x).length) } draws <;> simp [hx, eq_comm, and_comm]
      · simp only [Lane.putUpsample]
        cases lane.transpose k ch x draws <;> simp [hx, eq_comm, and_comm]

/-- A put completes when every transposition does. -/
theorem Lane.put_some {P : π → Prop} (hT : ∀ left x acc draws, P acc → ∃ r, transposeFrom k left x acc draws = some r) (ch : Channels) (L : Nat) (aa up : Bool)
    (x : List (List σ)) (lane : Lane σ π) (draws : Nat) (ha : P lane.acc) : ∃ lane' d, lane.put k ch L aa up x draws = some (lane', d) := by
  have hL : ∀ (l : Lane σ π) (y : List (List σ)), P l.acc → ∃ r, l.transpose k ch y draws = some r := by
    intro l y hl
    obtain ⟨t, ht⟩ := hT (l.prevFrame ch) y l.acc draws hl
    exact ⟨_, (Lane.transpose_eq_some k).mpr ⟨t, ht, rfl⟩⟩
  by_cases hx : x = []
  · exact ⟨_, _, (Lane.put_eq_some k).mpr (.inl ⟨hx, rfl, rfl⟩)⟩
  · cases aa
    · obtain ⟨r, hr⟩ := hL lane x ha
      exact ⟨_, _, (Lane.put_eq_some k).mpr (.inr (.inl ⟨hx, rfl, r, hr, rfl, rfl⟩))⟩
    · cases up
      · obtain ⟨r, hr⟩ := hL
          { lane with
            temp := filterEval k ch L (lane.store ++ x) (aaCount L (lane.store ++ x).length)
            store := (lane.store ++ x).drop (aaCount L (lane.store ++ x).length) }
          (filterEval k ch L (lane.store ++ x) (aaCount L (lane.store ++ x).length)) ha
        exact ⟨_, _, (Lane.put_eq_some k).mpr (.inr (.inr (.inr ⟨hx, rfl, rfl, r, hr, rfl, rfl⟩)))⟩
      · obtain ⟨r, hr⟩ := hL lane x ha
        exact ⟨_, _, (Lane.put_eq_some k).mpr (.inr (.inr (.inl ⟨hx, rfl, rfl, r, hr, rfl, rfl⟩)))⟩

/-- A put keeps every property of the phase that advances and wraps keep. -/
theorem Lane.put_keeps {P : π → Prop} (hP : ∀ a, P a → k.exceeds a = false → P (k.advance a)) (hW : ∀ a, P a → k.exceeds a = true → P (k.wrap a))
    {ch : Channels} {L : Nat} {aa up : Bool} {x : List (List σ)} {lane lane' : Lane σ π} {draws d : Nat} (ha : P lane.acc)
    (h : lane.put k ch L aa up x draws = some (lane', d)) : P lane'.acc := by
  obtain ⟨-, rfl, -⟩ | ⟨-, -, r, hr, rfl, -⟩ | ⟨-, -, -, r, hr, -, rfl⟩ | ⟨-, -, -, r, hr, -, rfl⟩ := (Lane.put_eq_some k).mp h
  · exact ha
  · exact Lane.transpose_keeps k hP hW ha hr
  · exact Lane.transpose_keeps k hP hW ha hr
  · refine Lane.transpose_keeps k hP hW (lane := { lane with
            temp := filterEval k ch L (lane.store ++ x) (aaCount L (lane.store ++ x).length)
            store := (lane.store ++ x).drop (aaCount L (lane.store ++ x).length) }) ha hr

theorem framesHaveWidth_append {w : Nat} {x y : List (List σ)} (hx : framesHaveWidth w x) (hy : framesHaveWidth w y) : framesHaveWidth w (x ++ y) := by
  intro f hf
  rcases List.mem_append.mp hf with h | h
  · exact hx f h
  · exact hy f h

theorem framesHaveWidth_drop {w : Nat} {x : List (List σ)} (hx : framesHaveWidth w x) (n : Nat) : framesHaveWidth w (x.drop n) :=
  fun f hf => hx f (List.mem_of_mem_drop hf)

/-- A put keeps the buffers' invariant. -/
theorem Lane.put_inv {ch : Channels} {L : Nat} {aa up : Bool} {x : List (List σ)} {lane lane' : Lane σ π} {draws d : Nat} (hi : lane.Inv L ch)
    (hw : framesHaveWidth ch.count x) (h : lane.put k ch L aa up x draws = some (lane', d)) : lane'.Inv L ch := by
  obtain ⟨-, rfl, -⟩ | ⟨-, -, r, hr, rfl, -⟩ | ⟨-, -, -, r, hr, -, rfl⟩ | ⟨-, -, -, r, hr, -, rfl⟩ := (Lane.put_eq_some k).mp h
  · exact hi
  · obtain ⟨h1, h2, h3⟩ := Lane.transpose_frame k hr
    exact ⟨by rw [h1]; exact hi.store, by rw [h3]; exact framesHaveWidth_append hi.output (Lane.transpose_width k hw hr), by rw [h2]; exact hi.temp,
      by rw [h1]; exact hi.held⟩
  · obtain ⟨h1, h2, h3⟩ := Lane.transpose_frame k hr
    refine ⟨framesHaveWidth_drop ?_ _, ?_, by rw [h2]; exact hi.temp, ?_⟩
    · rw [h1]; exact framesHaveWidth_append hi.store (Lane.transpose_width k hw hr)
    · rw [h3]; exact framesHaveWidth_append hi.output (filterEval_width k _ _ _ _)
    · simp only [List.length_drop, aaCount]; omega
  · obtain ⟨h1, h2, h3⟩ := Lane.transpose_frame k hr
    refine ⟨?_, ?_, rfl, ?_⟩
    · rw [h1]; exact framesHaveWidth_drop (framesHaveWidth_append hi.store hw) _
    · rw [h3]; exact framesHaveWidth_append hi.output (Lane.transpose_width k (filterEval_width k _ _ _ _) hr)
    · rw [h1]; simp only [List.length_drop, aaCount]; omega

/-! ### Splitting -/

/-- Filtering a longer stream: the frames filtered first, then those of what was held back and the rest. -/
theorem filterEval_split (ch : Channels) (L : Nat) (a b : List (List σ)) :
    filterEval k ch L (a ++ b) (aaCount L (a ++ b).length) =
      filterEval k ch L a (aaCount L a.length) ++ filterEval k ch L (a.drop (aaCount L a.length) ++ b) (aaCount L (a.drop (aaCount L a.length) ++ b).length) ∧
    (a ++ b).drop (aaCount L (a ++ b).length) = (a.drop (aaCount L a.length) ++ b).drop (aaCount L (a.drop (aaCount L a.length) ++ b).length) := by
  have hd : a.drop (aaCount L a.length) ++ b = (a ++ b).drop (aaCount L a.length) := by
    rw [List.drop_append_of_le_length (by simp [aaCount])]
  have hc : aaCount L (a ++ b).length = aaCount L a.length + aaCount L (a.drop (aaCount L a.length) ++ b).length := by
    simp only [aaCount, List.length_append, List.length_drop]; omega
  rw [hd] at hc ⊢
  rw [hc]
  constructor
  · rw [filterEval_add]
    congr 1
    by_cases h : L ≤ a.length
    · exact filterEval_append k ch L a b _ (by simp only [aaCount]; omega)
    · have : aaCount L a.length = 0 := by simp only [aaCount]; omega
      rw [this]; rfl
  · rw [List.drop_drop]

/-- Two transpositions, the second from the registers the first left, are one transposition of the whole. -/
theorem Lane.transpose_append {ch : Channels} {x y : List (List σ)} {lane : Lane σ π} {draws : Nat} {r t : LaneRun σ π} (hw : framesHaveWidth ch.count x)
    (hw' : framesHaveWidth ch.count y)
    (hx : lane.transpose k ch x draws = some r) {m : Lane σ π} (hm : m.acc = r.lane.acc) (hm0 : m.prev0 = r.lane.prev0) (hm1 : m.prev1 = r.lane.prev1)
    (hy : m.transpose k ch y r.draws = some t) :
    ∃ u, lane.transpose k ch (x ++ y) draws = some u ∧ u.draws = t.draws ∧ u.frames = r.frames ++ t.frames ∧ u.lane.acc = t.lane.acc ∧
      u.lane.prev0 = t.lane.prev0 ∧ u.lane.prev1 = t.lane.prev1 := by
  obtain ⟨e, he, rfl⟩ := (Lane.transpose_eq_some k).mp hx
  obtain ⟨g, hg, rfl⟩ := (Lane.transpose_eq_some k).mp hy
  have hp : m.prevFrame ch = x.getLast?.getD (lane.prevFrame ch) := by
    cases hl : x.getLast? with
    | none =>
      simp only [hl, Option.elim_none] at hm0 hm1
      simp [Lane.prevFrame, hm0, hm1]
    | some f =>
      simp only [hl, Option.elim_some] at hm0 hm1
      have := Lane.prevFrame_setPrev { lane with acc := e.acc } ch f (hw f (List.mem_of_getLast? hl))
      rw [Option.getD_some, ← this]
      simp [Lane.prevFrame, hm0, hm1]
  have ha : m.acc = e.acc := by rw [hm]; cases x.getLast? <;> rfl
  rw [hp, ha] at hg
  have := transposeFrom_append k he hg
  refine ⟨_, (Lane.transpose_eq_some k).mpr ⟨_, this, rfl⟩, rfl, rfl, ?_⟩
  cases hy : y.getLast? with
  | none =>
    have : y = [] := List.getLast?_eq_none_iff.mp hy
    subst this
    injection hg with hg
    subst hg
    simp only [List.append_nil]
    exact ⟨hm.symm.trans ha |>.trans rfl, hm0.symm, hm1.symm⟩
  | some f =>
    have hl : (x ++ y).getLast? = some f := by rw [List.getLast?_append, hy]; rfl
    simp only [hl, Option.elim_some]
    refine ⟨rfl, ?_, ?_⟩ 
    · have hf := hw' f (List.mem_of_getLast? hy)
      cases ch
      · obtain ⟨a, rfl⟩ := List.length_eq_one_iff.mp hf; rfl
      · obtain ⟨a, b, rfl⟩ := List.length_eq_two.mp hf; rfl
    · have hf := hw' f (List.mem_of_getLast? hy)
      cases ch
      · obtain ⟨a, rfl⟩ := List.length_eq_one_iff.mp hf
        show lane.prev1 = m.prev1
        rw [hm1]
        cases hl : x.getLast? with
        | none => rfl
        | some g =>
          have hg := hw g (List.mem_of_getLast? hl)
          obtain ⟨b, rfl⟩ := List.length_eq_one_iff.mp hg
          rfl
      · obtain ⟨a, b, rfl⟩ := List.length_eq_two.mp hf; rfl

/-- Two puts on a lane are one put of both blocks. -/
theorem Lane.put_append {ch : Channels} {L : Nat} {aa up : Bool} {x y : List (List σ)} {l l1 l2 : Lane σ π} {n d1 d2 : Nat}
    (hx : framesHaveWidth ch.count x) (hy : framesHaveWidth ch.count y)
    (h1 : l.put k ch L aa up x n = some (l1, d1)) (h2 : l1.put k ch L aa up y d1 = some (l2, d2)) :
    l.put k ch L aa up (x ++ y) n = some (l2, d2) := by
  by_cases ex : x = []
  · subst ex; injection h1 with h1; injection h1 with e1 e2; subst e1 e2; simpa using h2
  by_cases ey : y = []
  · subst ey; injection h2 with h2; injection h2 with e1 e2; subst e1 e2; simpa using h1
  have exy : x ++ y ≠ [] := by simp [ex]
  rw [Lane.put_eq_some] at h1 h2 ⊢
  obtain ⟨h, -⟩ | ⟨-, ha, r, hr, rfl, rfl⟩ | ⟨-, ha, hu, r, hr, rfl, rfl⟩ | ⟨-, ha, hu, r, hr, rfl, rfl⟩ := h1
  · exact absurd h ex
  · obtain ⟨h, -⟩ | ⟨-, hb, t, ht, rfl, rfl⟩ | ⟨-, hb, hv, t, ht, rfl, rfl⟩ | ⟨-, hb, hv, t, ht, rfl, rfl⟩ := h2
    · exact absurd h ey
    · obtain ⟨u, hu, e1, e2, e3, e4, e5⟩ := Lane.transpose_append k hx hy hr (by rfl) (by rfl) (by rfl) ht
      refine .inr (.inl ⟨exy, ha, u, hu, ?_, e1.symm⟩)
      obtain ⟨f1, f2, f3⟩ := Lane.transpose_frame k hu
      obtain ⟨g1, g2, g3⟩ := Lane.transpose_frame k ht
      obtain ⟨i1, i2, i3⟩ := Lane.transpose_frame k hr
      simp_all
    all_goals simp_all
  · obtain ⟨h, -⟩ | ⟨-, hb, t, ht, rfl, rfl⟩ | ⟨-, hb, hv, t, ht, rfl, rfl⟩ | ⟨-, hb, hv, t, ht, rfl, rfl⟩ := h2
    · exact absurd h ey
    · simp_all
    · obtain ⟨u, huu, e1, e2, e3, e4, e5⟩ := Lane.transpose_append k hx hy hr (by rfl) (by rfl) (by rfl) ht
      refine .inr (.inr (.inl ⟨exy, ha, hu, u, huu, e1.symm, ?_⟩))
      obtain ⟨f1, f2, f3⟩ := Lane.transpose_frame k huu
      obtain ⟨g1, g2, g3⟩ := Lane.transpose_frame k ht
      obtain ⟨i1, i2, i3⟩ := Lane.transpose_frame k hr
      have := filterEval_split k ch L (l.store ++ r.frames) t.frames
      dsimp only at g1 g2 g3 ⊢
      rw [f1, f2, f3, e2, e3, e4, e5, g1, g2, g3]
      simp only [i1, i2, i3]
      rw [← List.append_assoc l.store, this.1, this.2]
      simp
    · simp_all
  · obtain ⟨h, -⟩ | ⟨-, hb, t, ht, rfl, rfl⟩ | ⟨-, hb, hv, t, ht, rfl, rfl⟩ | ⟨-, hb, hv, t, ht, rfl, rfl⟩ := h2
    · exact absurd h ey
    · simp_all
    · simp_all
    · obtain ⟨i1, i2, i3⟩ := Lane.transpose_frame k hr
      have hsp := filterEval_split k ch L (l.store ++ x) y
      simp only [i1] at ht
      have hw1 : framesHaveWidth ch.count (filterEval k ch L (l.store ++ x) (aaCount L (l.store ++ x).length)) := filterEval_width k _ _ _ _
      obtain ⟨u, huu, e1, e2, e3, e4, e5⟩ := Lane.transpose_append k hw1 (filterEval_width k _ _ _ _) hr (by rfl) (by rfl) (by rfl) ht
      rw [← hsp.1] at huu
      refine .inr (.inr (.inr ⟨exy, ha, hu, ?_⟩))
      have hu2 : ∃ u', Lane.transpose k ch (filterEval k ch L (l.store ++ (x ++ y)) (aaCount L (l.store ++ (x ++ y)).length))
          { l with
            temp := filterEval k ch L (l.store ++ (x ++ y)) (aaCount L (l.store ++ (x ++ y)).length)
            store := (l.store ++ (x ++ y)).drop (aaCount L (l.store ++ (x ++ y)).length) } n = some u' ∧ u'.draws = u.draws ∧ u'.frames = u.frames ∧ u'.lane.acc = u.lane.acc ∧ u'.lane.prev0 = u.lane.prev0 ∧ u'.lane.prev1 = u.lane.prev1 := by
        rw [← List.append_assoc]
        obtain ⟨g, hg, rfl⟩ := (Lane.transpose_eq_some k).mp huu
        refine ⟨_, (Lane.transpose_eq_some k).mpr ⟨g, hg, rfl⟩, rfl, rfl, ?_⟩
        cases List.getLast? _ <;> exact ⟨rfl, rfl, rfl⟩
      obtain ⟨u', hu', q1, q2, q3, q4, q5⟩ := hu2
      refine ⟨u', hu', by rw [q1, e1], ?_⟩
      obtain ⟨f1, f2, f3⟩ := Lane.transpose_frame k hu'
      obtain ⟨g1, g2, g3⟩ := Lane.transpose_frame k ht
      dsimp only at g1 g2 g3 f1 f2 f3 i1 i2 i3 ⊢
      rw [f1, f3, g1, g3, q2, q3, q4, q5, e2, e3, e4, e5, i3, ← List.append_assoc l.store, hsp.2]
      simp

end

/-! ### The two kernels: runs end -/

/-- FIXED (R163): a slope in its range stays there, and each emission brings it nearer to 65536 by at least 1. -/
theorem fixed_advance {step : Nat} (hs : 1 ≤ step) (hs' : step ≤ 2 ^ 24) (cutoff : F32) (a : Nat) (ha : a ≤ 65536 + 2 ^ 24)
    (hx : (fixedKernel step cutoff).exceeds a = false) :
    (fixedKernel step cutoff).advance a ≤ 65536 + 2 ^ 24 ∧
      ((fixedKernel step cutoff).exceeds ((fixedKernel step cutoff).advance a) = true ∨ 65536 - (fixedKernel step cutoff).advance a < 65536 - a) := by
  have hx : ¬ 65536 < a := of_decide_eq_false hx
  show a + step ≤ _ ∧ (decide (65536 < a + step) = true ∨ 65536 - (a + step) < 65536 - a)
  refine ⟨by omega, ?_⟩
  by_cases h : 65536 < a + step
  · exact .inl (decide_eq_true h)
  · right; omega

theorem fixed_wrap {step : Nat} (cutoff : F32) (a : Nat) (ha : a ≤ 65536 + 2 ^ 24) : (fixedKernel step cutoff).wrap a ≤ 65536 + 2 ^ 24 := by
  show a - 65536 ≤ _
  omega

theorem exceedsFloat_phase {b : F32} (h : b.toNat ≤ 0x43808000) : exceedsFloat b = decide (2 ^ 149 < phaseMag b) := by
  rw [exceedsFloat, ofBits_phase h, FVal.lt, FVal.one]
  simp only [FVal.units, ne_eq, reduceCtorEq, not_false_eq_true, decide_true, Bool.and_self, Bool.true_and]
  congr 1
  apply propext
  exact_mod_cast Iff.rfl

/-- FLOAT (R164): a phase in its range stays there, and each emission at an admitted rate brings it nearer to 1 by at least 2^-17. -/
theorem float_advance {rate : F32} (hr : rateAdmitted rate = true) (b : F32) (hb : b.toNat ≤ 0x43808000) (hx : exceedsFloat b = false) :
    (advanceFloat rate b).toNat ≤ 0x43808000 ∧
      (exceedsFloat (advanceFloat rate b) = true ∨ (2 ^ 149 - phaseMag (advanceFloat rate b)) / 2 ^ 132 < (2 ^ 149 - phaseMag b) / 2 ^ 132) := by
  obtain ⟨r, hr, hmin, hmax⟩ := (rateAdmitted_iff rate).mp hr
  rw [exceedsFloat_phase hb] at hx
  have hx : phaseMag b ≤ 2 ^ 149 := Nat.le_of_not_lt (of_decide_eq_false hx)
  generalize hm : phaseMag b = m at hx
  have hof := ofBits_phase hb
  rw [hm] at hof
  have hpos : 0 < m + r := lt_of_lt_of_le (Nat.two_pow_pos 133) (by omega)
  have hBrep : FVal.Representable (257 * 2 ^ 15 * 2 ^ 134) := by
    obtain ⟨b, hb⟩ : ∃ b : F32, FVal.ofBits b = .fin false (257 * 2 ^ 15 * 2 ^ 134) :=
      ⟨0x43808000#32, by rw [← patMag_phaseMax]; exact (FVal.ofBits_eq_fin_false_iff _ _).mpr ⟨by decide, rfl⟩⟩
    exact FVal.representable_of_ofBits hb
  have hup : FVal.roundMag (m + r) 1 ≤ 257 * 2 ^ 15 * 2 ^ 134 := by
    refine FVal.roundMag_le_of_le (by decide) hBrep ?_
    rw [Nat.mul_one]
    calc m + r ≤ 2 ^ 149 + 2 ^ 157 := by omega
      _ = 257 * 2 ^ 15 * 2 ^ 134 := by norm_num
  have hov : FVal.roundMag (m + r) 1 < FVal.overflowMag := by
    refine lt_of_le_of_lt hup ?_
    rw [FVal.overflowMag]
    norm_num
  have hround : FVal.round false (m + r) 1 = .fin false (FVal.roundMag (m + r) 1) := by
    simp only [FVal.round]
    rw [if_neg (by omega)]
  have hadv : FVal.ofBits (advanceFloat rate b) = .fin false (FVal.roundMag (m + r) 1) := by
    rw [advanceFloat, hof, hr, add_fin_pos hpos (by simp only [FVal.units]; omega), hround]
    exact FVal.ofBits_toBits_fin _ _ (FVal.roundMag_representable _ _ hov)
  have hrange : (advanceFloat rate b).toNat ≤ 0x43808000 := (phase_range_iff _).mpr ⟨_, hadv, hup⟩
  refine ⟨hrange, ?_⟩
  have hmag : phaseMag (advanceFloat rate b) = FVal.roundMag (m + r) 1 := by
    have := ofBits_phase hrange
    rw [hadv] at this
    injection this with _ h
    exact h.symm
  rw [exceedsFloat_phase hrange, hmag]
  have hlow : m + 2 ^ 132 ≤ FVal.roundMag (m + r) 1 ∨ 2 ^ 149 < FVal.roundMag (m + r) 1 := by
    rcases Nat.lt_or_ge (m + r) (2 ^ 149 + 2 ^ 126) with hlt | hge
    · left
      have herr := (FVal.roundMag_error (m + r) 1 (by decide)).2
      rw [Nat.div_one, Nat.mul_one, Nat.one_mul] at herr
      have hsc : FVal.scaleOf (m + r) ≤ 126 := by
        have : (m + r).log2 < 150 := (Nat.log2_lt (by omega)).mpr (lt_of_lt_of_le hlt (by norm_num))
        simp only [FVal.scaleOf]
        omega
      have := Nat.pow_le_pow_right (n := 2) (by decide) hsc
      have e1 : (2 : Nat) ^ 133 = 2 * 2 ^ 132 := by norm_num
      have e2 : (2 : Nat) ^ 126 ≤ 2 ^ 132 := by norm_num
      omega
    · right
      have hrep : FVal.Representable (2 ^ 149 + 2 ^ 126) := by
        refine ⟨126, 2 ^ 23 + 1, by norm_num, by decide, .inl (by decide), ?_⟩
        rw [FVal.overflowMag]; norm_num
      have := FVal.le_roundMag_of_le (num := m + r) (den := 1) (by decide) hrep (by rw [Nat.mul_one]; exact hge)
      have := Nat.two_pow_pos 126
      omega
  generalize FVal.roundMag (m + r) 1 = v at hlow
  by_cases hv : 2 ^ 149 < v
  · exact .inl (decide_eq_true hv)
  · right
    rcases hlow with hlow | hlow
    · have e : 2 ^ 149 - m = (2 ^ 149 - m - 2 ^ 132) + 2 ^ 132 := by omega
      rw [e, Nat.add_div_right _ (Nat.two_pow_pos 132)]
      have : (2 ^ 149 - v) / 2 ^ 132 ≤ (2 ^ 149 - m - 2 ^ 132) / 2 ^ 132 := Nat.div_le_div_right (by omega)
      omega
    · omega

theorem float_wrap (b : F32) (hb : b.toNat ≤ 0x43808000) (hx : exceedsFloat b = true) : (wrapFloat b).toNat ≤ 0x43808000 := by
  rw [exceedsFloat_phase hb] at hx
  have hx : 2 ^ 149 < phaseMag b := of_decide_eq_true hx
  obtain ⟨m, hm, hle⟩ := (phase_range_iff b).mp hb
  have hmm : phaseMag b = m := by
    have := ofBits_phase hb
    rw [hm] at this
    injection this with _ h
    exact h.symm
  rw [hmm] at hx
  have hsub : FVal.sub (.ofBits b) FVal.one = FVal.round false (m - 2 ^ 149) 1 := by
    rw [hm]
    refine add_fin_pos (s := false) (t := true) (n := 2 ^ 149) (by omega) ?_
    simp only [FVal.units]
    omega
  have hrep := FVal.representable_of_ofBits hm
  have hup : FVal.roundMag (m - 2 ^ 149) 1 ≤ m := FVal.roundMag_le_of_le (by decide) hrep (by omega)
  obtain ⟨-, -, -, -, -, hov⟩ := hrep
  have hlt : FVal.roundMag (m - 2 ^ 149) 1 < FVal.overflowMag := lt_of_le_of_lt hup hov
  refine (phase_range_iff _).mpr ⟨FVal.roundMag (m - 2 ^ 149) 1, ?_, le_trans hup hle⟩
  rw [wrapFloat, hsub, FVal.round, if_neg (by omega)]
  exact FVal.ofBits_toBits_fin _ _ (FVal.roundMag_representable _ _ hlt)

/-- Every FIXED transposition ends from a slope and step in their ranges. -/
theorem fixed_transposeFrom_some {step : Nat} (hs : 1 ≤ step) (hs' : step ≤ 2 ^ 24) (cutoff : F32) (left : List I16) (x : List (List I16)) (acc draws : Nat)
    (ha : acc ≤ 65536 + 2 ^ 24) : ∃ r, transposeFrom (fixedKernel step cutoff) left x acc draws = some r :=
  transposeFrom_some (fixedKernel step cutoff) (P := fun a => a ≤ 65536 + 2 ^ 24) (measure := fun a => 65536 - a)
    (fun a ha hx => fixed_advance hs hs' cutoff a ha hx) (fun a ha _ => fixed_wrap cutoff a ha) (fun a _ => by simp only [emitFuel]; omega) left x acc draws ha

/-- Every FLOAT transposition ends from a phase in its range at an admitted rate. -/
theorem float_transposeFrom_some {rate : F32} (hr : rateAdmitted rate = true) (cutoff : F32) (left : List F32) (x : List (List F32)) (acc : F32) (draws : Nat)
    (ha : acc.toNat ≤ 0x43808000) : ∃ r, transposeFrom (floatKernel rate cutoff) left x acc draws = some r := by
  refine transposeFrom_some (floatKernel rate cutoff) (P := fun a => a.toNat ≤ 0x43808000) (measure := fun a => (2 ^ 149 - phaseMag a) / 2 ^ 132)
    (fun a ha hx => float_advance hr a ha hx) (fun a ha hx => float_wrap a ha hx) (fun a _ => ?_) left x acc draws ha
  have h1 : (2 ^ 149 - phaseMag a) / 2 ^ 132 ≤ 2 ^ 149 / 2 ^ 132 := Nat.div_le_div_right (Nat.sub_le _ _)
  have h2 : 2 ^ 149 / 2 ^ 132 = 131072 := by norm_num
  simp only [emitFuel]
  omega

end Sys2Proof.Machine
end

