-- ==== Sys2Proof/Laws/Exec.lean ====
section
/-! SUPPORT. What each command can do, said once: if it answers a next state, these are the ways it did. -/

namespace Sys2Proof.Machine

open Sys2Proof

/-! ### Unit A -/

/-- A SEND by a disabled sender. -/
theorem execFifoSend_disabled {p : Proc} {v : U32} {s : State} (hr : s.unitA.ready = true) (he : Cnt.enable (s.cnt p) = false) :
    execFifoSend p v s = s.ok [] [] := by
  simp [execFifoSend, hr, he]

/-- A SEND by an enabled sender into a full queue. -/
theorem execFifoSend_full {p : Proc} {v : U32} {s : State} (hr : s.unitA.ready = true) (he : Cnt.enable (s.cnt p) = true) (hs : 15 < (s.queue p).size) :
    execFifoSend p v s = (s.setCnt p (Cnt.setBits (s.cnt p) Cnt.ERROR)).ok [] [] := by
  simp [execFifoSend, hr, he, Queue.isFull, hs]

/-- A successful SEND. -/
theorem execFifoSend_append {p : Proc} {v : U32} {s : State} (hr : s.unitA.ready = true) (he : Cnt.enable (s.cnt p) = true) (hs : (s.queue p).size ≤ 15) :
    execFifoSend p v s =
      (((s.setQueue p ((s.queue p).push v)).setCnt p (Cnt.afterSendLocal s.cfg.errStrip ((s.queue p).push v).isFull (s.cnt p))).setCnt p.peer
        (Cnt.afterSendRemote s.cfg.errStrip ((s.queue p).push v).isFull (s.cnt p.peer))).ok []
        ((if Cnt.rirq (s.cnt p.peer) then [Event.irq p.peer .recvNonempty] else []) ++ [.resched]) := by
  have hf : (s.queue p).isFull = false := decide_eq_false (by omega)
  simp [execFifoSend, hr, he, hf]

/-- A RECV by a disabled receiver. -/
theorem execFifoRecv_disabled {p : Proc} {s : State} (hr : s.unitA.ready = true) (he : Cnt.enable (s.cnt p) = false) :
    execFifoRecv p s = s.ok [0#32] [] := by
  simp [execFifoRecv, hr, he]

/-- A RECV by an enabled receiver from an empty queue. -/
theorem execFifoRecv_empty {p : Proc} {s : State} (hr : s.unitA.ready = true) (he : Cnt.enable (s.cnt p) = true) (hs : (s.queue p.peer).size = 0) :
    execFifoRecv p s = (s.setCnt p (Cnt.setBits (s.cnt p) Cnt.ERROR)).ok [0#32] [] := by
  simp [execFifoRecv, hr, he, Queue.isEmpty, hs]

/-- A successful RECV. -/
theorem execFifoRecv_take {p : Proc} {s : State} (hr : s.unitA.ready = true) (he : Cnt.enable (s.cnt p) = true) (hs : (s.queue p.peer).size ≠ 0) :
    execFifoRecv p s =
      (((s.setQueue p.peer (s.queue p.peer).pop).setCnt p (Cnt.afterRecvLocal s.cfg.errStrip (s.queue p.peer).pop.isEmpty (s.cnt p))).setCnt p.peer
        (Cnt.afterRecvRemote s.cfg.errStrip (s.queue p.peer).pop.isEmpty (s.cnt p.peer))).ok [(s.queue p.peer).front]
        ((if (s.queue p.peer).pop.isEmpty && Cnt.sirq (s.cnt p.peer) then [Event.irq p.peer .sendEmpty] else []) ++ [.resched]) := by
  have hf : (s.queue p.peer).isEmpty = false := decide_eq_false hs
  simp [execFifoRecv, hr, he, hf]

/-- What a SEND that answers a next state did: nothing for a disabled sender, ERROR for a full queue, else the append. -/
theorem execFifoSend_eq_next {p : Proc} {v : U32} {s t : State} (h : execFifoSend p v s = .next t) :
    s.unitA.ready = true ∧
    ((Cnt.enable (s.cnt p) = false ∧ s.ok [] [] = .next t) ∨
     (Cnt.enable (s.cnt p) = true ∧ 15 < (s.queue p).size ∧ (s.setCnt p (Cnt.setBits (s.cnt p) Cnt.ERROR)).ok [] [] = .next t) ∨
     (Cnt.enable (s.cnt p) = true ∧ (s.queue p).size ≤ 15 ∧
      (((s.setQueue p ((s.queue p).push v)).setCnt p (Cnt.afterSendLocal s.cfg.errStrip ((s.queue p).push v).isFull (s.cnt p))).setCnt p.peer
        (Cnt.afterSendRemote s.cfg.errStrip ((s.queue p).push v).isFull (s.cnt p.peer))).ok []
        ((if Cnt.rirq (s.cnt p.peer) then [Event.irq p.peer .recvNonempty] else []) ++ [.resched]) = .next t)) := by
  obtain ⟨hr, h⟩ := whenReady_eq_next h
  refine ⟨hr, ?_⟩
  cases he : Cnt.enable (s.cnt p)
  · simp only [he, if_true] at h
    exact .inl ⟨rfl, h⟩
  · simp only [he, Bool.true_eq_false, if_false, Cnt.rirq_afterSendRemote] at h
    right
    by_cases hs : 15 < (s.queue p).size
    · simp only [Queue.isFull, hs, decide_true, if_true] at h
      exact .inl ⟨rfl, hs, h⟩
    · rw [if_neg (by simp [Queue.isFull, hs])] at h
      exact .inr ⟨rfl, by omega, h⟩

/-- What a RECV that answers a next state did: 0 for a disabled receiver, ERROR and 0 for an empty queue, else the front word taken. -/
theorem execFifoRecv_eq_next {p : Proc} {s t : State} (h : execFifoRecv p s = .next t) :
    s.unitA.ready = true ∧
    ((Cnt.enable (s.cnt p) = false ∧ s.ok [0#32] [] = .next t) ∨
     (Cnt.enable (s.cnt p) = true ∧ (s.queue p.peer).size = 0 ∧ (s.setCnt p (Cnt.setBits (s.cnt p) Cnt.ERROR)).ok [0#32] [] = .next t) ∨
     (Cnt.enable (s.cnt p) = true ∧ (s.queue p.peer).size ≠ 0 ∧
      (((s.setQueue p.peer (s.queue p.peer).pop).setCnt p (Cnt.afterRecvLocal s.cfg.errStrip (s.queue p.peer).pop.isEmpty (s.cnt p))).setCnt p.peer
        (Cnt.afterRecvRemote s.cfg.errStrip (s.queue p.peer).pop.isEmpty (s.cnt p.peer))).ok [(s.queue p.peer).front]
        ((if (s.queue p.peer).pop.isEmpty && Cnt.sirq (s.cnt p.peer) then [Event.irq p.peer .sendEmpty] else []) ++ [.resched]) = .next t)) := by
  obtain ⟨hr, h⟩ := whenReady_eq_next h
  refine ⟨hr, ?_⟩
  cases he : Cnt.enable (s.cnt p)
  · simp only [he, if_true] at h
    exact .inl ⟨rfl, h⟩
  · simp only [he, Bool.true_eq_false, if_false, Cnt.sirq_afterRecvRemote] at h
    right
    by_cases hs : (s.queue p.peer).size = 0
    · simp only [Queue.isEmpty, hs, decide_true, if_true] at h
      exact .inl ⟨rfl, hs, h⟩
    · rw [if_neg (by simp [Queue.isEmpty, hs])] at h
      exact .inr ⟨rfl, hs, h⟩

/-- What a CNT that answers a next state did. -/
theorem execFifoCnt_eq_next {p : Proc} {v : U16} {s t : State} (h : execFifoCnt p v s = .next t) :
    s.unitA.ready = true ∧
    (((s.setQueue p (if Cnt.sclear v then (s.queue p).clear else s.queue p)).setCnt p (Cnt.afterConfigureLocal v (s.cnt p))).setCnt p.peer
      (Cnt.afterConfigureRemote v (s.cnt p.peer))).ok [] (configureIrqs p (Cnt.afterConfigureLocal v (s.cnt p)) ++ [.resched]) = .next t :=
  whenReady_eq_next h

/-- What a RDCNT that answers a next state did. -/
theorem execFifoRdcnt_eq_next {p : Proc} {s t : State} (h : execFifoRdcnt p s = .next t) :
    s.unitA.ready = true ∧ s.ok [cntWord (s.cnt p)] [] = .next t := whenReady_eq_next h

/-! ### Unit B -/

/-- What a SETRATE that answers a next state did. -/
theorem execTrSetrate_eq_next {r : F32} {s t : State} (h : execTrSetrate r s = .next t) :
    rateAdmitted r = true ∧
      (s.setUnitB { s.unitB with rate := r, cutoff := cutoffOf r, datapath := s.unitB.datapath.setStep (stepOf r) }).ok [] [] = .next t := by
  unfold execTrSetrate at h
  split at h
  · exact ⟨‹_›, h⟩
  · cases h

/-- What a SETCH that answers a next state did: nothing for the count in force, else the change. -/
theorem execTrSetch_eq_next {n : U32} {s t : State} (h : execTrSetch n s = .next t) :
    ∃ ch, channelsOf n = some ch ∧
      ((ch = s.unitB.channels ∧ s.ok [] [] = .next t) ∨
       (ch ≠ s.unitB.channels ∧ s.unitB.datapath.storeLength = 0 ∧ s.unitB.datapath.outputLength = 0 ∧
        (s.setUnitB { s.unitB with channels := ch, datapath := s.unitB.datapath.resetInterp }).ok [] [] = .next t)) := by
  unfold execTrSetch at h
  split at h
  · cases h
  · rename_i ch hc
    refine ⟨ch, hc, ?_⟩
    split at h
    · exact .inl ⟨‹_›, h⟩
    · split at h
      · cases h
      · rename_i h1 h2
        exact .inr ⟨h1, by omega, by omega, h⟩

/-- What a put on unit B that succeeds did: the frames are of the unit's type and width, and the lane made the put. -/
theorem UnitB.put_eq_ok {L : Nat} {x : Block} {b b' : UnitB} {draws d : Nat} (h : b.put L x draws = .ok (b', d)) :
    x.framesHave b.channels.count = true ∧
    ((∃ step lane lane' frames, b.datapath = .fixed step lane ∧ x = .i16 frames ∧ b' = { b with datapath := .fixed step lane' } ∧
        lane.put (fixedKernel step b.cutoff) b.channels L b.aaEnable b.upsamples frames draws = some (lane', d)) ∨
     (∃ lane lane' frames, b.datapath = .float lane ∧ x = .f32 frames ∧ b' = { b with datapath := .float lane' } ∧
        lane.put (floatKernel b.rate b.cutoff) b.channels L b.aaEnable b.upsamples frames draws = some (lane', d))) := by
  unfold UnitB.put at h
  split at h
  · cases h
  · rename_i hw
    refine ⟨by simpa using hw, ?_⟩
    split at h
    · rename_i step lane frames hd
      split at h
      · cases h
      · rename_i lane' d' hp
        injection h with h
        injection h with h1 h2
        subst h1 h2
        exact .inl ⟨step, lane, lane', frames, hd, rfl, rfl, hp⟩
    · rename_i lane frames hd
      split at h
      · cases h
      · rename_i lane' d' hp
        injection h with h
        injection h with h1 h2
        subst h1 h2
        exact .inr ⟨lane, lane', frames, hd, rfl, rfl, hp⟩
    · cases h
    · cases h

/-- A put of i16 frames of the unit's width on a FIXED unit is the lane's put. -/
theorem UnitB.put_fixed {L : Nat} {frames : List (List I16)} {b : UnitB} {draws d : Nat} {step : Nat} {lane lane' : Lane I16 Nat}
    (hd : b.datapath = .fixed step lane) (hw : framesHaveWidth b.channels.count frames)
    (h : lane.put (fixedKernel step b.cutoff) b.channels L b.aaEnable b.upsamples frames draws = some (lane', d)) :
    b.put L (.i16 frames) draws = .ok ({ b with datapath := .fixed step lane' }, d) := by
  unfold UnitB.put
  rw [if_neg (by simpa [Block.framesHave, framesHaveWidth] using hw)]
  simp only [hd]
  rw [h]

/-- A put of f32 frames of the unit's width on a FLOAT unit is the lane's put. -/
theorem UnitB.put_float {L : Nat} {frames : List (List F32)} {b : UnitB} {draws d : Nat} {lane lane' : Lane F32 F32}
    (hd : b.datapath = .float lane) (hw : framesHaveWidth b.channels.count frames)
    (h : lane.put (floatKernel b.rate b.cutoff) b.channels L b.aaEnable b.upsamples frames draws = some (lane', d)) :
    b.put L (.f32 frames) draws = .ok ({ b with datapath := .float lane' }, d) := by
  unfold UnitB.put
  rw [if_neg (by simpa [Block.framesHave, framesHaveWidth] using hw)]
  simp only [hd]
  rw [h]

/-- What a PUT that answers a next state did. -/
theorem execTrPut_eq_next {x : Block} {s t : State} (h : execTrPut x s = .next t) :
    ∃ b d, s.unitB.put s.cfg.aaLength x s.nanDraws = .ok (b, d) ∧ State.ok { s with unitB := b, nanDraws := d } [] [] = .next t := by
  unfold execTrPut at h
  split at h
  · cases h
  · exact ⟨_, _, ‹_›, h⟩

end Sys2Proof.Machine
end

