-- ==== Sys2Proof/Laws/Locality.lean ====
section
/-! SUPPORT. What a command reads and writes, said once: a unit A command depends on unit A and the parameters alone and writes unit A alone, and a unit B command the
same of unit B and the NaN draws (20_memory.md R66). -/

namespace Sys2Proof.Machine

open Sys2Proof

/-- From every state with the unit A and the parameters of `s` the command stops in the same way, or completes with the same unit A and response. -/
def LocalA (i : Instr) (s : State) : Prop :=
  (∃ o, (∀ t, o ≠ Host.Outcome.next t) ∧ ∀ s', s'.unitA = s.unitA → s'.cfg = s.cfg → exec i s' = o) ∨
  ∃ a r e, ∀ s', s'.unitA = s.unitA → s'.cfg = s.cfg → exec i s' = State.ok { s' with unitA := a } r e

/-- From every state with the unit B, the parameters and the draws of `s` the command stops in the same way, or completes with the same unit B, draws and response. -/
def LocalB (j : Instr) (s : State) : Prop :=
  (∃ o, (∀ t, o ≠ Host.Outcome.next t) ∧ ∀ s', s'.unitB = s.unitB → s'.cfg = s.cfg → s'.nanDraws = s.nanDraws → exec j s' = o) ∨
  ∃ b d r e, ∀ s', s'.unitB = s.unitB → s'.cfg = s.cfg → s'.nanDraws = s.nanDraws → exec j s' = State.ok { s' with unitB := b, nanDraws := d } r e

/-- What a unit A command does depends on unit A and the parameters alone. -/
theorem exec_localA (i : Instr) (s : State) (h : i.proc? ≠ none) : LocalA i s := by
  have frame : ∀ s' : State, s'.unitA = s.unitA → s'.cfg = s.cfg → s' = { s' with unitA := s.unitA, cfg := s.cfg } := by
    intro s' g1 g2; rw [← g1, ← g2]
  have W : ∀ p (K : State → Result), (∀ s', exec i s' = s'.whenReady p (K s')) →
      (∃ a r e, ∀ s' : State, K { s' with unitA := s.unitA, cfg := s.cfg } = State.ok { s' with unitA := a, cfg := s.cfg } r e) → LocalA i s := by
    rintro p K he ⟨a, r, e, hk⟩
    by_cases hr : s.unitA.ready = true
    · right; refine ⟨a, r, e, fun s' g1 g2 => ?_⟩
      rw [he, whenReady_of_ready (by rw [g1]; exact hr), frame s' g1 g2]; exact hk s'
    · left; exact ⟨.fault (.uninit p), by simp, fun s' g1 g2 => by rw [he, whenReady_of_not_ready (by rw [g1]; simpa using hr)]⟩
  cases i with
  | trReset | trSetrate | trSetch | trSetaa | trPut | trReceive | trClear | trIsempty => exact absurd rfl h
  | fifoInit p => right; exact ⟨_, _, _, fun s' h1 h2 => by show execFifoInit p s' = _; simp only [execFifoInit]; rw [h1]⟩
  | fifoRdcnt p => exact W p _ (fun s' => rfl) ⟨s.unitA, [cntWord (s.cnt p)], [], fun s' => rfl⟩
  | fifoCnt p v =>
    exact W p _ (fun s' => rfl) ⟨(((s.setQueue p (if Cnt.sclear v then (s.queue p).clear else s.queue p)).setCnt p (Cnt.afterConfigureLocal v (s.cnt p))).setCnt p.peer
      (Cnt.afterConfigureRemote v (s.cnt p.peer))).unitA, [], configureIrqs p (Cnt.afterConfigureLocal v (s.cnt p)) ++ [.resched], fun s' => rfl⟩
  | fifoSend p v =>
    refine W p _ (fun s' => rfl) ?_
    show ∃ a r e, ∀ s' : State, (if Cnt.enable (s.unitA.cnt.get p) = false then _ else if (s.unitA.queue.get p).isFull then _ else _ : Result) = _
    by_cases h1 : Cnt.enable (s.unitA.cnt.get p) = false
    · refine ⟨s.unitA, [], [], fun s' => ?_⟩; rw [if_pos h1]
    · by_cases h2 : (s.unitA.queue.get p).isFull = true
      · refine ⟨(s.setCnt p (Cnt.setBits (s.cnt p) Cnt.ERROR)).unitA, [], [], fun s' => ?_⟩; rw [if_neg h1, if_pos h2]; rfl
      · refine ⟨(((s.setQueue p ((s.queue p).push v)).setCnt p (Cnt.afterSendLocal s.cfg.errStrip ((s.queue p).push v).isFull (s.cnt p))).setCnt p.peer
          (Cnt.afterSendRemote s.cfg.errStrip ((s.queue p).push v).isFull (s.cnt p.peer))).unitA, [],
          (if Cnt.rirq (Cnt.afterSendRemote s.cfg.errStrip ((s.queue p).push v).isFull (s.cnt p.peer)) then [Event.irq p.peer .recvNonempty] else []) ++ [.resched], fun s' => ?_⟩; rw [if_neg h1, if_neg h2]; rfl
  | fifoRecv p =>
    refine W p _ (fun s' => rfl) ?_
    show ∃ a r e, ∀ s' : State, (if Cnt.enable (s.unitA.cnt.get p) = false then _ else if (s.unitA.queue.get p.peer).isEmpty then _ else _ : Result) = _
    by_cases h1 : Cnt.enable (s.unitA.cnt.get p) = false
    · refine ⟨s.unitA, [0#32], [], fun s' => ?_⟩; rw [if_pos h1]
    · by_cases h2 : (s.unitA.queue.get p.peer).isEmpty = true
      · refine ⟨(s.setCnt p (Cnt.setBits (s.cnt p) Cnt.ERROR)).unitA, [0#32], [], fun s' => ?_⟩; rw [if_neg h1, if_pos h2]; rfl
      · refine ⟨(((s.setQueue p.peer (s.queue p.peer).pop).setCnt p (Cnt.afterRecvLocal s.cfg.errStrip (s.queue p.peer).pop.isEmpty (s.cnt p))).setCnt p.peer
          (Cnt.afterRecvRemote s.cfg.errStrip (s.queue p.peer).pop.isEmpty (s.cnt p.peer))).unitA, [(s.queue p.peer).front],
          (if (s.queue p.peer).pop.isEmpty && Cnt.sirq (Cnt.afterRecvRemote s.cfg.errStrip (s.queue p.peer).pop.isEmpty (s.cnt p.peer)) then [Event.irq p.peer .sendEmpty] else []) ++ [.resched], fun s' => ?_⟩; rw [if_neg h1, if_neg h2]; rfl

/-- What a unit B command does depends on unit B, the parameters and the draws alone. -/
theorem exec_localB (j : Instr) (s : State) (h : j.proc? = none) : LocalB j s := by
  cases j with
  | fifoInit | fifoSend | fifoRecv | fifoCnt | fifoRdcnt => cases h
  | trReset => right; exact ⟨_, s.nanDraws, _, _, fun s' h1 h2 h3 => by show execTrReset s' = _; simp only [execTrReset]; rw [h1, ← h3]; rfl⟩
  | trSetaa b => right; exact ⟨_, s.nanDraws, _, _, fun s' h1 h2 h3 => by show execTrSetaa b s' = _; simp only [execTrSetaa]; rw [h1, ← h3]; rfl⟩
  | trReceive n => right; exact ⟨_, s.nanDraws, _, _, fun s' h1 h2 h3 => by show execTrReceive n s' = _; simp only [execTrReceive]; rw [h1, ← h3]; rfl⟩
  | trClear => right; exact ⟨_, s.nanDraws, _, _, fun s' h1 h2 h3 => by show execTrClear s' = _; simp only [execTrClear]; rw [h1, ← h3]; rfl⟩
  | trIsempty => right; exact ⟨s.unitB, s.nanDraws, [boolWord (s.unitB.datapath.outputLength == 0 && s.unitB.datapath.storeLength == 0)], [], fun s' h1 h2 h3 => by show execTrIsempty s' = _; simp only [execTrIsempty]; rw [← h1, ← h3]⟩
  | trSetrate r =>
    by_cases hr : rateAdmitted r = true
    · right; exact ⟨_, s.nanDraws, _, _, fun s' h1 h2 h3 => by show execTrSetrate r s' = _; simp only [execTrSetrate]; rw [if_pos hr, h1, ← h3]; rfl⟩
    · left; exact ⟨.refused (.rateRange r), by simp, fun s' _ _ _ => by show execTrSetrate r s' = _; simp only [execTrSetrate]; rw [if_neg hr]⟩
  | trSetch n =>
    rcases hc : channelsOf n with _ | ch
    · left; exact ⟨.fault (.channels n), by simp, fun s' _ _ _ => by show execTrSetch n s' = _; simp only [execTrSetch]; rw [hc]⟩
    · by_cases h1 : ch = s.unitB.channels
      · right; exact ⟨s.unitB, s.nanDraws, _, _, fun s' g1 g2 g3 => by show execTrSetch n s' = _; simp only [execTrSetch]; rw [hc]; simp only; rw [if_pos (by rw [g1]; exact h1), ← g1, ← g3]⟩
      · by_cases h2 : 0 < s.unitB.datapath.storeLength ∨ 0 < s.unitB.datapath.outputLength
        · left; exact ⟨.refused .channelChangeNonempty, by simp, fun s' g1 _ _ => by show execTrSetch n s' = _; simp only [execTrSetch]; rw [hc]; simp only; rw [g1, if_neg h1, if_pos h2]⟩
        · right; exact ⟨_, s.nanDraws, _, _, fun s' g1 _ g3 => by show execTrSetch n s' = _; simp only [execTrSetch]; rw [hc]; simp only; rw [g1, if_neg h1, if_neg h2, ← g3]; rfl⟩
  | trPut x =>
    cases hp : s.unitB.put s.cfg.aaLength x s.nanDraws with
    | error r => left; exact ⟨.refused r, by simp, fun s' g1 g2 g3 => by show execTrPut x s' = _; simp only [execTrPut]; rw [g1, g2, g3, hp]⟩
    | ok v => right; exact ⟨v.1, v.2, _, _, fun s' g1 g2 g3 => by show execTrPut x s' = _; simp only [execTrPut]; rw [g1, g2, g3, hp]⟩

end Sys2Proof.Machine
end

