-- ==== Sys2Proof/Laws/PerInstr.lean ====
section
/-! SUPPORT. Statements for every command, one lemma per constructor: the command word of its encoding (30_encoding.md R70 to R73, R76). -/

namespace Sys2Proof.Laws.CommandWord

open Sys2Proof

/-- The opcode of each command (R76). -/
def opcode : Instr → Opcode
  | .fifoInit _ => .fifoInit
  | .fifoSend _ _ => .fifoSend
  | .fifoRecv _ => .fifoRecv
  | .fifoCnt _ _ => .fifoCnt
  | .fifoRdcnt _ => .fifoRdcnt
  | .trReset => .trReset
  | .trSetrate _ => .trSetrate
  | .trSetch _ => .trSetch
  | .trSetaa _ => .trSetaa
  | .trPut _ => .trPut
  | .trReceive _ => .trReceive
  | .trClear => .trClear
  | .trIsempty => .trIsempty

/-- The bit the `P` field holds: the processor of a unit A command, 0 for a unit B command. -/
def pBit (i : Instr) : Bool :=
  match i.proc? with
  | some p => p.toBit
  | none => false

/-- The encoding of a command starts with a command word that has its opcode, its processor bit and zero reserved bits, and that opcode is no reserved one. -/
def Statement (i : Instr) : Prop :=
  ∃ cmd operands, encode i = cmd :: operands ∧ Opcode.ofCode (cmdOpc cmd) = some (opcode i) ∧ cmdP cmd = pBit i ∧ cmdRes cmd = 0#23 ∧
    ((opcode i).usesP = true ↔ i.proc? ≠ none)

theorem fifoInit (p : Proc) : Statement (.fifoInit p) := ⟨_, _, rfl, by simp [opcode], by simp [pBit, Instr.proc?], by simp, by simp [opcode, Opcode.usesP, Instr.proc?]⟩
theorem fifoSend (p : Proc) (v : U32) : Statement (.fifoSend p v) :=
  ⟨_, _, rfl, by simp [opcode], by simp [pBit, Instr.proc?], by simp, by simp [opcode, Opcode.usesP, Instr.proc?]⟩
theorem fifoRecv (p : Proc) : Statement (.fifoRecv p) := ⟨_, _, rfl, by simp [opcode], by simp [pBit, Instr.proc?], by simp, by simp [opcode, Opcode.usesP, Instr.proc?]⟩
theorem fifoCnt (p : Proc) (v : U16) : Statement (.fifoCnt p v) :=
  ⟨_, _, rfl, by simp [opcode], by simp [pBit, Instr.proc?], by simp, by simp [opcode, Opcode.usesP, Instr.proc?]⟩
theorem fifoRdcnt (p : Proc) : Statement (.fifoRdcnt p) :=
  ⟨_, _, rfl, by simp [opcode], by simp [pBit, Instr.proc?], by simp, by simp [opcode, Opcode.usesP, Instr.proc?]⟩
theorem trReset : Statement .trReset := ⟨_, _, rfl, by simp [opcode], by simp [pBit, Instr.proc?], by simp, by simp [opcode, Opcode.usesP, Instr.proc?]⟩
theorem trSetrate (r : F32) : Statement (.trSetrate r) := ⟨_, _, rfl, by simp [opcode], by simp [pBit, Instr.proc?], by simp, by simp [opcode, Opcode.usesP, Instr.proc?]⟩
theorem trSetch (n : U32) : Statement (.trSetch n) := ⟨_, _, rfl, by simp [opcode], by simp [pBit, Instr.proc?], by simp, by simp [opcode, Opcode.usesP, Instr.proc?]⟩
theorem trSetaa (b : Bool) : Statement (.trSetaa b) := ⟨_, _, rfl, by simp [opcode], by simp [pBit, Instr.proc?], by simp, by simp [opcode, Opcode.usesP, Instr.proc?]⟩
theorem trPut (x : Block) : Statement (.trPut x) := ⟨_, _, rfl, by simp [opcode], by simp [pBit, Instr.proc?], by simp, by simp [opcode, Opcode.usesP, Instr.proc?]⟩
theorem trReceive (n : U32) : Statement (.trReceive n) :=
  ⟨_, _, rfl, by simp [opcode], by simp [pBit, Instr.proc?], by simp, by simp [opcode, Opcode.usesP, Instr.proc?]⟩
theorem trClear : Statement .trClear := ⟨_, _, rfl, by simp [opcode], by simp [pBit, Instr.proc?], by simp, by simp [opcode, Opcode.usesP, Instr.proc?]⟩
theorem trIsempty : Statement .trIsempty := ⟨_, _, rfl, by simp [opcode], by simp [pBit, Instr.proc?], by simp, by simp [opcode, Opcode.usesP, Instr.proc?]⟩

end Sys2Proof.Laws.CommandWord
end

