-- ==== Sys2Proof/Laws/Rounding.lean ====
section
/-! SUPPORT. `FVal.round` answers `fl` of the exact value it is handed (00_scope.md R20), said once in exact values: what a pattern's value is, where the overflow bound
lies, and that the result is the nearest pattern. -/

namespace Sys2Proof.Machine
open Sys2Proof

namespace FVal

/-- On a value at least half past an odd integer the nearest integer is above it. -/
theorem succ_le_nearestEven {num den k : Nat} (hk : k % 2 = 1) (h : (2 * k + 1) * den ≤ 2 * num) (hd : 0 < den) : k + 1 ≤ nearestEven num den := by
  have h1 : k ≤ num / den := (Nat.le_div_iff_mul_le hd).mpr (by nlinarith)
  rcases Nat.eq_or_lt_of_le h1 with he | hl
  · have hdm := Nat.div_add_mod num den
    rw [← he] at hdm
    have hr : den ≤ 2 * (num % den) := by nlinarith
    unfold nearestEven
    simp only [← he]
    rw [if_neg (by omega), if_neg (by omega)]
  · exact le_trans hl (le_nearestEven num den)

theorem overflow_of_le {num den : Nat} (hd : 0 < den) (h : (2 ^ 25 - 1) * 2 ^ 252 * den ≤ num) : overflowMag ≤ roundMag num den := by
  have hn : (2 ^ 25 - 1) * 2 ^ 252 ≤ num / den := (Nat.le_div_iff_mul_le hd).mpr h
  obtain ⟨h1, -⟩ := scaleOf_spec (num / den)
  obtain ⟨-, h2⟩ := scaled_quotient num den
  have hs : 253 ≤ scaleOf (num / den) := by
    by_contra hc
    have : (2 : Nat) ^ 24 * 2 ^ scaleOf (num / den) ≤ 2 ^ 24 * 2 ^ 252 := Nat.mul_le_mul_left _ (Nat.pow_le_pow_right (by decide) (by omega))
    have : (2 ^ 24 : Nat) * 2 ^ 252 ≤ (2 ^ 25 - 1) * 2 ^ 252 := Nat.mul_le_mul_right _ (by decide)
    omega
  rcases Nat.eq_or_lt_of_le hs with he | hl
  · have := succ_le_nearestEven (num := num) (den := den * 2 ^ scaleOf (num / den)) (k := 2 ^ 24 - 1) (by decide) (by
      rw [← he]
      have e : (2 * (2 ^ 24 - 1) + 1) * (den * 2 ^ 253) = 2 * ((2 ^ 25 - 1) * 2 ^ 252 * den) := by
        rw [show (2 : Nat) ^ 253 = 2 * 2 ^ 252 by rw [pow_succ]; ring]; ring
      rw [e]; exact Nat.mul_le_mul_left _ h) (Nat.mul_pos hd (Nat.two_pow_pos _))
    unfold roundMag overflowMag
    simp only
    rw [← he] at this ⊢
    exact Nat.mul_le_mul_right _ this
  · have hq : 2 ^ 23 ≤ nearestEven num (den * 2 ^ scaleOf (num / den)) := by
      rcases h2 with h2 | h2
      · exact le_trans h2 (le_nearestEven _ _)
      · omega
    rw [overflowMag_eq]
    exact Nat.mul_le_mul hq (Nat.pow_le_pow_right (by decide) hl)

theorem lt_overflow_of_lt {num den : Nat} (hd : 0 < den) (h : num < (2 ^ 25 - 1) * 2 ^ 252 * den) : roundMag num den < overflowMag := by
  have hmax : Representable ((2 ^ 24 - 1) * 2 ^ 253) := ⟨253, 2 ^ 24 - 1, rfl, by decide, .inl (by decide), by
    rw [overflowMag]; exact Nat.mul_lt_mul_of_pos_right (by decide) (Nat.two_pow_pos _)⟩
  by_contra hc
  have hge : overflowMag ≤ roundMag num den := by omega
  have hmd : overflowMag * den ≤ roundMag num den * den := Nat.mul_le_mul_right _ hge
  obtain ⟨h1, -⟩ := roundMag_nearest num den _ hd hmax
  have e252 : (2:ℤ) ^ 253 = 2 * 2 ^ 252 := by norm_num
  have o : (overflowMag : ℤ) = 2 ^ 24 * (2 * 2 ^ 252) := by rw [overflowMag]; norm_num
  have hmd' : (overflowMag : ℤ) * den ≤ roundMag num den * den := by exact_mod_cast hmd
  have hz : (num : ℤ) < (2 ^ 25 - 1) * 2 ^ 252 * den := by
    have := Int.ofNat_lt.mpr h
    push_cast at this
    simpa using this
  generalize hX : (2 : ℤ) ^ 252 * den = X at *
  have hXpos : 0 < X := by rw [← hX]; positivity
  have z1 : (num : ℤ) < (2 ^ 25 - 1) * X := by rw [← hX]; linarith [hz]
  have z2 : (2 ^ 25 : ℤ) * X ≤ roundMag num den * den := by rw [← hX]; rw [o] at hmd'; linarith
  have z3 : (((2 ^ 24 - 1) * 2 ^ 253 : ℕ) : ℤ) * den = (2 ^ 25 - 2) * X := by
    rw [← hX]
    have : (((2 ^ 24 - 1) * 2 ^ 253 : ℕ) : ℤ) = (2 ^ 25 - 2) * 2 ^ 252 := by norm_num
    rw [this]; ring
  rw [z3] at h1
  rw [abs_of_nonpos (by linarith)] at h1
  rcases le_total (num : ℤ) ((2 ^ 25 - 2) * X) with hh | hh
  · rw [abs_of_nonpos (by linarith)] at h1; linarith
  · rw [abs_of_nonneg (by linarith)] at h1; linarith

/-- The sign bit of a pattern made of a sign and 31 bits. -/
theorem getLsbD_sign (s : Bool) (x : BitVec 31) : (BitVec.ofBool s ++ x : F32).getLsbD 31 = s := by
  rw [BitVec.getLsbD_append]
  cases s <;> rfl

theorem toBits_fin_sign (nb : F32) (s : Bool) (m : Nat) : (toBits nb (.fin s m)).getLsbD 31 = s := getLsbD_sign s _

theorem toBits_inf_sign (nb : F32) (s : Bool) : (toBits nb (.inf s)).getLsbD 31 = s := getLsbD_sign s _

end FVal

open FVal

/-- A finite pattern holds a finite value of its sign. -/
theorem f32Finite_iff (b : F32) : f32Finite b ↔ ∃ m, FVal.ofBits b = .fin (b.getLsbD 31) m := by
  simp only [f32Finite, FVal.ofBits]
  split
  · rename_i h; simp only [h, ne_eq, not_true_eq_false, false_iff]; split <;> simp
  · rename_i h; simp only [h, ne_eq, not_false_eq_true, true_iff]; split <;> exact ⟨_, rfl⟩

theorem ofBits_fin_sign {b : F32} {s : Bool} {m : Nat} (h : FVal.ofBits b = .fin s m) : b.getLsbD 31 = s := by
  have : toBits 0#32 (.fin s m) = b := by rw [← h]; exact toBits_ofBits _ _ (by rw [h]; simp)
  rw [← this, toBits_fin_sign]

theorem f32Finite_of_fin {b : F32} {s : Bool} {m : Nat} (h : FVal.ofBits b = .fin s m) : f32Finite b :=
  (f32Finite_iff b).mpr ⟨m, by rw [h, ofBits_fin_sign h]⟩

/-- The exact value of a finite pattern is its number of units of 2^-149. -/
theorem f32Value_of_fin {b : F32} {s : Bool} {m : Nat} (h : FVal.ofBits b = .fin s m) : f32Value b = (FVal.units (.fin s m) : ℚ) * 2 ^ (-149 : ℤ) := by
  have hs := ofBits_fin_sign h
  simp only [FVal.ofBits] at h
  simp only [f32Value]
  rw [hs] at h ⊢
  generalize (b.extractLsb' 23 8).toNat = e at *
  generalize (b.extractLsb' 0 23).toNat = f at *
  split at h
  · split at h <;> cases h
  · split at h
    · rename_i h0
      injection h with _ h
      subst h
      rw [if_pos h0]
      cases s <;> simp [FVal.units]
    · rename_i h1 h0
      injection h with _ h
      subst h
      rw [if_neg h0]
      obtain ⟨k, rfl⟩ := Nat.exists_eq_succ_of_ne_zero h0
      have e2 : (2 : ℚ) ^ (((k.succ : ℕ) : ℤ) - 150) = 2 ^ k * 2 ^ (-149 : ℤ) := by
        rw [← zpow_natCast, ← zpow_add₀ (by norm_num)]; congr 1; push_cast; ring
      rw [e2]
      cases s <;> simp [FVal.units] <;> ring

/-- `FVal.round` answers `fl` of the exact value it is handed, a pattern of the sign it is handed. -/
theorem FVal.round_roundsTo (neg : Bool) (num den : Nat) (hd : 0 < den) (v : ℚ)
    (hv : v * den = ((if neg then -(num : ℤ) else num : ℤ) : ℚ) * 2 ^ (-149 : ℤ)) :
    ∃ r, FVal.round neg num den = .ofBits r ∧ RoundsTo v r ∧ r.getLsbD 31 = neg := by
  have hc : (0 : ℚ) < 2 ^ (-149 : ℤ) := by positivity
  have hdq : (0 : ℚ) < den := by exact_mod_cast hd
  have habs : |v| * den = num * 2 ^ (-149 : ℤ) := by
    have := congrArg abs hv
    rw [abs_mul, abs_mul, abs_of_pos hdq, abs_of_pos hc] at this
    rw [this]
    cases neg <;> simp
  have hsign : v ≠ 0 → neg = decide (v < 0) := by
    intro h0
    have hn : num ≠ 0 := by
      rintro rfl
      simp at habs
      rcases habs with h | h
      · exact h0 h
      · omega
    have hnq : (0 : ℚ) < num := by exact_mod_cast Nat.pos_of_ne_zero hn
    have : (0 : ℚ) < num * 2 ^ (-149 : ℤ) := mul_pos hnq hc
    cases neg
    · simp only [Bool.false_eq_true, if_false, Int.cast_natCast] at hv
      symm; rw [decide_eq_false_iff_not, not_lt]
      by_contra hneg
      have := mul_neg_of_neg_of_pos (not_le.mp hneg) hdq
      linarith
    · simp only [if_true, Int.cast_neg, Int.cast_natCast] at hv
      symm; rw [decide_eq_true_iff]
      by_contra hneg
      have := mul_nonneg (not_lt.mp hneg) hdq.le
      linarith
  have hthr : |v| < (2 ^ 25 - 1) * 2 ^ 103 ↔ num < (2 ^ 25 - 1) * 2 ^ 252 * den := by
    have e : ((2 : ℚ) ^ 25 - 1) * 2 ^ 103 * den = (((2 ^ 25 - 1) * 2 ^ 252 * den : ℕ) : ℚ) * 2 ^ (-149 : ℤ) := by
      push_cast
      have : (2 : ℚ) ^ 103 = 2 ^ 252 * 2 ^ (-149 : ℤ) := by norm_num
      rw [this]; norm_num; ring
    rw [← mul_lt_mul_iff_left₀ hdq, habs, e, mul_lt_mul_iff_left₀ hc]
    exact_mod_cast Iff.rfl
  rcases Nat.lt_or_ge num ((2 ^ 25 - 1) * 2 ^ 252 * den) with hlt | hge
  · have hm := lt_overflow_of_lt hd hlt
    have hr : FVal.round neg num den = .fin neg (roundMag num den) := by simp only [FVal.round]; rw [if_neg (by omega)]
    have hrep := roundMag_representable _ _ hm
    have hof := ofBits_toBits_fin 0#32 neg hrep
    refine ⟨toBits 0#32 (.fin neg (roundMag num den)), by rw [hr, hof], ⟨?_, ?_, ?_⟩, toBits_fin_sign _ _ _⟩
    · intro _
      refine ⟨f32Finite_of_fin hof, ?_⟩
      intro b hb
      obtain ⟨k, hk⟩ := (f32Finite_iff b).mp hb
      have hkr := representable_of_ofBits hk
      generalize b.getLsbD 31 = t at hk
      rw [f32Value_of_fin hof, f32Value_of_fin hk]
      have heven : nearestEven num (den * 2 ^ scaleOf (num / den)) % 2 = 0 → (toBits 0#32 (.fin neg (roundMag num den))).getLsbD 0 = false := by
        intro he
        obtain ⟨g1, g2⟩ := scaled_quotient num den
        exact toBits_lsb _ _ (by have := nearestEven_le num (den * 2 ^ scaleOf (num / den)); omega) (by have := le_nearestEven num (den * 2 ^ scaleOf (num / den)); omega) he
      -- everything in units, over den
      have scale : ∀ u : ℤ, |v - (u : ℚ) * 2 ^ (-149 : ℤ)| * den = ((|(if neg then -(num : ℤ) else num) - u * den| : ℤ) : ℚ) * 2 ^ (-149 : ℤ) := by
        intro u
        have e1 : (v - (u : ℚ) * 2 ^ (-149 : ℤ)) * den = (((if neg then -(num : ℤ) else num) - u * den : ℤ) : ℚ) * 2 ^ (-149 : ℤ) := by
          rw [sub_mul, hv]; push_cast; ring
        have e2 := congrArg abs e1
        rw [abs_mul, abs_mul, abs_of_pos hdq, abs_of_pos hc] at e2
        rw [e2, Int.cast_abs]
      have le_iff : ∀ u w : ℤ, |v - (u : ℚ) * 2 ^ (-149 : ℤ)| ≤ |v - (w : ℚ) * 2 ^ (-149 : ℤ)| ↔
          |(if neg then -(num : ℤ) else num) - u * den| ≤ |(if neg then -(num : ℤ) else num) - w * den| := by
        intro u w
        rw [← mul_le_mul_iff_left₀ hdq, scale, scale, mul_le_mul_iff_left₀ hc, Int.cast_le]
      have eq_iff : ∀ u w : ℤ, |v - (u : ℚ) * 2 ^ (-149 : ℤ)| = |v - (w : ℚ) * 2 ^ (-149 : ℤ)| ↔
          |(if neg then -(num : ℤ) else num) - u * den| = |(if neg then -(num : ℤ) else num) - w * den| := by
        intro u w
        rw [le_antisymm_iff, le_antisymm_iff, le_iff, le_iff]
      rw [le_iff, eq_iff]
      have same : ∀ j : ℕ, |(if neg then -(num : ℤ) else num) - units (.fin neg j) * den| = |(num : ℤ) - j * den| := by
        intro j
        cases neg
        · rfl
        · simp only [if_true, FVal.units]
          rw [show -(num : ℤ) - -(j : ℤ) * den = -(num - j * den) by ring, abs_neg]
      obtain ⟨n1, n2⟩ := roundMag_nearest num den k hd hkr
      rw [same]
      by_cases hts : t = neg
      · subst hts
        rw [same]
        refine ⟨n1, fun e hne => heven (n2 e ?_)⟩
        intro hkm; apply hne; rw [hkm]
      · have zero : Representable 0 := ⟨0, 0, rfl, by decide, .inr rfl, Nat.lt_of_lt_of_le (by decide) small_le_overflowMag⟩
        obtain ⟨z1, z2⟩ := roundMag_nearest num den 0 hd zero
        have opp : |(if neg then -(num : ℤ) else num) - units (.fin t k) * den| = num + k * den := by
          have hpos : (0 : ℤ) ≤ num + k * den := by positivity
          cases neg <;> cases t
          · exact absurd rfl hts
          · simp only [FVal.units, Bool.false_eq_true, if_false]
            rw [show (num : ℤ) - -(k : ℤ) * den = num + k * den by ring, abs_of_nonneg hpos]
          · simp only [FVal.units, if_true]
            rw [show -(num : ℤ) - (k : ℤ) * den = -(num + k * den) by ring, abs_neg, abs_of_nonneg hpos]
          · exact absurd rfl hts
        rw [opp]
        have hz : |(num : ℤ) - ((0 : ℕ) : ℤ) * den| = num := by simp
        rw [hz] at z1 z2
        have hkd : (0 : ℤ) ≤ k * den := by positivity
        refine ⟨by omega, fun e hne => heven (z2 (by omega) ?_)⟩
        intro h0
        apply hne
        have hk0 : k = 0 := by
          have : (k : ℤ) * den = 0 := by omega
          rcases mul_eq_zero.mp this with h | h <;> omega
        rw [hk0, ← h0]
        cases t <;> cases neg <;> simp [FVal.units]
    · intro h; exact absurd (hthr.mpr hlt) (not_lt.mpr h)
    · intro h; rw [toBits_fin_sign]; exact hsign h
  · have hr : FVal.round neg num den = .inf neg := by simp only [FVal.round]; rw [if_pos (overflow_of_le hd hge)]
    refine ⟨toBits 0#32 (.inf neg), by rw [hr, ofBits_toBits_inf], ⟨?_, ?_, ?_⟩, toBits_inf_sign _ _⟩
    · intro h; exact absurd (hthr.mp h) (not_lt.mpr hge)
    · intro h
      have h0 : v ≠ 0 := by
        rintro rfl
        norm_num at h
      have := hsign h0
      by_cases hv0 : v < 0
      · rw [decide_eq_true hv0] at this; subst this; rw [if_pos hv0]; rfl
      · rw [decide_eq_false hv0] at this; subst this; rw [if_neg hv0]; rfl
    · intro h; rw [toBits_inf_sign]; exact hsign h

/-- The sum of finite values rounds the exact sum, and an exact zero sum is −0 exactly when both operands have sign 1. -/
theorem FVal.add_roundsTo (s t : Bool) (m n : Nat) : ∃ r, FVal.add (.fin s m) (.fin t n) = .ofBits r ∧
    RoundsTo (((units (.fin s m) + units (.fin t n) : ℤ) : ℚ) * 2 ^ (-149 : ℤ)) r ∧
    (units (.fin s m) + units (.fin t n) = 0 → r = if s && t then 0x80000000#32 else 0#32) := by
  have hzero : ∀ s : Bool, ofBits (if s then 0x80000000#32 else 0#32) = .fin s 0 := by intro s; cases s <;> decide
  simp only [FVal.add]
  generalize hz : units (.fin s m) + units (.fin t n) = z
  by_cases h0 : z = 0
  · rw [if_pos h0]
    refine ⟨_, (hzero _).symm, ?_, fun _ => rfl⟩
    obtain ⟨r, h1, h2, h3⟩ := round_roundsTo (s && t) 0 1 (by decide) 0 (by simp)
    have : r = if (s && t) then 0x80000000#32 else 0#32 := by
      have e : FVal.round (s && t) 0 1 = .fin (s && t) 0 := by cases s <;> cases t <;> decide
      rw [e] at h1
      rw [← toBits_ofBits 0#32 r (by rw [← h1]; simp), ← h1, ← hzero, toBits_ofBits]
      rw [hzero]; simp
    rw [h0, ← this]; simpa using h2
  · rw [if_neg h0]
    obtain ⟨r, h1, h2, h3⟩ := round_roundsTo (decide (z < 0)) z.natAbs 1 (by decide) ((z : ℚ) * 2 ^ (-149 : ℤ)) (by
      have : (if decide (z < 0) then -(z.natAbs : ℤ) else z.natAbs) = z := by
        by_cases h : z < 0 <;> simp only [h, decide_true, decide_false, if_true, Bool.false_eq_true, if_false] <;> omega
      rw [this]; simp)
    exact ⟨r, h1, h2, fun h => absurd h h0⟩

/-- The product of finite values rounds the exact product and has the sign of the signs. -/
theorem FVal.mul_roundsTo (s t : Bool) (m n : Nat) : ∃ r, FVal.mul (.fin s m) (.fin t n) = .ofBits r ∧
    RoundsTo ((units (.fin s m) : ℚ) * 2 ^ (-149 : ℤ) * ((units (.fin t n) : ℚ) * 2 ^ (-149 : ℤ))) r ∧ r.getLsbD 31 = (s ^^ t) := by
  simp only [FVal.mul]
  apply round_roundsTo _ _ _ (by positivity)
  have : (2 : ℚ) ^ (-149 : ℤ) * (((2 ^ 149 : ℕ)) : ℚ) = 1 := by norm_num
  have e : ((if (s ^^ t) = true then -((m * n : ℕ) : ℤ) else ((m * n : ℕ) : ℤ) : ℤ) : ℚ) = (units (.fin s m) : ℚ) * (units (.fin t n) : ℚ) := by
    cases s <;> cases t <;> simp [units]
  rw [e]
  linear_combination ((units (.fin s m) : ℚ) * (units (.fin t n) : ℚ) * 2 ^ (-149 : ℤ)) * this

/-- A rounded value is finite when its exact value is no larger than some finite pattern's. -/
theorem RoundsTo.finite {v : ℚ} {r : F32} (h : RoundsTo v r) {b : F32} (hb : f32Finite b) (hv : |v| ≤ |f32Value b|) : f32Finite r := by
  apply (h.nearest _).1
  refine lt_of_le_of_lt hv ?_
  obtain ⟨m, hm⟩ := (f32Finite_iff b).mp hb
  rw [f32Value_of_fin hm]
  have hr := representable_of_ofBits hm
  have hle : m ≤ (2 ^ 24 - 1) * 2 ^ 253 := by
    rcases hr.normal with h | ⟨e, q, rfl, -, h2, he⟩
    · exact le_trans h.le (le_trans (by decide) (Nat.mul_le_mul_left (2 ^ 24 - 1) (Nat.one_le_two_pow (n := 253))))
    · exact Nat.mul_le_mul (by omega) (Nat.pow_le_pow_right (by decide) he)
  have hmq : (m : ℚ) ≤ (2 ^ 24 - 1) * 2 ^ 253 := by
    have : ((m : ℕ) : ℚ) ≤ (((2 ^ 24 - 1) * 2 ^ 253 : ℕ) : ℚ) := by exact_mod_cast hle
    push_cast at this; norm_num at this ⊢; exact this
  have hu : |(units (.fin (b.getLsbD 31) m) : ℚ)| = m := by cases b.getLsbD 31 <;> simp [units]
  rw [abs_mul, hu, abs_of_pos (by positivity : (0 : ℚ) < 2 ^ (-149 : ℤ))]
  calc (m : ℚ) * 2 ^ (-149 : ℤ) ≤ (2 ^ 24 - 1) * 2 ^ 253 * 2 ^ (-149 : ℤ) := mul_le_mul_of_nonneg_right hmq (by positivity)
    _ < _ := by norm_num

/-- The path of a put at an admitted rate (R145), by the exact rate. -/
theorem UnitB.upsamples_iff {b : UnitB} (h : rateAdmitted b.rate = true) : b.upsamples = true ↔ f32Value b.rate < 1 := by
  obtain ⟨m, hm, -, -⟩ := (rateAdmitted_iff _).mp h
  have u1 : ((2 ^ 149 : ℕ) : ℚ) * 2 ^ (-149 : ℤ) = 1 := by norm_num
  have hc : (0 : ℚ) < 2 ^ (-149 : ℤ) := by positivity
  have e : FVal.lt (.fin false m) FVal.one = decide (FVal.units (.fin false m) < (2 ^ 149 : ℤ)) := by
    simp [FVal.lt, FVal.one, FVal.units]
  simp only [UnitB.upsamples]
  rw [f32Value_of_fin hm, hm, e, decide_eq_true_iff, ← u1, mul_lt_mul_iff_left₀ hc]
  exact_mod_cast Iff.rfl

end Sys2Proof.Machine
end

