-- ==== Sys2Proof/Machine/Asm.lean ====
section
/-! DEFINITION. The assembler syntax (30_encoding.md R86) and the pseudo-instruction mnemonics (R87): one line of text to the commands it stands for. -/

namespace Sys2Proof.Machine.Asm

open Sys2Proof

/-- Drop white space at both ends. -/
def trim (cs : List Char) : List Char :=
  ((cs.dropWhile Char.isWhitespace).reverse.dropWhile Char.isWhitespace).reverse

/-- The text before a `;` comment. -/
def stripComment (cs : List Char) : List Char := cs.takeWhile (fun c => c != ';')

/-- Split at commas. -/
def splitCommas : List Char → List (List Char)
  | [] => [[]]
  | c :: cs =>
    match splitCommas cs with
    | [] => [[c]]
    | f :: fs => if c = ',' then [] :: f :: fs else (c :: f) :: fs

/-- The operands of a line, none at all when the text is blank. -/
def operands (cs : List Char) : List (List Char) :=
  match trim cs with
  | [] => []
  | cs => (splitCommas cs).map trim

/-- A decimal digit's value. -/
def decDigit (c : Char) : Option Nat :=
  if '0' ≤ c ∧ c ≤ '9' then some (c.toNat - '0'.toNat) else none

/-- A hexadecimal digit's value. -/
def hexDigit (c : Char) : Option Nat :=
  if '0' ≤ c ∧ c ≤ '9' then some (c.toNat - '0'.toNat)
  else if 'a' ≤ c ∧ c ≤ 'f' then some (c.toNat - 'a'.toNat + 10)
  else if 'A' ≤ c ∧ c ≤ 'F' then some (c.toNat - 'A'.toNat + 10)
  else none

/-- The number a run of digits writes in a base, continuing from `acc`. -/
def digits (base : Nat) (digit : Char → Option Nat) : Nat → List Char → Option Nat
  | acc, [] => some acc
  | acc, c :: cs =>
    match digit c with
    | none => none
    | some d => digits base digit (acc * base + d) cs

/-- An unsigned decimal literal. -/
def decLit (cs : List Char) : Option Nat :=
  match cs with
  | [] => none
  | c :: cs => digits 10 decDigit 0 (c :: cs)

/-- A `0x` literal. -/
def hexLit (cs : List Char) : Option Nat :=
  match cs with
  | '0' :: 'x' :: c :: cs => digits 16 hexDigit 0 (c :: cs)
  | _ => none

/-- An integer literal, decimal or `0x` hexadecimal, below `2^w`. -/
def intLit (w : Nat) (cs : List Char) : Option (BitVec w) :=
  match hexLit cs <|> decLit cs with
  | none => none
  | some n => if n < 2 ^ w then some (BitVec.ofNat w n) else none

/-- An i16 sample literal: a decimal integer in [-32768, 32767]. -/
def i16Lit (cs : List Char) : Option I16 :=
  match cs with
  | '-' :: ds =>
    match decLit ds with
    | none => none
    | some n => if n ≤ 32768 then some (BitVec.ofInt 16 (-(n : Int))) else none
  | ds =>
    match decLit ds with
    | none => none
    | some n => if n ≤ 32767 then some (BitVec.ofNat 16 n) else none

/-- An unsigned decimal fraction: its digits as a number, and how many of them stand after the point. -/
def fracLit (cs : List Char) : Option (Nat × Nat) :=
  let whole := cs.takeWhile (fun c => c != '.')
  match cs.dropWhile (fun c => c != '.') with
  | [] => (decLit whole).map (fun n => (n, 0))
  | _ :: frac =>
    match decLit whole, decLit frac with
    | some n, some f => some (n * 10 ^ frac.length + f, frac.length)
    | _, _ => none

/-- A binary32 literal, as R86 gives it for a rate: a decimal literal rounded to the nearest binary32, ties to even, or a `0x` bit pattern (an f32 sample is read
the same way: log 14). -/
def f32Lit (cs : List Char) : Option F32 :=
  match cs with
  | '0' :: 'x' :: _ => intLit 32 cs
  | '-' :: ds => (fracLit ds).map (fun p => FVal.toBits (nanBits 0) (FVal.round true (p.1 * 2 ^ 149) (10 ^ p.2)))
  | ds => (fracLit ds).map (fun p => FVal.toBits (nanBits 0) (FVal.round false (p.1 * 2 ^ 149) (10 ^ p.2)))

/-- A processor operand: 0 or 1. -/
def procLit (cs : List Char) : Option Proc :=
  match intLit 1 cs with
  | none => none
  | some b => some (Proc.ofBit (b.getLsbD 0))

/-- Every literal of a list, none when one of them is no literal. -/
def allLits {α : Type} (lit : List Char → Option α) : List (List Char) → Option (List α)
  | [] => some []
  | cs :: rest =>
    match lit cs, allLits lit rest with
    | some a, some as => some (a :: as)
    | _, _ => none

/-- The operands of `TR.PUT n, s0, s1, ...`: `n` frames, then `n × channels` samples. -/
def putLits (fmt : PutFormat) : List (List Char) → Option Instr
  | [] => none
  | n :: samples =>
    match intLit 32 n with
    | none => none
    | some n =>
      if samples.length = n.toNat * fmt.channels.count then
        match fmt.variant with
        | .fixed => (allLits i16Lit samples).map (fun ss => .trPut (.i16 (framesOf fmt.channels ss)))
        | .float => (allLits f32Lit samples).map (fun ss => .trPut (.f32 (framesOf fmt.channels ss)))
      else none

/-- The mnemonics of the syntax. -/
inductive Mnemonic where
  | core (op : Opcode)
  | fifoReset
  | fifoAck
  | fifoFlush
  | trDrain
deriving DecidableEq, Repr

/-- The mnemonics and their spelling (R76, R86, R87). -/
def mnemonics : List (List Char × Mnemonic) :=
  [("FIFO.INIT".toList, .core .fifoInit), ("FIFO.SEND".toList, .core .fifoSend), ("FIFO.RECV".toList, .core .fifoRecv),
    ("FIFO.CNT".toList, .core .fifoCnt), ("FIFO.RDCNT".toList, .core .fifoRdcnt), ("TR.RESET".toList, .core .trReset),
    ("TR.SETRATE".toList, .core .trSetrate), ("TR.SETCH".toList, .core .trSetch), ("TR.SETAA".toList, .core .trSetaa)] ++
  [("TR.PUT".toList, .core .trPut), ("TR.RECEIVE".toList, .core .trReceive), ("TR.CLEAR".toList, .core .trClear),
    ("TR.ISEMPTY".toList, .core .trIsempty), ("FIFO.RESET".toList, .fifoReset), ("FIFO.ACK".toList, .fifoAck),
    ("FIFO.FLUSH".toList, .fifoFlush), ("TR.DRAIN".toList, .trDrain)]

/-- The command of a mnemonic and its operands (R86). -/
def coreCommand (fmt : PutFormat) (op : Opcode) (args : List (List Char)) : Option Instr :=
  match op, args with
  | .fifoInit, [p] => (procLit p).map .fifoInit
  | .fifoSend, [p, v] =>
    match procLit p, intLit 32 v with
    | some p, some v => some (.fifoSend p v)
    | _, _ => none
  | .fifoRecv, [p] => (procLit p).map .fifoRecv
  | .fifoCnt, [p, v] =>
    match procLit p, intLit 16 v with
    | some p, some v => some (.fifoCnt p v)
    | _, _ => none
  | .fifoRdcnt, [p] => (procLit p).map .fifoRdcnt
  | .trReset, [] => some .trReset
  | .trSetrate, [r] => (f32Lit r).map .trSetrate
  | .trSetch, [n] => (intLit 32 n).map .trSetch
  | .trSetaa, [b] => (intLit 1 b).map (fun b => .trSetaa (b.getLsbD 0))
  | .trPut, args => putLits fmt args
  | .trReceive, [n] => (intLit 32 n).map .trReceive
  | .trClear, [] => some .trClear
  | .trIsempty, [] => some .trIsempty
  | _, _ => none

/-- The commands of one line: none when it is no line of the syntax, the empty list for a blank or comment line. A pseudo-instruction gives its
expansion (R87). -/
def assembleChars (fmt : PutFormat) (line : List Char) : Option (List Instr) :=
  match trim (stripComment line) with
  | [] => some []
  | text =>
    let name := text.takeWhile (fun c => !c.isWhitespace)
    let args := operands (text.dropWhile (fun c => !c.isWhitespace))
    match mnemonics.find? (fun m => m.1 == name) with
    | none => none
    | some (_, .core op) => (coreCommand fmt op args).map (fun i => [i])
    | some (_, .fifoReset) => if args = [] then some (Pseudo.expand .fifoReset) else none
    | some (_, .trDrain) => if args = [] then some (Pseudo.expand .trDrain) else none
    | some (_, .fifoAck) =>
      match args with
      | [p, ctl] =>
        match procLit p, intLit 16 ctl with
        | some p, some ctl => some (Pseudo.expand (.fifoAck p ctl))
        | _, _ => none
      | _ => none
    | some (_, .fifoFlush) =>
      match args with
      | [p, ctl] =>
        match procLit p, intLit 16 ctl with
        | some p, some ctl => some (Pseudo.expand (.fifoFlush p ctl))
        | _, _ => none
      | _ => none

/-- The commands of one line of text. -/
def assemble (fmt : PutFormat) (line : String) : Option (List Instr) := assembleChars fmt line.toList

end Sys2Proof.Machine.Asm
end

