-- ==== Sys2Proof/Tests/Slice0.lean ====
section
/-! SUPPORT. Tests from the spec's vectors (95_test_vectors.md, cited as V-…) and from words written out by hand from 30_encoding.md, and one witness theorem for every
obligation that has hypotheses. -/

namespace Sys2Proof.Tests

open Sys2Proof Sys2Proof.Machine

/-! ### Helpers -/

/-- The words of a list of numbers. -/
def words (ns : List Nat) : List U32 := ns.map (BitVec.ofNat 32)

/-- A queue with the given words, the oldest at `head`. -/
def queueOf (head : Fin 16) (ns : List Nat) : Queue := (words ns).foldl Queue.push { Queue.zero with head := head, tail := head }

/-- An initialised unit A over the reset state. -/
def fifo (c0 c1 : U16) (q0 q1 : Queue) : State :=
  { State.reset with unitA := { cnt := ⟨c0, c1⟩, queue := ⟨q0, q1⟩, init := ⟨true, true⟩ } }

/-- Both processors after FIFO.RESET (R222). -/
def ready : State := fifo 0x8101#16 0x8101#16 Queue.zero Queue.zero

/-- A FIXED unit B over the reset state, filter off. -/
def fixedB (ch : Channels) (rate cutoff : Nat) (step : Nat) (lane : Lane I16 Nat) : State :=
  { State.reset with unitB := { rate := BitVec.ofNat 32 rate, cutoff := BitVec.ofNat 32 cutoff, channels := ch, aaEnable := false, datapath := .fixed step lane } }

/-- A FLOAT unit B over the reset state, filter off. -/
def floatB (ch : Channels) (rate cutoff : Nat) (lane : Lane F32 F32) : State :=
  { State.reset with unitB := { rate := BitVec.ofNat 32 rate, cutoff := BitVec.ofNat 32 cutoff, channels := ch, aaEnable := false, datapath := .float lane } }

/-- One step on one command's words. -/
def after (s : State) (ns : List Nat) : Result := step { s with port := [.command .producer (words ns)] }

/-- What a step of unit A shows: both registers, the queued words of both processors, the result words and the events. -/
def viewA : Result → Option (List U16 × List (List U32) × List U32 × List Event)
  | .next t => t.outputs.getLast?.map (fun r => ([t.cnt .p0, t.cnt .p1], [(t.queue .p0).contents, (t.queue .p1).contents], r.result, r.events))
  | .fault _ => none
  | .refused _ => none

/-- What a step of unit B shows: the unit, the result words and the events. -/
def viewB : Result → Option (UnitB × List U32 × List Event)
  | .next t => t.outputs.getLast?.map (fun r => (t.unitB, r.result, r.events))
  | .fault _ => none
  | .refused _ => none

/-- The fault or refusal a step ends in. -/
def stops : Result → Option (Fault ⊕ Refusal)
  | .next _ => none
  | .fault f => some (.inl f)
  | .refused r => some (.inr r)

/-- The frames a block of i16 samples has, from integers. -/
def frames16 (x : List (List Int)) : List (List I16) := x.map (fun f => f.map (BitVec.ofInt 16))

/-! ### Well-formedness: an ill-formed term for each check -/

theorem test_wf_accepts : Instr.wellFormed ⟨.stereo, .fixed⟩ (.trPut (.i16 (frames16 [[1, -1], [2, -2]]))) = true := by decide
theorem test_wf_refuses_variant : Instr.wellFormed ⟨.mono, .fixed⟩ (.trPut (.f32 [[0x3F800000#32]])) = false := by decide
theorem test_wf_refuses_width : Instr.wellFormed ⟨.stereo, .fixed⟩ (.trPut (.i16 (frames16 [[1, -1], [2]]))) = false := by decide
theorem test_wf_refuses_length (n : Nat) (h : 2 ^ 32 ≤ n) : Instr.wellFormed ⟨.mono, .float⟩ (.trPut (.f32 (List.replicate n [0#32]))) = false := by
  have h : ¬ n < 2 ^ 32 := by omega
  simp only [Instr.wellFormed, Block.wellFormed, Block.length, List.length_replicate, decide_eq_false h, Bool.and_false]

/-! ### Decoding: a word for every constructor, bit by bit from R70 to R83, and the refusals of V-D3 to V-D10 -/

-- OPC 0x01 = 00000001, P = 1 is bit 8, RES = 0
theorem test_decode_init : decode PutFormat.reset [0b00000000000000000000000100000001#32] = .ok (.fifoInit .p1) := by decide
-- V-D1, V-D2: OPC 0x02 = 00000010
theorem test_decode_send : decode PutFormat.reset [0b00000000000000000000000000000010#32, 0x12345678#32] = .ok (.fifoSend .p0 0x12345678#32) ∧
    decode PutFormat.reset [0b00000000000000000000000100000010#32, 0x12345678#32] = .ok (.fifoSend .p1 0x12345678#32) := by decide
theorem test_decode_recv : decode PutFormat.reset [0b00000000000000000000000100000011#32] = .ok (.fifoRecv .p1) := by decide
theorem test_decode_cnt : decode PutFormat.reset [0b00000000000000000000000000000100#32, 0x0000FFFF#32] = .ok (.fifoCnt .p0 0xFFFF#16) := by decide
theorem test_decode_rdcnt : decode PutFormat.reset [0b00000000000000000000000000000101#32] = .ok (.fifoRdcnt .p0) := by decide
-- OPC 0x10 to 0x17 = 00010000 to 00010111
theorem test_decode_reset : decode PutFormat.reset [0b00000000000000000000000000010000#32] = .ok .trReset := by decide
theorem test_decode_setrate : decode PutFormat.reset [0b00000000000000000000000000010001#32, 0x3F000000#32] = .ok (.trSetrate 0x3F000000#32) := by decide
theorem test_decode_setch : decode PutFormat.reset [0b00000000000000000000000000010010#32, 0x00000003#32] = .ok (.trSetch 3#32) := by decide
theorem test_decode_setaa : decode PutFormat.reset [0b00000000000000000000000000010011#32, 0x00000001#32] = .ok (.trSetaa true) := by decide
-- R82: L before R, each sign-extended
theorem test_decode_put : decode PutFormat.reset [0b00000000000000000000000000010100#32, 2#32, 1#32, 0xFFFFFFFF#32, 2#32, 0xFFFFFFFE#32] =
    .ok (.trPut (.i16 (frames16 [[1, -1], [2, -2]]))) := by decide
theorem test_decode_receive : decode PutFormat.reset [0b00000000000000000000000000010101#32, 0xFFFFFFFF#32] = .ok (.trReceive 0xFFFFFFFF#32) := by decide
theorem test_decode_clear : decode PutFormat.reset [0b00000000000000000000000000010110#32] = .ok .trClear := by decide
theorem test_decode_isempty : decode PutFormat.reset [0b00000000000000000000000000010111#32] = .ok .trIsempty := by decide

-- V-D3 to V-D10; and a word too few and a word too many (log 6)
theorem test_decode_reserved_opcode : decode PutFormat.reset [0#32] = .error .reservedOpcode ∧ decode PutFormat.reset [6#32] = .error .reservedOpcode ∧
    decode PutFormat.reset [0x18#32] = .error .reservedOpcode ∧ decode PutFormat.reset [0xFF#32] = .error .reservedOpcode := by decide
theorem test_decode_reserved_bits : decode PutFormat.reset [0x202#32] = .error .reservedBits ∧ decode PutFormat.reset [0x110#32] = .error .reservedBits ∧
    decode PutFormat.reset [4#32, 0x10000#32] = .error .reservedBits ∧ decode PutFormat.reset [0x13#32, 2#32] = .error .reservedBits ∧
    decode ⟨.mono, .fixed⟩ [0x14#32, 1#32, 0x8000#32] = .error .reservedBits := by decide
theorem test_decode_word_count : decode PutFormat.reset [] = .error .wordCount ∧ decode PutFormat.reset [2#32] = .error .wordCount ∧
    decode PutFormat.reset [1#32, 0#32] = .error .wordCount ∧ decode ⟨.stereo, .fixed⟩ [0x14#32, 1#32, 0#32] = .error .wordCount := by decide

-- the host's numbering: operand words of zeros
theorem test_table_word : decodeTableWord 32 0x102 = some (.fifoSend .p1 0#32) ∧ decodeTableWord 64 0x1234567800000102 = some (.fifoSend .p1 0x12345678#32) ∧
    decodeTableWord 32 0x14 = some (.trPut (.i16 [])) ∧ decodeTableWord 32 0x18 = none := by decide

/-! ### Unit A, one step each -/

-- V-F1's first command on the power-on state, and V-F18: INIT with the peer's REMPTY stale
theorem test_init : (match after State.reset [0x001] with
      | .next t => decide (t.cnt .p0 = 0x8101#16 ∧ t.unitA.init.get .p0 = true ∧ t.unitA.init.get .p1 = false)
      | _ => false) = true := by decide
theorem test_init_peer_stale : viewA (after (fifo 0x8100#16 0x8001#16 (queueOf 0 [1]) Queue.zero) [0x001]) =
    some ([0x8101#16, 0x8001#16], [[], []], [], []) := by decide
-- V-F2; the 16th word of V-F4 with V-F10b's request
theorem test_send : viewA (after ready [0x002, 0xDEADBEEF]) = some ([0x8100#16, 0x8001#16], [[0xDEADBEEF#32], []], [], [.resched]) := by decide
theorem test_send_fills : viewA (after (fifo 0x8100#16 0x8401#16 (queueOf 3 (List.range 15)) Queue.zero) [0x002, 15]) =
    some ([0x8102#16, 0x8601#16], [words (List.range 16), []], [], [.irq .p1 .recvNonempty, .resched]) := by decide
-- V-F7; V-F11c with the queue's head at 15 (R36)
theorem test_recv_underflow : viewA (after ready [0x103]) = some ([0x8101#16, 0xC101#16], [[], []], [0#32], []) := by decide
theorem test_recv_empties : viewA (after (fifo 0x8104#16 0x8001#16 (queueOf 15 [9]) Queue.zero) [0x103]) =
    some ([0x8105#16, 0x8101#16], [[], []], [9#32], [.irq .p0 .sendEmpty, .resched]) := by decide
-- V-F13; V-F16
theorem test_cnt_levels : viewA (after (fifo 0x8001#16 0x8100#16 Queue.zero (queueOf 0 [0xAA])) [0x004, 0x8404]) =
    some ([0x8405#16, 0x8100#16], [[], [0xAA#32]], [], [.irq .p0 .sendEmpty, .irq .p0 .recvNonempty, .resched]) := by decide
theorem test_cnt_clear : viewA (after (fifo 0xC100#16 0x8001#16 (queueOf 0 [1, 2]) Queue.zero) [0x004, 0xC00C]) =
    some ([0x8105#16, 0x8101#16], [[], []], [], [.irq .p0 .sendEmpty, .resched]) := by decide
-- V-F19; V-D14
theorem test_rdcnt : viewA (after ready [0x005]) = some ([0x8101#16, 0x8101#16], [[], []], [0x00008101#32], []) := by decide
theorem test_rdcnt_uninit : stops (after State.reset [0x105]) = some (.inl (.uninit .p1)) := by decide

/-! ### Unit B, one step each -/

-- R223: from values that all differ from the table
theorem test_tr_reset : viewB (after (fixedB .mono 0x40000000 0x3E800000 131072 ⟨5, 7#16, 8#16, [[1#16]], [], [[2#16]]⟩) [0x010]) =
    some (⟨0x3F800000#32, 0x3F000000#32, .stereo, true, .fixed 65536 ⟨0, 0#16, 0#16, [], [], []⟩⟩, [], []) := by decide +kernel
-- V-T8a; V-T8g on a FLOAT unit with V-T8h
theorem test_setrate : viewB (after State.reset [0x011, 0x3EAAAAAB]) =
    some (⟨0x3EAAAAAB#32, 0x3E2AAAAB#32, .stereo, true, .fixed 21845 ⟨0, 0#16, 0#16, [], [], []⟩⟩, [], []) := by decide +kernel
theorem test_setrate_range : (match after State.reset [0x011, 0x43800000] with
      | .next t => decide (t.unitB.cutoff = 0x3B000000#32 ∧ t.unitB.datapath = .fixed 16777216 ⟨0, 0#16, 0#16, [], [], []⟩)
      | _ => false) = true ∧
    stops (after State.reset [0x011, 0x43800001]) = some (.inr (.rateRange 0x43800001#32)) ∧ stops (after State.reset [0x011, 0x377FFFFF]) = some (.inr (.rateRange 0x377FFFFF#32)) ∧
    stops (after State.reset [0x011, 0x7FC00000]) = some (.inr (.rateRange 0x7FC00000#32)) := by decide +kernel
-- V-T9f; V-T9d and V-T9e
theorem test_setch : viewB (after (fixedB .stereo 0x3F800000 0x3F000000 65536 ⟨65536, 5#16, 6#16, [], [], []⟩) [0x012, 1]) =
    some (⟨0x3F800000#32, 0x3F000000#32, .mono, false, .fixed 65536 ⟨0, 0#16, 0#16, [], [], []⟩⟩, [], []) := by decide
theorem test_setch_stops : stops (after (fixedB .stereo 0x3F800000 0x3F000000 65536 ⟨65536, 5#16, 6#16, [], [], [[0#16, 0#16], [5#16, 6#16]]⟩) [0x012, 1]) =
      some (.inr .channelChangeNonempty) ∧
    stops (after (fixedB .stereo 0x3F800000 0x3F000000 65536 ⟨65536, 5#16, 6#16, [], [], [[0#16, 0#16], [5#16, 6#16]]⟩) [0x012, 7]) = some (.inl (.channels 7#32)) := by decide
-- V-T9g
theorem test_setaa : viewB (after State.reset [0x013, 0]) = some ({ UnitB.reset .fixed with aaEnable := false }, [], []) := by decide
-- V-T4's first put; V-T7
theorem test_put_fixed : viewB (after (fixedB .mono 0x40000000 0x3E800000 131072 (Lane.reset 0#16 0)) [0x014, 5, 10, 20, 30, 40, 50]) =
    some (⟨0x40000000#32, 0x3E800000#32, .mono, false, .fixed 131072 ⟨65536, 50#16, 0#16, [], [], [[0#16], [20#16], [40#16]]⟩⟩, [], []) := by decide +kernel
theorem test_put_float : viewB (after (floatB .mono 0x3F000000 0x3E800000 (Lane.reset 0#32 0#32)) [0x014, 1, 0x3F800000]) =
    some (⟨0x3F000000#32, 0x3E800000#32, .mono, false, .float ⟨0x3F000000#32, 0x3F800000#32, 0#32, [], [], [[0#32], [0x3F000000#32], [0x3F800000#32]]⟩⟩, [], []) := by
  decide +kernel
-- R150 and R83: stereo, L before R, the oldest frames first, the count first; more than there are
theorem test_receive : viewB (after (fixedB .stereo 0x3F800000 0x3F000000 65536 ⟨0, 0#16, 0#16, [], [], frames16 [[1, -1], [2, -2]]⟩) [0x015, 1]) =
    some (⟨0x3F800000#32, 0x3F000000#32, .stereo, false, .fixed 65536 ⟨0, 0#16, 0#16, [], [], frames16 [[2, -2]]⟩⟩, [1#32, 1#32, 0xFFFFFFFF#32], []) := by decide
theorem test_receive_all : viewB (after (floatB .mono 0x3F800000 0x3F000000 ⟨0#32, 0#32, 0#32, [], [], [[0x3F000000#32]]⟩) [0x015, 0xFFFFFFFF]) =
    some (⟨0x3F800000#32, 0x3F000000#32, .mono, false, .float ⟨0#32, 0#32, 0#32, [], [], []⟩⟩, [1#32, 0x3F000000#32], []) := by decide
-- V-T11: the phase and prev are kept
theorem test_clear : viewB (after (fixedB .mono 0x40000000 0x3E800000 131072 ⟨65536, 50#16, 0#16, [[1#16]], [], [[0#16], [20#16], [40#16]]⟩) [0x016]) =
    some (⟨0x40000000#32, 0x3E800000#32, .mono, false, .fixed 131072 ⟨65536, 50#16, 0#16, [], [], []⟩⟩, [], []) := by decide
-- V-T1; V-T18: a frame held in store
theorem test_isempty : viewB (after State.reset [0x017]) = some (UnitB.reset .fixed, [1#32], []) := by decide
theorem test_isempty_store : (viewB (after (fixedB .mono 0x3F800000 0x3F000000 65536 ⟨0, 0#16, 0#16, [[5#16]], [], []⟩) [0x017])).map (fun v => v.2.1) = some [0#32] := by decide

/-! ### Operations -/

-- V-T21
theorem test_interp_fixed : ([(0, 123, -7), (65536, 123, -7), (32768, -3, 2), (32768, 3, 4), (32768, -3, -4), (1, -32768, 32767), (65535, -32768, 32767),
      (0, -32768, -32768)].map (fun (v : Nat × Int × Int) => (interpFixed v.1 (BitVec.ofInt 16 v.2.1) (BitVec.ofInt 16 v.2.2)).toInt)) =
    [123, -7, 0, 3, -3, -32767, 32766, -32768] := by decide +kernel
-- V-T20: a step of 2^24 wraps many times on one put; V-T14's put that emits nothing
theorem test_put_wraps : ((transposeFrom (fixedKernel 16777216 0#32) [0#16] (frames16 [[1], [2], [3]]) 0 0).map (fun r => (r.acc, r.frames))) =
      some (16777216 - 3 * 65536, [[0#16]]) ∧
    ((transposeFrom (fixedKernel 32768 0#32) [20#16] (frames16 [[30]]) 131072 0).map (fun r => (r.acc, r.frames))) = some (65536, []) := by decide +kernel
-- IEEE 754: 1/3 in binary32, ties to even at 2^24 + 1, the smallest subnormal halved, overflow, inf - inf, 0 x inf (hand calculation)
theorem test_float_rounding : FVal.toBits 0#32 (FVal.div (.ofBits 0x3F800000#32) (.ofBits 0x40400000#32)) = 0x3EAAAAAB#32 ∧
    FVal.toBits 0#32 (FVal.add (.ofBits 0x4B800000#32) (.ofBits 0x3F800000#32)) = 0x4B800000#32 ∧
    FVal.toBits 0#32 (FVal.mul (.ofBits 0x00000001#32) (.ofBits 0x3F000000#32)) = 0x00000000#32 ∧
    FVal.toBits 0#32 (FVal.mul (.ofBits 0xFF7FFFFF#32) (.ofBits 0x40000000#32)) = 0xFF800000#32 ∧
    FVal.sub (.ofBits 0x7F800000#32) (.ofBits 0x7F800000#32) = .nan ∧ FVal.mul (.ofBits 0#32) (.ofBits 0x7F800000#32) = .nan := by decide +kernel
-- R51, R53: 0x8405 at 0x184, low byte first; nothing before INIT
theorem test_bank : (fifo 0x8405#16 0x8101#16 Queue.zero Queue.zero).bankByte .p0 0x184 = some 0x05#8 ∧
    (fifo 0x8405#16 0x8101#16 Queue.zero Queue.zero).bankByte .p0 0x185 = some 0x84#8 ∧ State.reset.bankByte .p0 0x184 = none := by decide
-- R203
theorem test_irq_lines : IrqKind.line .sendEmpty = 17 ∧ IrqKind.line .recvNonempty = 18 := by decide
-- 0x40 << 20 (R51)
theorem test_cnt_address : cntAddr = 0x04000184 := by decide

/-! ### Assembler (R86) and pseudo-instructions (R87) -/

theorem test_asm_core : Asm.assemble PutFormat.reset "FIFO.SEND 1, 0xCAFE ; send" = some [.fifoSend .p1 0xCAFE#32] ∧
    Asm.assemble PutFormat.reset "  TR.PUT 1, 5, -6" = some [.trPut (.i16 (frames16 [[5, -6]]))] ∧
    Asm.assemble PutFormat.reset "TR.SETRATE 0.5" = some [.trSetrate 0x3F000000#32] ∧ Asm.assemble PutFormat.reset "; nothing" = some [] ∧
    Asm.assemble PutFormat.reset "TR.PUT 1, 5" = none := by decide +kernel
theorem test_asm_pseudo : Asm.assemble PutFormat.reset "FIFO.RESET" = some [.fifoInit .p0, .fifoInit .p1] ∧
    Asm.assemble PutFormat.reset "FIFO.ACK 1, 0x8000" = some [.fifoCnt .p1 0xC000#16] ∧
    Asm.assemble PutFormat.reset "FIFO.FLUSH 0, 0x8404" = some [.fifoCnt .p0 0x840C#16] ∧
    Asm.assemble PutFormat.reset "TR.DRAIN" = some [.trReceive 0xFFFFFFFF#32] := by decide +kernel

/-! ### The host's interface -/

theorem test_fetch_word : step (State.reset.withFetchWord 32 0x101) = exec (.fifoInit .p1) (State.reset.issue (.processor .p1) []) ∧
    step (State.reset.withFetchWord 32 0x14) = exec (.trPut (.i16 [])) (State.reset.issue .producer []) := ⟨rfl, rfl⟩
theorem test_empty_port : stops (step State.reset) = some (.inr .noCommand) ∧ State.reset.advance = State.reset := by decide

/-! ### Witnesses: states and operands that meet the hypotheses of the obligations, every clause at a boundary of its range -/

/-- 15 words from slot 3 on, sent by processor 0. -/
def fifteen : State := fifo 0x8100#16 0x8001#16 (queueOf 3 (List.range 15)) Queue.zero

/-- A full queue of processor 0, from slot 0 on. -/
def full : State := fifo 0x8102#16 0x8201#16 (queueOf 0 (List.range 16)) Queue.zero

/-- One word of processor 0, at slot 15. -/
def single : State := fifo 0x8100#16 0x8001#16 (queueOf 15 [9]) Queue.zero

/-- A request at the port. -/
def withPort (s : State) (r : Request) : State := { s with port := [r] }

theorem test_reset_unitB_inv : (UnitB.reset .fixed).Inv 32 := by
  refine ⟨by decide +kernel, by decide +kernel, ⟨by decide +kernel, by decide⟩, ⟨?_, ?_, rfl, by decide⟩⟩
  · intro f hf; cases hf
  · intro f hf; cases hf

theorem fifo_inv {c0 c1 : U16} {q0 q1 : Queue}
    (h : (q0.size ≤ 16 ∧ q0.size % 16 = (q0.tail - q0.head).val) ∧ (q1.size ≤ 16 ∧ q1.size % 16 = (q1.tail - q1.head).val))
    (h0 : c0 &&& Cnt.zeroBits = 0#16 ∧ Cnt.sempty c0 = q0.isEmpty ∧ Cnt.sfull c0 = q0.isFull)
    (h1 : c1 &&& Cnt.zeroBits = 0#16 ∧ Cnt.sempty c1 = q1.isEmpty ∧ Cnt.sfull c1 = q1.isFull) : (fifo c0 c1 q0 q1).Inv := by
  refine ⟨show Config.default.wf by decide, ⟨?_, ?_⟩, test_reset_unitB_inv⟩
  · intro p
    cases p
    · exact ⟨h.1.1, h.1.2⟩
    · exact ⟨h.2.1, h.2.2⟩
  · intro p _
    cases p
    · exact ⟨h0.1, h0.2.1, h0.2.2⟩
    · exact ⟨h1.1, h1.2.1, h1.2.2⟩

theorem test_ready_inv : ready.Inv := fifo_inv (by decide) (by decide) (by decide)
theorem test_fifteen_inv : fifteen.Inv := fifo_inv (by decide) (by decide) (by decide)
theorem test_full_inv : full.Inv := fifo_inv (by decide) (by decide) (by decide)
theorem test_single_inv : single.Inv := fifo_inv (by decide) (by decide) (by decide)

-- encoding: a block of one stereo frame, and of none
theorem test_witness_DecodeOfEncodeIsTheCommand : Instr.wellFormed ⟨.stereo, .fixed⟩ (.trPut (.i16 (frames16 [[1, -1]]))) = true ∧
    Instr.wellFormed ⟨.mono, .float⟩ (.trPut (.f32 [])) = true := by decide
theorem test_witness_EncodeOfDecodeIsTheWords : decode ⟨.mono, .fixed⟩ [0x14#32, 2#32, 0x7FFF#32, 0xFFFF8000#32] = .ok (.trPut (.i16 (frames16 [[32767], [-32768]]))) ∧
    decode ⟨.mono, .fixed⟩ [0x14#32, 0#32] = .ok (.trPut (.i16 [])) := by decide
theorem test_witness_ReservedCommandWordsAreRefused : decode PutFormat.reset (0x201#32 :: []) = .error .reservedBits ∧
    decode PutFormat.reset (0x80000105#32 :: [1#32]) = .error .reservedBits ∧ decode PutFormat.reset (0x110#32 :: []) = .error .reservedBits ∧
    decode PutFormat.reset (0x117#32 :: []) = .error .reservedBits ∧ decode PutFormat.reset (0xFFFFFF06#32 :: [1#32]) = .error .reservedOpcode ∧
    decode PutFormat.reset (0x0F#32 :: []) = .error .reservedOpcode ∧ decode PutFormat.reset (0x18#32 :: []) = .error .reservedOpcode := by decide
theorem test_witness_ReservedOperandBitsAreRefused :
    ([0x8000#32] : List U32).length = (1#32).toNat * Channels.mono.count ∧ ([] : List U32).length = (0#32).toNat * Channels.stereo.count ∧
    decode ⟨.mono, .fixed⟩ [0x14#32, 1#32, 0x8000#32] = .error .reservedBits ∧ decode ⟨.mono, .fixed⟩ [0x14#32, 1#32, 0xFFFF7FFF#32] = .error .reservedBits ∧
    decode ⟨.mono, .fixed⟩ [0x14#32, 1#32, 0x7FFF#32] ≠ .error .reservedBits ∧ decode ⟨.mono, .fixed⟩ [0x14#32, 1#32, 0xFFFF8000#32] ≠ .error .reservedBits ∧
    decode PutFormat.reset [0x104#32, 0xFFFF#32] ≠ .error .reservedBits ∧ decode PutFormat.reset [0x13#32, 1#32] ≠ .error .reservedBits := by decide

-- one step
theorem test_witness_StepRunsTheDecodedCommand :
    let s := withPort State.reset (.command .consumer [0x101#32])
    s.faultMark = none ∧ s.refusalMark = none ∧ s.port = [.command .consumer [0x101#32]] ∧ decode s.format [0x101#32] = .ok (.fifoInit .p1) ∧
    decode s.format [0x202#32] = .error .reservedBits := by decide
theorem test_witness_BusAccessesIssueTheirCommands :
    let s := withPort ready (.bus .p1 (.read16 0x04000184#32))
    s.faultMark = none ∧ s.refusalMark = none ∧ s.port = [.bus .p1 (.read16 0x04000184#32)] ∧
    ([.read8 0x04000184#32, .write8 0x04000185#32 1#8, .read16 0x04000183#32, .write16 0x04000185#32 1#16, .read32 0x04000181#32, .write32 0x04000185#32 1#32,
      .read32 0x04000184#32] : List BusAccess).all (fun a => decide (stops (step (withPort ready (.bus .p1 a))) = some (.inr .busWidth))) = true ∧
    stops (step (withPort ready (.bus .p1 (.read32 0x04000180#32)))) = some (.inr .busAddress) := by decide
theorem test_witness_bus_commands : viewA (step (withPort ready (.bus .p1 (.write16 0x04000184#32 0x8404#16)))) =
      some ([0x8101#16, 0x8505#16], [[], []], [], [.irq .p1 .sendEmpty, .resched]) ∧
    viewA (step (withPort ready (.bus .p0 (.write32 0x04000188#32 7#32)))) = some ([0x8100#16, 0x8001#16], [[7#32], []], [], [.resched]) ∧
    viewA (step (withPort single (.bus .p1 (.read32 0x04100000#32)))) = some ([0x8101#16, 0x8101#16], [[], []], [9#32], [.resched]) :=
  ⟨by decide, by decide, by decide⟩
theorem test_witness_StopsAreRecordedForGood : stops (after State.reset [0x105]) = some (.inl (.uninit .p1)) ∧
    stops (after State.reset [0x202]) = some (.inr .reservedBits) ∧ (State.reset.recordFault (.uninit .p1)).faultMark ≠ none ∧
    (State.reset.recordRefusal .reservedBits).refusalMark ≠ none := by decide
theorem test_witness_FaultsAndRefusalsAreTheListedOnes : stops (execTrSetrate 0#32 ready) = some (.inr (.rateRange 0#32)) ∧
    stops (execTrPut (.f32 []) ready) = some (.inr .illFormedPut) ∧ State.reset.unitA.ready = false := by decide +kernel

-- any command that answers a next state
theorem test_witness_EveryCommandKeepsTheCommonFrame : ∃ t, exec (.fifoSend .p0 5#32) ready = .next t := ⟨_, rfl⟩
theorem test_witness_UnitsCommute : (Instr.fifoSend .p0 5#32).proc? ≠ none ∧ Instr.trClear.proc? = none ∧
    (∃ t u, exec (.fifoSend .p0 5#32) ready = .next t ∧ exec .trClear t = .next u) ∧ (∃ t' u', exec .trClear ready = .next t' ∧ exec (.fifoSend .p0 5#32) t' = .next u') ∧
    (∃ t, exec (.fifoSend .p0 5#32) ready = .next t ∧ stops (exec (.trSetch 7#32) t) = some (.inl (.channels 7#32)) ∧
      stops (exec (.trSetrate 0#32) t) = some (.inr (.rateRange 0#32))) ∧
    (∃ t', exec .trClear State.reset = .next t' ∧ stops (exec (.fifoSend .p0 5#32) t') = some (.inl (.uninit .p0))) :=
  ⟨by decide, rfl, ⟨_, _, rfl, rfl⟩, ⟨_, _, rfl, rfl⟩, ⟨_, rfl, by decide +kernel, by decide +kernel⟩, _, rfl, by decide⟩
-- unit A
theorem test_witness_DisabledSenderSendsNothing : (fifo 0x0101#16 0x8101#16 Queue.zero Queue.zero).unitA.ready = true ∧
    Cnt.enable ((fifo 0x0101#16 0x8101#16 Queue.zero Queue.zero).cnt .p0) = false ∧
    (let s := fifo 0x8100#16 0x0001#16 (queueOf 3 (List.range 15)) Queue.zero
     s.unitA.ready = true ∧ Cnt.enable (s.cnt .p0) = true ∧ (s.queue .p0).size = 15 ∧ Cnt.enable (s.cnt .p1) = false) := by decide
theorem test_witness_SendIntoFullQueueOnlySetsError : full.unitA.ready = true ∧ Cnt.enable (full.cnt .p0) = true ∧ (full.queue .p0).size = 16 := by decide
theorem test_witness_SendAppendsOneWord : fifteen.unitA.ready = true ∧ Cnt.enable (fifteen.cnt .p0) = true ∧ (fifteen.queue .p0).size = 15 ∧
    ready.unitA.ready = true ∧ Cnt.enable (ready.cnt .p0) = true ∧ (ready.queue .p0).size = 0 := by decide
theorem test_witness_DisabledReceiverReceivesZero : (fifo 0x8101#16 0x0101#16 Queue.zero Queue.zero).unitA.ready = true ∧
    Cnt.enable ((fifo 0x8101#16 0x0101#16 Queue.zero Queue.zero).cnt .p1) = false ∧
    (let s := fifo 0x0100#16 0x8001#16 (queueOf 15 [9]) Queue.zero
     s.unitA.ready = true ∧ Cnt.enable (s.cnt .p1) = true ∧ (s.queue Proc.p1.peer).size = 1 ∧ Cnt.enable (s.cnt Proc.p1.peer) = false) := by decide
theorem test_witness_RecvFromEmptyQueueOnlySetsError : ready.unitA.ready = true ∧ Cnt.enable (ready.cnt .p1) = true ∧ (ready.queue Proc.p1.peer).size = 0 := by decide
theorem test_witness_RecvTakesOneWord : single.unitA.ready = true ∧ Cnt.enable (single.cnt .p1) = true ∧ (single.queue Proc.p1.peer).size = 1 ∧
    full.unitA.ready = true ∧ Cnt.enable (full.cnt .p1) = true ∧ (full.queue Proc.p1.peer).size = 16 := by decide
theorem test_witness_CntConfiguresTheRegister : full.unitA.ready = true ∧ (0x0008#16).getLsbD 3 = true ∧ (0xFFF7#16).getLsbD 3 = false := by decide
theorem test_witness_CntTestsTheLevelsAfterItsUpdate : ∃ t result events, exec (.fifoCnt .p0 0x8404#16) ready = .next t ∧ Completed ready t result events :=
  ⟨_, _, _, rfl, ⟨rfl, rfl, rfl, rfl, rfl, rfl, rfl⟩⟩
theorem test_witness_RdcntReadsTheRegister : ready.unitA.ready = true := by decide
theorem test_witness_BankLocationIsTheRegister : ready.unitA.init.get .p1 = true ∧ (0 : Nat) ≠ 0x184 ∧ (0 : Nat) ≠ 0x185 := by decide
theorem test_witness_SendEmptyHasExactlyTwoSources : ∃ t result events, exec (.fifoRecv .p1) single = .next t ∧ Completed single t result events :=
  ⟨_, _, _, rfl, ⟨rfl, rfl, rfl, rfl, rfl, rfl, rfl⟩⟩
theorem test_witness_RecvNonemptyHasExactlyTwoSources : ∃ t result events, exec (.fifoSend .p0 1#32) fifteen = .next t ∧ Completed fifteen t result events :=
  ⟨_, _, _, rfl, ⟨rfl, rfl, rfl, rfl, rfl, rfl, rfl⟩⟩
theorem test_witness_ReschedIsLastAndOnlyOnSuccess : Succeeds fifteen (.fifoSend .p0 1#32) ∧ Succeeds single (.fifoRecv .p1) ∧ Succeeds ready (.fifoCnt .p0 0#16) ∧
    ¬ Succeeds full (.fifoSend .p0 1#32) ∧ (∃ t result events, exec (.fifoSend .p0 1#32) full = .next t ∧ Completed full t result events) :=
  ⟨by constructor <;> decide, by constructor <;> decide, trivial, by rintro ⟨-, h⟩; revert h; decide, _, _, _, rfl, ⟨rfl, rfl, rfl, rfl, rfl, rfl, rfl⟩⟩
theorem test_witness_RequestsComeInTheStatedOrder : ∃ t result events, exec (.fifoCnt .p0 0x8404#16) fifteen = .next t ∧ Completed fifteen t result events :=
  ⟨_, _, _, rfl, ⟨rfl, rfl, rfl, rfl, rfl, rfl, rfl⟩⟩
-- ERROR set by an overflow, and cleared by an acknowledge
theorem test_witness_ErrorBitChangesOnlyAsStated :
    (∃ t, exec (.fifoSend .p0 1#32) full = .next t ∧ Cnt.error (full.cnt .p0) = false ∧ Cnt.error (t.cnt .p0) = true) ∧
    (∃ t, exec (.fifoCnt .p1 0x4000#16) (fifo 0x8101#16 0xC101#16 Queue.zero Queue.zero) = .next t ∧
      Cnt.error ((fifo 0x8101#16 0xC101#16 Queue.zero Queue.zero).cnt .p1) = true ∧ Cnt.error (t.cnt .p1) = false) :=
  ⟨⟨_, rfl, by decide, by decide⟩, _, rfl, by decide, by decide⟩
theorem test_witness_OnlyInitBreaksReceiverAgreement : fifteen.Inv ∧ fifteen.unitA.ready = true ∧ (∀ p, fifteen.unitA.ReceiverAgrees p) ∧
    (∀ p, Instr.fifoSend .p0 1#32 ≠ .fifoInit p) ∧ ∃ t, exec (.fifoSend .p0 1#32) fifteen = .next t :=
  ⟨test_fifteen_inv, by decide, by intro p; cases p <;> constructor <;> decide, by intro p; simp, _, rfl⟩
theorem test_witness_QueueIsAFirstInFirstOutList : fifteen.Inv ∧ fifteen.unitA.ready = true ∧ Succeeds fifteen (.fifoSend .p0 1#32) ∧ Succeeds fifteen (.fifoRecv .p1) :=
  ⟨test_fifteen_inv, by decide, by constructor <;> decide, by constructor <;> decide⟩
theorem test_witness_SendsThenReceivesRoundTrip : ready.Inv ∧ ready.unitA.ready = true ∧ Cnt.enable (ready.cnt .p0) = true ∧ Cnt.enable (ready.cnt Proc.p0.peer) = true ∧
    (ready.queue .p0).size = 0 ∧ (words (List.range 16)).length = 16 := ⟨test_ready_inv, by decide, by decide, by decide, by decide, by decide⟩
-- processor 1 not initialised, another register value there
theorem test_witness_ContentsBeforeInitCannotBeSeen :
    SameWhereInitialised State.reset { State.reset with unitA := { State.reset.unitA with cnt := ⟨0xFFFF#16, 0x1234#16⟩, queue := ⟨queueOf 3 [1], queueOf 0 [2]⟩ } } :=
  ⟨rfl, (fun p h => by cases p <;> cases h), (fun p h => by cases p <;> cases h)⟩
-- another word in a free slot
theorem test_witness_FreeSlotsCannotBeSeen : ready.Inv ∧
    SameButFreeSlots ready (fifo 0x8101#16 0x8101#16 { Queue.zero with buf := Vector.replicate 16 7#32 } Queue.zero) :=
  ⟨test_ready_inv, ⟨rfl, by intro p; cases p <;> rfl, by intro p; cases p <;> rfl, by intro p; cases p <;> rfl, by intro p; cases p <;> rfl⟩⟩

-- invariants
theorem test_witness_EveryStepKeepsTheInvariant : (withPort fifteen (.command (.processor .p0) [2#32, 5#32])).Inv ∧
    ∃ t, step (withPort fifteen (.command (.processor .p0) [2#32, 5#32])) = .next t :=
  ⟨⟨test_fifteen_inv.cfg, test_fifteen_inv.unitA, test_fifteen_inv.unitB⟩, _, rfl⟩
theorem test_witness_PowerOnMeetsTheInvariant : Config.wf ⟨1, true⟩ := by decide

-- unit B
-- 2^-16 and 2^8 are admitted, the patterns beside them not
theorem test_witness_SetrateStoresAnAdmittedRate : rateAdmitted 0x37800000#32 = true ∧ rateAdmitted 0x43800000#32 = true ∧ rateAdmitted 0x377FFFFF#32 = false ∧
    rateAdmitted 0x43800001#32 = false ∧ rateAdmitted 0x80000000#32 = false := by decide +kernel
theorem test_witness_setrate_bounds : (f32Finite 0x37800000#32 ∧ 1 / 2 ^ 16 ≤ f32Value 0x37800000#32 ∧ f32Value 0x37800000#32 ≤ 2 ^ 8) ∧
    (f32Finite 0x43800000#32 ∧ 1 / 2 ^ 16 ≤ f32Value 0x43800000#32 ∧ f32Value 0x43800000#32 ≤ 2 ^ 8) ∧ ¬ f32Value 0#32 ≥ 1 / 2 ^ 16 := by
  refine ⟨⟨?_, ?_, ?_⟩, ⟨?_, ?_, ?_⟩, ?_⟩ <;> simp [f32Value, f32Finite] <;> norm_num
theorem test_witness_StepIsTheRoundedRate : rateAdmitted 0x37800000#32 = true ∧ stepOf 0x37800000#32 = 1 ∧ rateAdmitted 0x43800000#32 = true ∧
    stepOf 0x43800000#32 = 16777216 ∧ rateAdmitted 0x37C00000#32 = true ∧ stepOf 0x37C00000#32 = 2 := by decide +kernel
theorem test_witness_CutoffIsTheNearestFloat : rateAdmitted 0x37800000#32 = true ∧ cutoffOf 0x37800000#32 = 0x37000000#32 ∧ rateAdmitted 0x3F800000#32 = true ∧
    cutoffOf 0x3F800000#32 = 0x3F000000#32 ∧ rateAdmitted 0x43800000#32 = true ∧ cutoffOf 0x43800000#32 = 0x3B000000#32 := by decide +kernel
theorem test_witness_RoundingIsToNearestEven : (0 : Nat) < 1 ∧ 0 < (2 ^ 25 - 1) * 2 ^ 252 * 1 ∧ (2 ^ 25 - 1) * 2 ^ 252 * 1 ≤ (2 ^ 25 - 1) * 2 ^ 252 := by
  refine ⟨by decide, by positivity, by rw [Nat.mul_one]⟩
theorem test_witness_SetchFollowsItsFourCases : (0#32 ≠ 1#32 ∧ 0#32 ≠ 2#32 ∧ 3#32 ≠ 1#32 ∧ (3#32 : U32) ≠ 2#32) ∧ (2#32).toNat = State.reset.unitB.channels.count ∧
    (1#32).toNat ≠ State.reset.unitB.channels.count ∧ State.reset.unitB.datapath.storeLength = 0 ∧ State.reset.unitB.datapath.outputLength = 0 ∧
    (fixedB .stereo 0 0 0 ⟨0, 0#16, 0#16, [[1#16, 1#16]], [], []⟩).unitB.datapath.storeLength ≠ 0 := by decide
theorem test_witness_PutCompletes : State.reset.Inv ∧ (Block.i16 (frames16 [[1, 2]])).wellFormed State.reset.format = true ∧
    (Block.i16 []).wellFormed State.reset.format = true ∧ (Block.i16 []).length = 0 := by
  refine ⟨⟨by decide, ⟨?_, ?_⟩, test_ready_inv.unitB⟩, by decide, by decide, rfl⟩
  · intro p; cases p <;> exact Queue.zero_inv
  · intro p h; cases p <;> cases h
theorem test_witness_PutDirectAppendsTheTransposedFrames :
    (let s := fixedB .mono 0x40000000 0x3E800000 131072 (Lane.reset 0#16 0)
     s.unitB.aaEnable = false ∧ (∃ lane, s.unitB.datapath = .fixed 131072 lane) ∧ frames16 [[1]] ≠ [] ∧ ∃ t, exec (.trPut (.i16 (frames16 [[1]]))) s = .next t) ∧
    (let s := floatB .mono 0x40000000 0x3E800000 (Lane.reset 0#32 0#32)
     s.unitB.aaEnable = false ∧ (∃ lane, s.unitB.datapath = .float lane) ∧ ∃ t, exec (.trPut (.f32 [[0#32]])) s = .next t) :=
  ⟨⟨rfl, ⟨_, rfl⟩, by decide, ⟨_, rfl⟩⟩, rfl, ⟨_, rfl⟩, ⟨_, rfl⟩⟩
/-- A FIXED unit B, mono, filter on, with a lane. -/
def filtering (rate cutoff step : Nat) (lane : Lane I16 Nat) : State :=
  { State.reset with unitB := { rate := BitVec.ofNat 32 rate, cutoff := BitVec.ofNat 32 cutoff, channels := .mono, aaEnable := true, datapath := .fixed step lane } }

/-- The same in FLOAT. -/
def filteringF (rate cutoff : Nat) (lane : Lane F32 F32) : State :=
  { State.reset with unitB := { rate := BitVec.ofNat 32 rate, cutoff := BitVec.ofNat 32 cutoff, channels := .mono, aaEnable := true, datapath := .float lane } }

-- 0x3F7FFFFF is the largest rate below 1 (V-T19)
theorem test_witness_PutUpsampleInterpolatesThenFilters :
    (let s := filtering 0x3F000000 0x3E800000 32768 (Lane.reset 0#16 0)
     s.unitB.aaEnable = true ∧ f32Finite s.unitB.rate ∧ f32Value s.unitB.rate < 1 ∧ (∃ t, exec (.trPut (.i16 (frames16 [[1]]))) s = .next t)) ∧
    (let s := filteringF 0x3F7FFFFF 0x3EFFFFFF (Lane.reset 0#32 0#32)
     s.unitB.aaEnable = true ∧ f32Finite s.unitB.rate ∧ f32Value s.unitB.rate < 1 ∧ (∃ t, exec (.trPut (.f32 [[0#32]])) s = .next t)) := by
  refine ⟨⟨rfl, ?_, ?_, _, rfl⟩, rfl, ?_, ?_, _, rfl⟩ <;> simp [f32Value, f32Finite, filtering, filteringF] <;> norm_num
-- 1.0 itself takes this path (V-T19)
theorem test_witness_PutDownsampleFiltersThenInterpolates :
    (let s := filtering 0x3F800000 0x3F000000 65536 (Lane.reset 0#16 0)
     s.unitB.aaEnable = true ∧ f32Finite s.unitB.rate ∧ 1 ≤ f32Value s.unitB.rate ∧ (∃ t, exec (.trPut (.i16 (frames16 [[1]]))) s = .next t)) ∧
    (let s := filteringF 0x43800000 0x3B000000 (Lane.reset 0#32 0#32)
     s.unitB.aaEnable = true ∧ f32Finite s.unitB.rate ∧ 1 ≤ f32Value s.unitB.rate ∧ (∃ t, exec (.trPut (.f32 [[0#32]])) s = .next t)) := by
  refine ⟨⟨rfl, ?_, ?_, _, rfl⟩, rfl, ?_, ?_, _, rfl⟩ <;> simp [f32Value, f32Finite, filtering, filteringF] <;> norm_num
-- V-T4's trace, in the rule's own loop: 3 emissions, 5 wraps and the end
theorem test_witness_TransposeIsTheLoopOfTheRule :
    (transposeFrom (fixedKernel 131072 0#32) [0#16] (frames16 [[10], [20], [30], [40], [50]]) 0 0).map (fun r => (r.acc, r.frames)) =
      some (65536, [[0#16], [20#16], [40#16]]) ∧
    (loopR160 (fixedKernel 131072 0#32) [0#16] (frames16 [[10], [20], [30], [40], [50]]) 9 0 0 0 []).map (fun r => (r.acc, r.frames)) =
      some (65536, [[0#16], [20#16], [40#16]]) := by decide +kernel
theorem test_witness_FixedEmissionLiesBetweenItsEndpoints : (0 : Nat) ≤ 65536 ∧ (65536 : Nat) ≤ 65536 ∧
    emitFrame (fixedKernel 65536 0#32) 32768 [10#16, 0#16] [20#16, 6#16] 5 = ([15#16, 3#16], 5) := by decide +kernel
-- inf - inf at phase 0.5; a quiet NaN sample; -0.0 at phase 0 is +0.0
theorem test_witness_FloatEmissionDrawsOnlyForNaN : interpFloat 0x3F000000#32 0x7F800000#32 0xFF800000#32 = .nan ∧
    interpFloat 0x3F800000#32 0x7FC00000#32 0x40000000#32 = .nan ∧ interpFloat 0#32 0x80000000#32 0#32 ≠ .nan ∧
    interpFloatBits 0#32 0x80000000#32 0#32 = some 0#32 := by decide +kernel
-- a stereo frame whose left channel is a NaN, and one whose both channels are
theorem test_witness_float_frame_draws : ([0x7F800000#32, 0x3F800000#32] : List F32).length = ([0xFF800000#32, 0x40400000#32] : List F32).length ∧
    ([0x7F800000#32, 0x3F800000#32] : List F32)[1]? = some 0x3F800000#32 ∧
    nanEmissions 0x3F000000#32 [0x7F800000#32, 0x3F800000#32] [0xFF800000#32, 0x40400000#32] = 1 ∧
    interpFloatBits 0x3F000000#32 0x3F800000#32 0x40400000#32 = some 0x40000000#32 ∧
    nanEmissions 0x3F000000#32 [0x7FC00000#32, 0x7F800000#32] [0#32, 0xFF800000#32] = 2 := by decide +kernel
theorem test_witness_TransposeSavesTheLastFrame :
    framesHaveWidth Channels.stereo.count (frames16 [[1, 2]]) ∧ (frames16 [[1, 2]]).getLast? = some [1#16, 2#16] ∧
    (∃ r, Lane.transpose (fixedKernel 65536 0#32) .stereo (frames16 [[1, 2]]) (Lane.reset 0#16 0) 0 = some r) ∧
    framesHaveWidth Channels.mono.count (frames16 [[1]]) ∧ (frames16 [[1]]).getLast? = some [1#16] ∧
    (∃ r, Lane.transpose (fixedKernel 65536 0#32) .mono (frames16 [[1]]) (Lane.reset 0#16 0) 0 = some r) ∧
    (∃ r, Lane.transpose (fixedKernel 65536 0#32) .mono [] (Lane.reset 0#16 0) 0 = some r) := by
  refine ⟨by intro f hf; revert f; decide, by decide, ⟨_, rfl⟩, by intro f hf; revert f; decide, by decide, ⟨_, rfl⟩, ⟨_, rfl⟩⟩
-- at the bound 65536 + step
theorem test_witness_FixedPhaseIsConserved : (∃ r, transposeFrom (fixedKernel 65536 0#32) [0#16] (frames16 [[1]]) 131072 0 = some r) ∧ (131072 : Nat) ≤ 65536 + 65536 ∧
    frames16 [[1]] ≠ [] := ⟨⟨_, rfl⟩, by decide, by decide⟩
theorem test_witness_CallSplittingIsTransparent :
    (∃ t u, exec (.trPut (.i16 (frames16 [[1]]))) (filtering 0x3F000000 0x3E800000 32768 (Lane.reset 0#16 0)) = .next t ∧ exec (.trPut (.i16 (frames16 [[2]]))) t = .next u) ∧
    (∃ t u, exec (.trPut (.f32 [[1#32]])) (filteringF 0x3F800000 0x3F000000 (Lane.reset 0#32 0#32)) = .next t ∧ exec (.trPut (.f32 [[2#32]])) t = .next u) :=
  ⟨⟨_, _, rfl, rfl⟩, _, _, rfl, rfl⟩
/-- A mono FIXED unit with the filter on, its configuration registers in agreement and one frame held, meets the invariant. -/
theorem filtering_inv {rate cutoff step : Nat} (hr : rateAdmitted (BitVec.ofNat 32 rate) = true) (hc : BitVec.ofNat 32 cutoff = cutoffOf (BitVec.ofNat 32 rate))
    (hs : step = stepOf (BitVec.ofNat 32 rate)) (v : I16) : (filtering rate cutoff step { Lane.reset 0#16 0 with store := [[v]] }).Inv := by
  refine ⟨show Config.default.wf by decide, ⟨?_, ?_⟩, hr, hc, ⟨hs, show (0 : Nat) ≤ 65536 + 2 ^ 24 by decide⟩, ?_, ?_, rfl, show 1 ≤ 32 by decide⟩
  · intro p; cases p <;> exact Queue.zero_inv
  · intro p h; cases p <;> cases h
  · intro f hf; cases hf with
    | head => rfl
    | tail _ h => cases h
  · intro f hf; cases hf

/-- The same in FLOAT. -/
theorem filteringF_inv {rate cutoff : Nat} (hr : rateAdmitted (BitVec.ofNat 32 rate) = true) (hc : BitVec.ofNat 32 cutoff = cutoffOf (BitVec.ofNat 32 rate))
    (v : F32) : (filteringF rate cutoff { Lane.reset 0#32 0#32 with store := [[v]] }).Inv := by
  refine ⟨show Config.default.wf by decide, ⟨?_, ?_⟩, hr, hc, show (0#32).toNat ≤ 0x43808000 by decide, ?_, ?_, rfl, show 1 ≤ 32 by decide⟩
  · intro p; cases p <;> exact Queue.zero_inv
  · intro p h; cases p <;> cases h
  · intro f hf; cases hf with
    | head => rfl
    | tail _ h => cases h
  · intro f hf; cases hf

-- V-T18: a store of one frame, at rate 1.0, at 0.5 and, in FLOAT, at the largest rate below 1
theorem test_witness_FilteredPutHoldsBackFrames :
    (let s := filtering 0x3F800000 0x3F000000 65536 { Lane.reset 0#16 0 with store := [[5#16]] }
     s.Inv ∧ s.unitB.aaEnable = true ∧ 1 ≤ f32Value s.unitB.rate ∧ (∃ t, exec (.trPut (.i16 (frames16 [[6]]))) s = .next t) ∧ s.unitB.datapath.storeLength ≠ 0) ∧
    (let s := filtering 0x3F000000 0x3E800000 32768 { Lane.reset 0#16 0 with store := [[5#16]] }
     s.Inv ∧ s.unitB.aaEnable = true ∧ f32Value s.unitB.rate < 1 ∧ ∃ t, exec (.trPut (.i16 (frames16 [[6]]))) s = .next t) ∧
    (let s := filteringF 0x3F7FFFFF 0x3EFFFFFF { Lane.reset 0#32 0#32 with store := [[5#32]] }
     s.Inv ∧ s.unitB.aaEnable = true ∧ f32Value s.unitB.rate < 1 ∧ ∃ t, exec (.trPut (.f32 [[6#32]])) s = .next t) := by
  refine ⟨⟨filtering_inv (by decide +kernel) (by decide +kernel) (by decide +kernel) _, rfl, ?_, ⟨_, rfl⟩, by decide⟩,
    ⟨filtering_inv (by decide +kernel) (by decide +kernel) (by decide +kernel) _, rfl, ?_, _, rfl⟩,
    filteringF_inv (by decide +kernel) (by decide +kernel) _, rfl, ?_, _, rfl⟩ <;> simp [f32Value, filtering, filteringF] <;> norm_num
theorem test_witness_UnitRateIsADelayedCopy :
    let s : State := { State.reset with unitB := { UnitB.reset .fixed with aaEnable := false, channels := .mono } }
    s.unitB = { UnitB.reset .fixed with aaEnable := false, channels := .mono } ∧ frames16 [[1]] ≠ [] ∧ framesHaveWidth Channels.mono.count (frames16 [[1]]) := by
  refine ⟨rfl, by decide, by intro f hf; revert f; decide⟩
theorem test_witness_FilterWindowsAreTheRulesWindows : framesHaveWidth Channels.mono.count (frames16 [[1], [2], [3]]) ∧ 1 + 2 ≤ (frames16 [[1], [2], [3]]).length ∧
    0 < 1 ∧ 0 < Channels.mono.count := by
  refine ⟨by intro f hf; revert f; decide, by decide, by decide, by decide⟩
theorem test_witness_ReceiveTakesTheOldestFrames : (∃ step lane, State.reset.unitB.datapath = .fixed step lane) ∧
    (∃ lane, (State.powerOn Config.default .float).unitB.datapath = .float lane) := ⟨⟨_, _, rfl⟩, _, rfl⟩
theorem test_witness_IsemptyTestsBothBuffers : State.reset.unitB.datapath.outputLength = 0 ∧ State.reset.unitB.datapath.storeLength = 0 ∧
    (fixedB .mono 0 0 0 ⟨0, 0#16, 0#16, [[5#16]], [], []⟩).unitB.datapath.storeLength ≠ 0 ∧
    (fixedB .mono 0 0 0 ⟨0, 0#16, 0#16, [], [], [[5#16]]⟩).unitB.datapath.outputLength ≠ 0 := by decide

-- IEEE 754 (hand calculation): a tie at 2^24 + 1, the sum of the largest finite value and half its last unit, a difference that is +0, the product of the smallest subnormal and -0.5
theorem test_float_operations : FVal.sub (.ofBits 0x4B800001#32) (.ofBits 0x3F800000#32) = .ofBits 0x4B800000#32 ∧
    FVal.add (.ofBits 0x7F7FFFFF#32) (.ofBits 0x73000000#32) = .ofBits 0x7F800000#32 ∧ FVal.add (.ofBits 0x7F7FFFFF#32) (.ofBits 0x72FFFFFF#32) = .ofBits 0x7F7FFFFF#32 ∧
    FVal.sub (.ofBits 0x3F800000#32) (.ofBits 0x3F800000#32) = .ofBits 0#32 ∧ FVal.add (.ofBits 0x80000000#32) (.ofBits 0x80000000#32) = .ofBits 0x80000000#32 ∧
    FVal.mul (.ofBits 0x00000001#32) (.ofBits 0xBF000000#32) = .ofBits 0x80000000#32 := by decide +kernel
-- finite operands with a zero sum and with a zero factor; a NaN; both infinities; the phase bounds 0 and 1
theorem test_witness_FloatOperationsRoundTheExactValue :
    (f32Finite 0x3F800000#32 ∧ f32Finite 0xBF800000#32 ∧ f32Value 0x3F800000#32 + f32Value 0xBF800000#32 = 0 ∧ f32Value 0x3F800000#32 - f32Value 0x3F800000#32 = 0 ∧
      f32Value 0x80000000#32 = 0) ∧
    isNaN 0x7FC00000#32 = true ∧ FVal.ofBits 0x7F800000#32 = .inf false ∧ FVal.ofBits 0xFF800000#32 = .inf true ∧
    (f32Finite 0#32 ∧ 0 ≤ f32Value 0#32 ∧ f32Value 0#32 ≤ 1) ∧ 0 ≤ f32Value 0x3F800000#32 ∧ f32Value 0x3F800000#32 ≤ 1 := by
  have one : f32Value 0x3F800000#32 = 1 := by simp [f32Value]; norm_num
  have negOne : f32Value 0xBF800000#32 = -1 := by simp [f32Value]; norm_num
  have zero : f32Value 0#32 = 0 := by simp [f32Value]
  refine ⟨⟨by simp [f32Finite], by simp [f32Finite], by rw [one, negOne]; norm_num, sub_self _, by simp [f32Value]⟩, by decide, by decide, by decide,
    ⟨by simp [f32Finite], zero.ge, by rw [zero]; norm_num⟩, by rw [one]; norm_num, one.le⟩

end Sys2Proof.Tests
end

section
/-! PROOFS. The rounding of binary32 and the FLOAT operations (00_scope.md R20, 41_transposer.md R160, R162, R164): O41 and O60. -/

namespace Sys2Proof.Machine
open Sys2Proof FVal

/-! ### Rounding -/

/-- A result whose significand at its scale is even has an even pattern. -/
theorem FVal.toBits_roundMag_lsb (nb : F32) (neg : Bool) (num den : Nat) (h : nearestEven num (den * 2 ^ scaleOf (num / den)) % 2 = 0) :
    (toBits nb (.fin neg (roundMag num den))).getLsbD 0 = false := by
  obtain ⟨hlt, hge⟩ := scaled_quotient num den
  have hle := nearestEven_le num (den * 2 ^ scaleOf (num / den))
  have hqe := le_nearestEven num (den * 2 ^ scaleOf (num / den))
  exact toBits_lsb nb neg (by omega) (hge.imp_left fun h23 => h23.trans hqe) h

/-- Settles O41: `roundMag` is nearest among the representable magnitudes, and these are the magnitudes that patterns hold. -/
theorem roundingIsToNearestEven : Obligations.RoundingIsToNearestEven := by
  unfold Obligations.RoundingIsToNearestEven
  intro neg num den hd
  constructor
  · intro h
    have hm := lt_overflow_of_lt hd h
    refine ⟨roundMag num den, if_neg (not_le.mpr hm), ⟨_, ofBits_toBits_fin 0#32 neg (roundMag_representable num den hm)⟩, ?_⟩
    intro b k hb
    obtain ⟨hnear, htie⟩ := roundMag_nearest num den k hd (representable_of_ofBits hb)
    exact ⟨hnear, fun he hne => toBits_roundMag_lsb 0#32 neg num den (htie he hne)⟩
  · intro h
    exact if_pos (overflow_of_le hd h)

/-! ### Results are patterns -/

theorem FVal.exists_nan_eq_ofBits : ∃ r, FVal.nan = .ofBits r := ⟨0x7FC00000#32, by decide⟩

theorem FVal.exists_inf_eq_ofBits (s : Bool) : ∃ r, FVal.inf s = .ofBits r := ⟨_, (ofBits_toBits_inf 0#32 s).symm⟩

/-- Every sum is one a pattern holds. -/
theorem FVal.exists_add_eq_ofBits (x y : FVal) : ∃ r, FVal.add x y = .ofBits r := by
  cases x with
  | nan => exact exists_nan_eq_ofBits
  | inf s =>
    cases y with
    | nan => exact exists_nan_eq_ofBits
    | inf t =>
      simp only [FVal.add]
      split
      · exact exists_inf_eq_ofBits s
      · exact exists_nan_eq_ofBits
    | fin t n => exact exists_inf_eq_ofBits s
  | fin s m =>
    cases y with
    | nan => exact exists_nan_eq_ofBits
    | inf t => exact exists_inf_eq_ofBits t
    | fin t n =>
      obtain ⟨r, hr, -⟩ := add_roundsTo s t m n
      exact ⟨r, hr⟩

/-- Every difference is one a pattern holds. -/
theorem FVal.exists_sub_eq_ofBits (x y : FVal) : ∃ r, FVal.sub x y = .ofBits r := exists_add_eq_ofBits x y.neg

/-- Every product is one a pattern holds. -/
theorem FVal.exists_mul_eq_ofBits (x y : FVal) : ∃ r, FVal.mul x y = .ofBits r := by
  cases x with
  | nan => exact exists_nan_eq_ofBits
  | inf s =>
    cases y with
    | nan => exact exists_nan_eq_ofBits
    | inf t => exact exists_inf_eq_ofBits _
    | fin t n =>
      simp only [FVal.mul]
      split
      · exact exists_nan_eq_ofBits
      · exact exists_inf_eq_ofBits _
  | fin s m =>
    cases y with
    | nan => exact exists_nan_eq_ofBits
    | inf t =>
      simp only [FVal.mul]
      split
      · exact exists_nan_eq_ofBits
      · exact exists_inf_eq_ofBits _
    | fin t n =>
      obtain ⟨r, hr, -⟩ := mul_roundsTo s t m n
      exact ⟨r, hr⟩

/-! ### NaN operands -/

@[simp] theorem FVal.add_nan_left (x : FVal) : FVal.add .nan x = .nan := rfl

@[simp] theorem FVal.add_nan_right (x : FVal) : FVal.add x .nan = .nan := by cases x <;> rfl

@[simp] theorem FVal.sub_nan_left (x : FVal) : FVal.sub .nan x = .nan := rfl

@[simp] theorem FVal.sub_nan_right (x : FVal) : FVal.sub x .nan = .nan := add_nan_right x

@[simp] theorem FVal.mul_nan_left (x : FVal) : FVal.mul .nan x = .nan := rfl

@[simp] theorem FVal.mul_nan_right (x : FVal) : FVal.mul x .nan = .nan := by cases x <;> rfl

theorem isNaN_iff (b : F32) : isNaN b = true ↔ FVal.ofBits b = .nan := decide_eq_true_iff

/-! ### Finite operands -/

theorem FVal.units_not (s : Bool) (m : Nat) : units (.fin (!s) m) = -units (.fin s m) := by
  cases s <;> simp [units]

/-- A finite pattern is zero exactly when its magnitude is. -/
theorem f32Value_eq_zero_iff {b : F32} {s : Bool} {m : Nat} (h : FVal.ofBits b = .fin s m) : f32Value b = 0 ↔ m = 0 := by
  rw [f32Value_of_fin h, mul_eq_zero, or_iff_left (by positivity)]
  cases s <;> simp [units]

/-- The comparison of finite patterns is that of their exact values. -/
theorem FVal.lt_ofBits_iff {a b : F32} (ha : f32Finite a) (hb : f32Finite b) : FVal.lt (.ofBits a) (.ofBits b) = true ↔ f32Value a < f32Value b := by
  obtain ⟨m, hm⟩ := (f32Finite_iff a).mp ha
  obtain ⟨n, hn⟩ := (f32Finite_iff b).mp hb
  have hc : (0 : ℚ) < 2 ^ (-149 : ℤ) := by positivity
  rw [f32Value_of_fin hm, f32Value_of_fin hn, mul_lt_mul_iff_left₀ hc, Int.cast_lt, hm, hn]
  simp [FVal.lt]

/-- The sum of finite patterns rounds the exact sum, is no NaN, and when it is zero has sign 1 only if both operands have. -/
theorem add_ofBits_roundsTo {a b : F32} (ha : f32Finite a) (hb : f32Finite b) :
    ∃ r, FVal.add (.ofBits a) (.ofBits b) = .ofBits r ∧ RoundsTo (f32Value a + f32Value b) r ∧
      (f32Value a + f32Value b = 0 → r = if a.getLsbD 31 && b.getLsbD 31 then 0x80000000#32 else 0#32) := by
  obtain ⟨m, hm⟩ := (f32Finite_iff a).mp ha
  obtain ⟨n, hn⟩ := (f32Finite_iff b).mp hb
  obtain ⟨r, hr, hround, hzero⟩ := add_roundsTo (a.getLsbD 31) (b.getLsbD 31) m n
  have hv : f32Value a + f32Value b = ((units (.fin (a.getLsbD 31) m) + units (.fin (b.getLsbD 31) n) : ℤ) : ℚ) * 2 ^ (-149 : ℤ) := by
    rw [f32Value_of_fin hm, f32Value_of_fin hn, Int.cast_add, add_mul]
  rw [hm, hn, hv]
  refine ⟨r, hr, hround, fun h0 => hzero ?_⟩
  exact_mod_cast (mul_eq_zero.mp h0).resolve_right (by positivity)

/-- Flipping the sign bit negates a finite pattern. -/
theorem ofBits_flipSign {b : F32} (hb : f32Finite b) :
    ∃ b', f32Finite b' ∧ FVal.ofBits b' = (FVal.ofBits b).neg ∧ f32Value b' = -f32Value b ∧ b'.getLsbD 31 = !b.getLsbD 31 := by
  obtain ⟨n, hn⟩ := (f32Finite_iff b).mp hb
  have h := ofBits_toBits_fin 0#32 (!b.getLsbD 31) (representable_of_ofBits hn)
  refine ⟨_, f32Finite_of_fin h, by rw [h, hn]; rfl, ?_, ofBits_fin_sign h⟩
  rw [f32Value_of_fin h, f32Value_of_fin hn, units_not, Int.cast_neg, neg_mul]

/-- The difference of finite patterns rounds the exact difference: it is the sum with the negated pattern. -/
theorem sub_ofBits_roundsTo {a b : F32} (ha : f32Finite a) (hb : f32Finite b) :
    ∃ r, FVal.sub (.ofBits a) (.ofBits b) = .ofBits r ∧ RoundsTo (f32Value a - f32Value b) r ∧
      (f32Value a - f32Value b = 0 → r = if a.getLsbD 31 && !b.getLsbD 31 then 0x80000000#32 else 0#32) := by
  obtain ⟨b', hb', hneg, hval, hsign⟩ := ofBits_flipSign hb
  rw [FVal.sub, ← hneg, sub_eq_add_neg, ← hval, ← hsign]
  exact add_ofBits_roundsTo ha hb'

/-- The product of finite patterns rounds the exact product and has the sign of the signs. -/
theorem mul_ofBits_roundsTo {a b : F32} (ha : f32Finite a) (hb : f32Finite b) :
    ∃ r, FVal.mul (.ofBits a) (.ofBits b) = .ofBits r ∧ RoundsTo (f32Value a * f32Value b) r ∧ r.getLsbD 31 = (a.getLsbD 31 ^^ b.getLsbD 31) := by
  obtain ⟨m, hm⟩ := (f32Finite_iff a).mp ha
  obtain ⟨n, hn⟩ := (f32Finite_iff b).mp hb
  rw [f32Value_of_fin hm, f32Value_of_fin hn, hm, hn]
  exact mul_roundsTo _ _ m n

/-- A sum of finite patterns is no NaN. -/
theorem add_ofBits_ne_nan {a b : F32} (ha : f32Finite a) (hb : f32Finite b) : FVal.add (.ofBits a) (.ofBits b) ≠ .nan := by
  obtain ⟨m, hm⟩ := (f32Finite_iff a).mp ha
  obtain ⟨n, hn⟩ := (f32Finite_iff b).mp hb
  rw [hm, hn]
  simp only [FVal.add]
  split
  · exact FVal.noConfusion
  · exact round_ne_nan _ _ _

/-! ### Infinite operands -/

/-- An infinity with a finite pattern: it keeps its sign, and times zero it is a NaN (R20, D16). -/
theorem inf_with_finite {a b : F32} {s : Bool} (ha : FVal.ofBits a = .inf s) (hb : f32Finite b) :
    FVal.add (.ofBits a) (.ofBits b) = .inf s ∧ FVal.add (.ofBits b) (.ofBits a) = .inf s ∧
    FVal.sub (.ofBits a) (.ofBits b) = .inf s ∧ FVal.sub (.ofBits b) (.ofBits a) = .inf (!s) ∧
    FVal.mul (.ofBits a) (.ofBits b) = (if f32Value b = 0 then .nan else .inf (s ^^ b.getLsbD 31)) ∧
    FVal.mul (.ofBits b) (.ofBits a) = (if f32Value b = 0 then .nan else .inf (s ^^ b.getLsbD 31)) := by
  obtain ⟨n, hn⟩ := (f32Finite_iff b).mp hb
  simp only [f32Value_eq_zero_iff hn]
  rw [ha, hn]
  exact ⟨rfl, rfl, rfl, rfl, rfl, by rw [Bool.xor_comm]; rfl⟩

/-- Two infinities: a sum of opposite ones and a difference of equal ones is a NaN (R20, D16). -/
theorem inf_with_inf (s t : Bool) :
    FVal.add (.inf s) (.inf t) = (if s = t then .inf s else .nan) ∧ FVal.sub (.inf s) (.inf t) = (if s = t then .nan else .inf s) ∧
    FVal.mul (.inf s) (.inf t) = .inf (s ^^ t) := by
  cases s <;> cases t <;> decide

/-! ### Emissions and phase steps -/

theorem ofBits_one : FVal.ofBits 0x3F800000#32 = FVal.one := by decide +kernel

theorem f32Finite_one : f32Finite 0x3F800000#32 := f32Finite_of_fin ofBits_one

theorem f32Value_one : f32Value 0x3F800000#32 = 1 := by
  rw [f32Value_of_fin ofBits_one]
  norm_num [units]

/-- A value between 0 and 1 rounds to a finite pattern between -1 and 1. -/
theorem RoundsTo.finite_and_abs_le_one {v : ℚ} {r : F32} (h : RoundsTo v r) (h0 : 0 ≤ v) (h1 : v ≤ 1) : f32Finite r ∧ |f32Value r| ≤ 1 := by
  obtain ⟨hfin, hbest⟩ := h.nearest (by rw [abs_of_nonneg h0]; exact h1.trans_lt (by norm_num))
  obtain ⟨hnear, -⟩ := hbest _ f32Finite_one
  rw [f32Value_one, abs_of_nonpos (sub_nonpos.mpr h1)] at hnear
  obtain ⟨hlo, hhi⟩ := abs_le.mp hnear
  exact ⟨hfin, abs_le.mpr ⟨by linarith, by linarith⟩⟩

/-- The product of a finite pattern of magnitude at most 1 and a finite pattern is finite. -/
theorem RoundsTo.finite_mul {x a p : F32} (h : RoundsTo (f32Value x * f32Value a) p) (ha : f32Finite a) (hx : |f32Value x| ≤ 1) : f32Finite p := by
  refine h.finite ha ?_
  rw [abs_mul]
  exact mul_le_of_le_one_left (abs_nonneg _) hx

/-- An emission of any patterns rounds each operation singly (R162). -/
theorem interpFloat_eq_ofBits (φ a b : F32) : ∃ d p q : F32,
    FVal.sub (.ofBits 0x3F800000#32) (.ofBits φ) = .ofBits d ∧ FVal.mul (.ofBits d) (.ofBits a) = .ofBits p ∧ FVal.mul (.ofBits φ) (.ofBits b) = .ofBits q ∧
    interpFloat φ a b = FVal.add (.ofBits p) (.ofBits q) := by
  obtain ⟨d, hd⟩ := exists_sub_eq_ofBits (.ofBits 0x3F800000#32) (.ofBits φ)
  obtain ⟨p, hp⟩ := exists_mul_eq_ofBits (.ofBits d) (.ofBits a)
  obtain ⟨q, hq⟩ := exists_mul_eq_ofBits (.ofBits φ) (.ofBits b)
  refine ⟨d, p, q, hd, hp, hq, ?_⟩
  rw [← hp, ← hq, ← hd, ofBits_one]
  rfl

/-- An emission of finite samples at a phase in [0, 1] rounds exact values throughout (R162): no operation before the last sum overflows. -/
theorem interpFloat_roundsTo {φ a b : F32} (hφ : f32Finite φ) (h0 : 0 ≤ f32Value φ) (h1 : f32Value φ ≤ 1) (ha : f32Finite a) (hb : f32Finite b) :
    ∃ d p q r : F32, RoundsTo (1 - f32Value φ) d ∧ RoundsTo (f32Value d * f32Value a) p ∧ RoundsTo (f32Value φ * f32Value b) q ∧
      f32Finite d ∧ f32Finite p ∧ f32Finite q ∧ RoundsTo (f32Value p + f32Value q) r ∧ interpFloat φ a b = .ofBits r := by
  obtain ⟨d, hd, rd, -⟩ := sub_ofBits_roundsTo f32Finite_one hφ
  rw [f32Value_one] at rd
  obtain ⟨fd, hd1⟩ := rd.finite_and_abs_le_one (by linarith) (by linarith)
  obtain ⟨p, hp, rp, -⟩ := mul_ofBits_roundsTo fd ha
  obtain ⟨q, hq, rq, -⟩ := mul_ofBits_roundsTo hφ hb
  have fp : f32Finite p := rp.finite_mul ha hd1
  have fq : f32Finite q := rq.finite_mul hb (abs_le.mpr ⟨by linarith, h1⟩)
  obtain ⟨r, hr, rr, -⟩ := add_ofBits_roundsTo fp fq
  refine ⟨d, p, q, r, rd, rp, rq, fd, fp, fq, rr, ?_⟩
  rw [← hr, ← hp, ← hq, ← hd, ofBits_one]
  rfl

/-- The advance of a finite phase by a finite rate is `fl(phase + rate)` (R164). -/
theorem advanceFloat_roundsTo {rate phase : F32} (hr : f32Finite rate) (hp : f32Finite phase) :
    RoundsTo (f32Value phase + f32Value rate) (advanceFloat rate phase) := by
  obtain ⟨r, hadd, hround, -⟩ := add_ofBits_roundsTo hp hr
  have hne := add_ofBits_ne_nan hp hr
  rw [hadd] at hne
  rwa [advanceFloat, hadd, toBits_ofBits _ _ hne]

/-- The wrap of a phase is the advance by -1.0 (R164). -/
theorem wrapFloat_eq_advanceFloat (phase : F32) : wrapFloat phase = advanceFloat 0xBF800000#32 phase := by
  have h : FVal.ofBits 0xBF800000#32 = FVal.one.neg := by decide +kernel
  rw [wrapFloat, advanceFloat, h]
  rfl

/-- The wrap of a finite phase is `fl(phase - 1.0)` (R164). -/
theorem wrapFloat_roundsTo {phase : F32} (hp : f32Finite phase) : RoundsTo (f32Value phase - 1) (wrapFloat phase) := by
  have h : FVal.ofBits 0xBF800000#32 = .fin true (2 ^ 149) := by decide +kernel
  have hv : f32Value 0xBF800000#32 = -1 := by
    rw [f32Value_of_fin h]
    norm_num [units]
  rw [wrapFloat_eq_advanceFloat, sub_eq_add_neg, ← hv]
  exact advanceFloat_roundsTo (f32Finite_of_fin h) hp

/-- The test of a finite phase is `phase > 1.0` (R160). -/
theorem exceedsFloat_iff {phase : F32} (hp : f32Finite phase) : exceedsFloat phase = true ↔ 1 < f32Value phase := by
  rw [exceedsFloat, ← ofBits_one, lt_ofBits_iff f32Finite_one hp, f32Value_one]

/-- Settles O60, by the lemma above for each class of operands, for the emission and for each phase step. -/
theorem floatOperationsRoundTheExactValue : Obligations.FloatOperationsRoundTheExactValue := by
  unfold Obligations.FloatOperationsRoundTheExactValue
  refine ⟨?finite, ?nan, ?inf, interpFloat_eq_ofBits, fun _ _ _ => interpFloat_roundsTo, ?phase⟩
  case finite => exact fun a b ha hb => ⟨add_ofBits_roundsTo ha hb, sub_ofBits_roundsTo ha hb, mul_ofBits_roundsTo ha hb⟩
  case nan =>
    intro a b h
    rw [isNaN_iff, isNaN_iff] at h
    rcases h with h | h
    · simp [h]
    · simp [h]
  case inf =>
    intro a b s ha
    refine ⟨inf_with_finite ha, fun t hb => ?_⟩
    rw [ha, hb]
    exact inf_with_inf s t
  case phase => exact fun rate cutoff phase hr hp => ⟨advanceFloat_roundsTo hr hp, wrapFloat_roundsTo hp, exceedsFloat_iff hp⟩

end Sys2Proof.Machine
end

section
/-! PROOFS. What a completed command and a step keep (10_state.md R28, R29, R37, R39 to R42, R45; 40_fifo.md R136; 41_transposer.md R163, R164, R167; 60_exceptions.md
R206): O10 and O34. -/

namespace Sys2Proof.Machine
open Sys2Proof

/-! ### The common frame -/

/-- A unit A command that completes replaces unit A, and of the initialisation marks only the one it is the `FIFO.INIT` of. -/
theorem exec_unitA_eq_next {i : Instr} {s t : State} (hi : i.proc? ≠ none) (h : exec i s = .next t) :
    ∃ a result events, t = ({ s with unitA := a } : State).complete result events ∧ ∀ q, i ≠ .fifoInit q → a.init.get q = s.unitA.init.get q := by
  cases i with
  | trReset | trSetrate | trSetch | trSetaa | trPut | trReceive | trClear | trIsempty => exact absurd rfl hi
  | fifoInit p =>
    exact ⟨_, _, _, (ok_eq_next_iff ..).mp h, fun q hq => PerProc.get_set_of_ne _ _ _ _ fun e => hq (e ▸ rfl)⟩
  | fifoSend p v =>
    obtain ⟨-, ⟨-, h⟩ | ⟨-, -, h⟩ | ⟨-, -, h⟩⟩ := execFifoSend_eq_next h
    all_goals exact ⟨_, _, _, (ok_eq_next_iff ..).mp h, fun _ _ => rfl⟩
  | fifoRecv p =>
    obtain ⟨-, ⟨-, h⟩ | ⟨-, -, h⟩ | ⟨-, -, h⟩⟩ := execFifoRecv_eq_next h
    all_goals exact ⟨_, _, _, (ok_eq_next_iff ..).mp h, fun _ _ => rfl⟩
  | fifoCnt p v => exact ⟨_, _, _, (ok_eq_next_iff ..).mp (execFifoCnt_eq_next h).2, fun _ _ => rfl⟩
  | fifoRdcnt p => exact ⟨_, _, _, (ok_eq_next_iff ..).mp (execFifoRdcnt_eq_next h).2, fun _ _ => rfl⟩

/-- A put that succeeds keeps the variant. -/
theorem UnitB.put_variant {L : Nat} {x : Block} {b b' : UnitB} {draws d : Nat} (h : b.put L x draws = .ok (b', d)) :
    b'.datapath.variant = b.datapath.variant := by
  obtain ⟨-, ⟨step, lane, lane', frames, hd, -, rfl, -⟩ | ⟨lane, lane', frames, hd, -, rfl, -⟩⟩ := UnitB.put_eq_ok h
  · rw [hd]; rfl
  · rw [hd]; rfl

/-- `TR.RESET` makes unit B the reset unit of its variant: `Cutoff(1.0)` is 0.5 and `Step(1.0)` is 65536 (R140, R223). -/
theorem execTrReset_eq (s : State) : execTrReset s = (s.setUnitB (UnitB.reset s.unitB.datapath.variant)).ok [] [] := by
  have hcutoff : cutoffOf 0x3F800000#32 = 0x3F000000#32 := by decide +kernel
  have hstep : stepOf 0x3F800000#32 = 65536 := by decide +kernel
  simp only [execTrReset, hcutoff, hstep]
  cases s.unitB.datapath.variant
  · rfl
  · rfl

/-- A unit B command that completes replaces unit B, with the same variant, and the NaN draws, and emits no event. -/
theorem exec_unitB_eq_next {i : Instr} {s t : State} (hi : i.proc? = none) (h : exec i s = .next t) :
    ∃ b d result, t = ({ s with unitB := b, nanDraws := d } : State).complete result [] ∧ b.datapath.variant = s.unitB.datapath.variant := by
  cases i with
  | fifoInit | fifoSend | fifoRecv | fifoCnt | fifoRdcnt => cases hi
  | trReset =>
    have h : execTrReset s = .next t := h
    rw [execTrReset_eq] at h
    exact ⟨_, _, _, (ok_eq_next_iff ..).mp h, Datapath.variant_reset _⟩
  | trSetrate r => exact ⟨_, _, _, (ok_eq_next_iff ..).mp (execTrSetrate_eq_next h).2, Datapath.variant_setStep _ _⟩
  | trSetch n =>
    obtain ⟨ch, -, ⟨-, h⟩ | ⟨-, -, -, h⟩⟩ := execTrSetch_eq_next h
    · exact ⟨_, _, _, (ok_eq_next_iff ..).mp h, rfl⟩
    · exact ⟨_, _, _, (ok_eq_next_iff ..).mp h, Datapath.variant_resetInterp _⟩
  | trSetaa b => exact ⟨_, _, _, (ok_eq_next_iff ..).mp h, rfl⟩
  | trPut x =>
    obtain ⟨b, d, hp, h⟩ := execTrPut_eq_next h
    exact ⟨b, d, _, (ok_eq_next_iff ..).mp h, UnitB.put_variant hp⟩
  | trReceive n => exact ⟨_, _, _, (ok_eq_next_iff ..).mp h, Datapath.variant_dropOutput _ _⟩
  | trClear => exact ⟨_, _, _, (ok_eq_next_iff ..).mp h, Datapath.variant_clear _⟩
  | trIsempty => exact ⟨_, _, _, (ok_eq_next_iff ..).mp h, rfl⟩

/-- Settles O10, by what a command of each unit replaces. -/
theorem everyCommandKeepsTheCommonFrame : Obligations.EveryCommandKeepsTheCommonFrame := by
  unfold Obligations.EveryCommandKeepsTheCommonFrame
  intro i s t h
  by_cases hi : i.proc? = none
  · obtain ⟨b, d, result, rfl, hv⟩ := exec_unitB_eq_next hi h
    exact ⟨result, [], completed_complete _ _ rfl rfl rfl rfl rfl rfl rfl, hv, absurd hi, fun _ => ⟨⟨rfl, fun _ _ => rfl⟩, rfl⟩, fun _ _ => rfl⟩
  · obtain ⟨a, result, events, rfl, hq⟩ := exec_unitA_eq_next hi h
    exact ⟨result, events, completed_complete _ _ rfl rfl rfl rfl rfl rfl rfl, rfl, fun _ => ⟨rfl, rfl⟩, fun h => absurd h hi, hq⟩

/-! ### The invariant of unit A -/

/-- One initialised processor's side of the invariant, over its register and its send queue alone. -/
structure SideOk (c : U16) (q : Queue) : Prop where
  queue : q.Inv
  zero_bits : c &&& Cnt.zeroBits = 0#16
  sempty : Cnt.sempty c = q.isEmpty
  sfull : Cnt.sfull c = q.isFull

/-- The side that `FIFO.INIT` makes (R99, R100). -/
theorem SideOk.init : SideOk Cnt.initValue Queue.zero := ⟨Queue.zero_inv, by decide, by decide, by decide⟩

/-- With both marks set each side meets its part of the invariant. -/
theorem UnitA.Inv.sideOk {s : State} (h : s.unitA.Inv) (hr : s.unitA.ready = true) (p : Proc) : SideOk (s.cnt p) (s.queue p) := by
  obtain ⟨hz, he, hf⟩ := h.side p (init_of_ready hr p)
  exact ⟨h.queue p, hz, he, hf⟩

/-- Unit A meets its invariant when a processor's side and its peer's do. -/
theorem unitA_inv_of_sides {t : State} (p : Proc) (hp : SideOk (t.cnt p) (t.queue p)) (hr : SideOk (t.cnt p.peer) (t.queue p.peer)) : t.unitA.Inv := by
  have hs : ∀ q, SideOk (t.cnt q) (t.queue q) := by
    intro q
    rcases eq_or_eq_peer p q with rfl | rfl
    · exact hp
    · exact hr
  exact ⟨fun q => (hs q).queue, fun q _ => ⟨(hs q).zero_bits, (hs q).sempty, (hs q).sfull⟩⟩

section
variable {c d mask : U16} {q : Queue} (es : Bool) (v : U16)

/-- A change of a register in bits that are neither SEMPTY nor SFULL nor among those that read 0 keeps its side. -/
theorem SideOk.of_same (h : SideOk c q) (hs : SameBitsExcept mask d c)
    (hm : mask &&& Cnt.zeroBits = 0#16 ∧ mask.getLsbD 0 = false ∧ mask.getLsbD 1 = false) : SideOk d q := by
  obtain ⟨hz, h0, h1⟩ := hm
  have hbits := (Cnt.sameBitsExcept_iff ..).mp hs
  exact ⟨h.queue, Cnt.zeroBits_of_same hs hz h.zero_bits, (hbits 0 (by decide) h0).trans h.sempty, (hbits 1 (by decide) h1).trans h.sfull⟩

/-- ERROR is no bit of the invariant. -/
theorem SideOk.setError (h : SideOk c q) : SideOk (Cnt.setBits c Cnt.ERROR) q :=
  h.of_same (mask := Cnt.ERROR) (Cnt.same_setBits (by decide) c) (by decide)

/-- The sender's side after a SEND into a queue that is not full (R110). -/
theorem SideOk.send (h : SideOk c q) (w : U32) (hs : q.size ≤ 15) : SideOk (Cnt.afterSendLocal es (q.push w).isFull c) (q.push w) where
  queue := Queue.push_inv w h.queue hs
  zero_bits := Cnt.zeroBits_of_same (Cnt.same_afterSendLocal ..) (by decide) h.zero_bits
  sempty := by simp [Queue.isEmpty]
  sfull := by simp

/-- The sender's side after a RECV by its peer from a queue that is not empty (R120). -/
theorem SideOk.received (h : SideOk c q) (hs : q.size ≠ 0) : SideOk (Cnt.afterRecvRemote es q.pop.isEmpty c) q.pop where
  queue := Queue.pop_inv h.queue hs
  zero_bits := Cnt.zeroBits_of_same (Cnt.same_afterRecvRemote ..) (by decide) h.zero_bits
  sempty := by simp
  sfull := by
    have hle : q.size ≤ 16 := h.queue.size_le
    have : ¬ 15 < q.size - 1 := by omega
    simp [Queue.isFull, this]

/-- The issuing processor's side after a CNT: a send clear sets SEMPTY and clears SFULL as it empties the queue (R130, R132). -/
theorem SideOk.configure (h : SideOk c q) : SideOk (Cnt.afterConfigureLocal v c) (if Cnt.sclear v then q.clear else q) where
  queue := by
    split
    · exact Queue.clear_inv q
    · exact h.queue
  zero_bits := Cnt.zeroBits_of_same (Cnt.same_afterConfigureLocal ..) (by decide) h.zero_bits
  sempty := by
    rw [Cnt.sempty_afterConfigureLocal, h.sempty]
    cases Cnt.sclear v <;> simp [Queue.isEmpty]
  sfull := by
    rw [Cnt.sfull_afterConfigureLocal, h.sfull]
    cases Cnt.sclear v <;> simp [Queue.isFull]

end

/-- `FIFO.INIT` makes its side one that meets the invariant, and leaves the other side. -/
theorem execFifoInit_keeps_unitA_inv {p : Proc} {s t : State} (h : s.unitA.Inv) (ht : execFifoInit p s = .next t) : t.unitA.Inv := by
  rw [execFifoInit, ok_eq_next_iff] at ht
  subst ht
  refine ⟨fun q => ?_, fun q hq => ?_⟩
  · rcases eq_or_eq_peer p q with rfl | rfl
    · simpa using Queue.zero_inv
    · simpa using h.queue p.peer
  · rcases eq_or_eq_peer p q with rfl | rfl
    · obtain ⟨-, hz, he, hf⟩ := SideOk.init
      exact ⟨by simpa using hz, by simpa using he, by simpa using hf⟩
    · obtain ⟨hz, he, hf⟩ := h.side p.peer (by simpa using hq)
      exact ⟨by simpa using hz, by simpa using he, by simpa using hf⟩

/-- A unit A command that completes keeps the invariant of unit A. -/
theorem exec_keeps_unitA_inv {i : Instr} {s t : State} (hi : i.proc? ≠ none) (h : s.unitA.Inv) (ht : exec i s = .next t) : t.unitA.Inv := by
  cases i with
  | trReset | trSetrate | trSetch | trSetaa | trPut | trReceive | trClear | trIsempty => exact absurd rfl hi
  | fifoInit p => exact execFifoInit_keeps_unitA_inv h ht
  | fifoSend p v =>
    obtain ⟨hr, ht⟩ := execFifoSend_eq_next ht
    have hs := h.sideOk hr
    simp only [ok_eq_next_iff] at ht
    obtain ⟨-, rfl⟩ | ⟨-, -, rfl⟩ | ⟨-, hsize, rfl⟩ := ht
    · exact h
    · exact unitA_inv_of_sides p (by simpa using (hs p).setError) (by simpa using hs p.peer)
    · have hremote := (hs p.peer).of_same (Cnt.same_afterSendRemote s.cfg.errStrip ((s.queue p).push v).isFull _) (by decide)
      exact unitA_inv_of_sides p (by simpa using (hs p).send _ v hsize) (by simpa using hremote)
  | fifoRecv p =>
    obtain ⟨hr, ht⟩ := execFifoRecv_eq_next ht
    have hs := h.sideOk hr
    simp only [ok_eq_next_iff] at ht
    obtain ⟨-, rfl⟩ | ⟨-, -, rfl⟩ | ⟨-, hsize, rfl⟩ := ht
    · exact h
    · exact unitA_inv_of_sides p (by simpa using (hs p).setError) (by simpa using hs p.peer)
    · have hlocal := (hs p).of_same (Cnt.same_afterRecvLocal s.cfg.errStrip (s.queue p.peer).pop.isEmpty _) (by decide)
      exact unitA_inv_of_sides p (by simpa using hlocal) (by simpa using (hs p.peer).received _ hsize)
  | fifoCnt p v =>
    obtain ⟨hr, ht⟩ := execFifoCnt_eq_next ht
    have hs := h.sideOk hr
    rw [ok_eq_next_iff] at ht
    subst ht
    have hremote := (hs p.peer).of_same (Cnt.same_afterConfigureRemote v _) (by decide)
    exact unitA_inv_of_sides p (by simpa using (hs p).configure v) (by simpa using hremote)
  | fifoRdcnt p =>
    obtain ⟨-, ht⟩ := execFifoRdcnt_eq_next ht
    rw [ok_eq_next_iff] at ht
    subst ht
    exact h

/-! ### The invariant of unit B -/

/-- The step of an admitted rate lies in [1, 2^24] (R39). -/
theorem stepOf_range {r : F32} (h : rateAdmitted r = true) : 1 ≤ stepOf r ∧ stepOf r ≤ 2 ^ 24 := by
  obtain ⟨m, hm, hmin, hmax⟩ := (rateAdmitted_iff r).mp h
  rw [stepOf_eq hm]
  omega

/-- Empty buffers meet their invariant, for any number of channels. -/
theorem Lane.inv_of_empty {σ π : Type} {lane : Lane σ π} (L : Nat) (ch : Channels) (hs : lane.store = []) (ho : lane.output = []) (ht : lane.temp = []) :
    lane.Inv L ch where
  store := by simp [hs, framesHaveWidth]
  output := by simp [ho, framesHaveWidth]
  temp := ht
  held := by simp [hs]

/-- Taking frames off the output keeps the buffers' invariant. -/
theorem Lane.Inv.dropOutput {σ π : Type} {L : Nat} {ch : Channels} {lane : Lane σ π} (h : lane.Inv L ch) (m : Nat) : (lane.dropOutput m).Inv L ch :=
  ⟨h.store, framesHaveWidth_drop h.output m, h.temp, h.held⟩

/-- Unit B at reset meets its invariant (R223). -/
theorem UnitB.reset_inv (L : Nat) (v : Variant) : (UnitB.reset v).Inv L := by
  have hrate : rateAdmitted 0x3F800000#32 = true := by decide +kernel
  have hcutoff : 0x3F000000#32 = cutoffOf 0x3F800000#32 := by decide +kernel
  refine ⟨hrate, hcutoff, ?phase, ?buffers⟩
  case phase =>
    cases v
    · exact ⟨by decide +kernel, Nat.zero_le _⟩
    · exact Nat.zero_le _
  case buffers =>
    cases v
    · exact Lane.inv_of_empty _ _ rfl rfl rfl
    · exact Lane.inv_of_empty _ _ rfl rfl rfl

/-- A new admitted rate, stored with its cutoff and step, keeps the invariant (R143). -/
theorem UnitB.Inv.setRate {L : Nat} {b : UnitB} {r : F32} (h : b.Inv L) (hr : rateAdmitted r = true) :
    ({ b with rate := r, cutoff := cutoffOf r, datapath := b.datapath.setStep (stepOf r) } : UnitB).Inv L := by
  obtain ⟨rate, cutoff, ch, aa, dp⟩ := b
  obtain ⟨-, -, hphase, hbuf⟩ := h
  cases dp
  · exact ⟨hr, rfl, ⟨rfl, hphase.2⟩, hbuf⟩
  · exact ⟨hr, rfl, hphase, hbuf⟩

/-- A change of the channel count with empty buffers keeps the invariant (R144). -/
theorem UnitB.Inv.setChannels {L : Nat} {b : UnitB} (h : b.Inv L) (ch : Channels) (hs : b.datapath.storeLength = 0) (ho : b.datapath.outputLength = 0) :
    ({ b with channels := ch, datapath := b.datapath.resetInterp } : UnitB).Inv L := by
  obtain ⟨rate, cutoff, ch', aa, dp⟩ := b
  obtain ⟨hrate, hcut, hphase, hbuf⟩ := h
  cases dp
  · exact ⟨hrate, hcut, ⟨hphase.1, Nat.zero_le _⟩, Lane.inv_of_empty _ _ (List.eq_nil_of_length_eq_zero hs) (List.eq_nil_of_length_eq_zero ho) hbuf.temp⟩
  · exact ⟨hrate, hcut, Nat.zero_le _, Lane.inv_of_empty _ _ (List.eq_nil_of_length_eq_zero hs) (List.eq_nil_of_length_eq_zero ho) hbuf.temp⟩

/-- `aa_enable` is no part of the invariant (R149). -/
theorem UnitB.Inv.setAa {L : Nat} {b : UnitB} (h : b.Inv L) (aa : Bool) : ({ b with aaEnable := aa } : UnitB).Inv L :=
  ⟨h.rate, h.cutoff, h.phase, h.buffers⟩

/-- Taking output frames keeps the invariant (R150). -/
theorem UnitB.Inv.dropOutput {L : Nat} {b : UnitB} (h : b.Inv L) (m : Nat) : ({ b with datapath := b.datapath.dropOutput m } : UnitB).Inv L := by
  obtain ⟨rate, cutoff, ch, aa, dp⟩ := b
  obtain ⟨hrate, hcut, hphase, hbuf⟩ := h
  cases dp
  · exact ⟨hrate, hcut, hphase, Lane.Inv.dropOutput hbuf m⟩
  · exact ⟨hrate, hcut, hphase, Lane.Inv.dropOutput hbuf m⟩

/-- Emptying the buffers keeps the invariant (R151). -/
theorem UnitB.Inv.clear {L : Nat} {b : UnitB} (h : b.Inv L) : ({ b with datapath := b.datapath.clear } : UnitB).Inv L := by
  obtain ⟨rate, cutoff, ch, aa, dp⟩ := b
  obtain ⟨hrate, hcut, hphase, -⟩ := h
  cases dp
  · exact ⟨hrate, hcut, hphase, Lane.inv_of_empty _ _ rfl rfl rfl⟩
  · exact ⟨hrate, hcut, hphase, Lane.inv_of_empty _ _ rfl rfl rfl⟩

/-- A put that succeeds keeps the invariant: the phase stays in its range at an admitted rate (R163, R164), and the buffers keep their widths and bound (R167). -/
theorem UnitB.Inv.put {L : Nat} {x : Block} {b b' : UnitB} {draws d : Nat} (h : b.Inv L) (hp : b.put L x draws = .ok (b', d)) : b'.Inv L := by
  obtain ⟨rate, cutoff, ch, aa, dp⟩ := b
  obtain ⟨hrate, hcut, hphase, hbuf⟩ := h
  obtain ⟨hw, ⟨step, lane, lane', frames, rfl, rfl, rfl, hl⟩ | ⟨lane, lane', frames, rfl, rfl, rfl, hl⟩⟩ := UnitB.put_eq_ok hp
  · obtain ⟨hstep, hacc⟩ := hphase
    obtain ⟨hmin, hmax⟩ := stepOf_range hrate
    rw [← hstep] at hmin hmax
    have hacc' := Lane.put_keeps (fixedKernel step cutoff) (P := fun a => a ≤ 65536 + 2 ^ 24) (fun a ha hx => (fixed_advance hmin hmax _ a ha hx).1)
      (fun a ha _ => fixed_wrap _ a ha) hacc hl
    exact ⟨hrate, hcut, ⟨hstep, hacc'⟩, Lane.put_inv _ hbuf ((Block.framesHave_i16 _ _).mp hw) hl⟩
  · have hacc' := Lane.put_keeps (floatKernel rate cutoff) (P := fun a => a.toNat ≤ 0x43808000) (fun a ha hx => (float_advance hrate a ha hx).1)
      (fun a ha hx => float_wrap a ha hx) hphase hl
    exact ⟨hrate, hcut, hacc', Lane.put_inv _ hbuf ((Block.framesHave_f32 _ _).mp hw) hl⟩

/-- A unit B command that completes keeps the invariant of unit B. -/
theorem exec_keeps_unitB_inv {i : Instr} {s t : State} (hi : i.proc? = none) (h : s.unitB.Inv s.cfg.aaLength) (ht : exec i s = .next t) :
    t.unitB.Inv s.cfg.aaLength := by
  cases i with
  | fifoInit | fifoSend | fifoRecv | fifoCnt | fifoRdcnt => cases hi
  | trReset =>
    have ht : execTrReset s = .next t := ht
    rw [execTrReset_eq, ok_eq_next_iff] at ht
    exact ht ▸ UnitB.reset_inv _ _
  | trSetrate r =>
    obtain ⟨hr, ht⟩ := execTrSetrate_eq_next ht
    exact (ok_eq_next_iff ..).mp ht ▸ h.setRate hr
  | trSetch n =>
    obtain ⟨ch, -, ⟨-, ht⟩ | ⟨-, hs, ho, ht⟩⟩ := execTrSetch_eq_next ht
    · exact (ok_eq_next_iff ..).mp ht ▸ h
    · exact (ok_eq_next_iff ..).mp ht ▸ h.setChannels ch hs ho
  | trSetaa b => exact (ok_eq_next_iff ..).mp ht ▸ h.setAa b
  | trPut x =>
    obtain ⟨b, d, hp, ht⟩ := execTrPut_eq_next ht
    exact (ok_eq_next_iff ..).mp ht ▸ h.put hp
  | trReceive n => exact (ok_eq_next_iff ..).mp ht ▸ h.dropOutput _
  | trClear => exact (ok_eq_next_iff ..).mp ht ▸ h.clear
  | trIsempty => exact (ok_eq_next_iff ..).mp ht ▸ h

/-! ### The invariant of the block -/

/-- A command that completes keeps the invariant: its own unit's part by the lemmas above, the other unit's because it is the frame. -/
theorem exec_keeps_inv {i : Instr} {s t : State} (h : s.Inv) (ht : exec i s = .next t) : t.Inv := by
  by_cases hi : i.proc? = none
  · have hb := exec_keeps_unitB_inv hi h.unitB ht
    obtain ⟨b, d, result, rfl, -⟩ := exec_unitB_eq_next hi ht
    exact ⟨h.cfg, h.unitA, hb⟩
  · have ha := exec_keeps_unitA_inv hi h.unitA ht
    obtain ⟨a, result, events, rfl, -⟩ := exec_unitA_eq_next hi ht
    exact ⟨h.cfg, ha, h.unitB⟩

/-- Settles O34: a step takes a request, which no part of the invariant speaks of, and runs a command, which keeps it. -/
theorem everyStepKeepsTheInvariant : Obligations.EveryStepKeepsTheInvariant := by
  unfold Obligations.EveryStepKeepsTheInvariant
  intro s t h ht
  obtain ⟨-, -, req, rest, i, -, -, hi⟩ := step_eq_next ht
  have hs : (s.issue req.agent rest).Inv := ⟨h.cfg, h.unitA, h.unitB⟩
  exact exec_keeps_inv hs hi

end Sys2Proof.Machine
end

section
/-! PROOFS. What no command can see: registers and queues before `FIFO.INIT`, and free queue slots (10_state.md R38, R44; 40_fifo.md R109, R132): O32 and O33. -/

namespace Sys2Proof.Machine
open Sys2Proof

/-! ### Equal outcomes -/

theorem SameOutcome.refl {rel : State → State → Prop} (h : ∀ s, rel s s) (o : Result) : SameOutcome rel o o := by
  cases o with
  | next t => exact h t
  | fault f => rfl
  | refused r => rfl

/-- An outcome that is a stop is the same outcome under any relation of next states. -/
theorem SameOutcome.of_stop {rel : State → State → Prop} {o : Result} (h : ∀ t, o ≠ .next t) : SameOutcome rel o o := by
  cases o with
  | next t => exact absurd rfl (h t)
  | fault f => rfl
  | refused r => rfl

/-- Behind the UNINIT check, outcomes are alike when the marks are and the commands are. -/
theorem SameOutcome.whenReady {rel : State → State → Prop} {s s' : State} {k k' : Result} (p : Proc) (hi : s'.unitA.init = s.unitA.init)
    (h : s.unitA.ready = true → SameOutcome rel k k') : SameOutcome rel (s.whenReady p k) (s'.whenReady p k') := by
  have hr' : s'.unitA.ready = s.unitA.ready := by rw [UnitA.ready, hi, UnitA.ready]
  cases hr : s.unitA.ready
  · rw [whenReady_of_not_ready hr, whenReady_of_not_ready (hr'.trans hr)]
    rfl
  · rw [whenReady_of_ready hr, whenReady_of_ready (hr'.trans hr)]
    exact h hr

/-- A unit B command answers alike in states that differ in unit A alone, when the relation holds of every two next states that differ so. -/
theorem exec_unitB_sameOutcome {rel : State → State → Prop} {i : Instr} {s : State} {a : UnitA} (hi : i.proc? = none)
    (h : ∀ b d result events, rel (({ s with unitB := b, nanDraws := d } : State).complete result events)
      (({ s with unitA := a, unitB := b, nanDraws := d } : State).complete result events)) :
    SameOutcome rel (exec i s) (exec i { s with unitA := a }) := by
  obtain ⟨o, ho, hs⟩ | ⟨b, d, result, events, hs⟩ := exec_localB i s hi
  · rw [hs s rfl rfl rfl, hs { s with unitA := a } rfl rfl rfl]
    exact .of_stop ho
  · rw [hs s rfl rfl rfl, hs { s with unitA := a } rfl rfl rfl]
    exact h b d result events

/-! ### Contents before FIFO.INIT -/

theorem SameWhereInitialised.refl (s : State) : SameWhereInitialised s s := ⟨rfl, fun _ _ => rfl, fun _ _ => rfl⟩

/-- With both marks set there is nothing left for the states to differ in. -/
theorem SameWhereInitialised.eq_of_ready {s s' : State} (h : SameWhereInitialised s s') (hr : s.unitA.ready = true) : s' = s := by
  have hc : s'.unitA.cnt = s.unitA.cnt := PerProc.ext_get _ fun p => h.cnt p (init_of_ready hr p)
  have hq : s'.unitA.queue = s.unitA.queue := PerProc.ext_get _ fun p => h.queue p (init_of_ready hr p)
  have := h.rest
  rwa [hc, hq] at this

/-- The states have the same marks. -/
theorem SameWhereInitialised.init {s s' : State} (h : SameWhereInitialised s s') : s'.unitA.init = s.unitA.init := by
  rw [h.rest]

/-- `FIFO.INIT` gives its side the same register and queue in both states. -/
theorem SameWhereInitialised.fifoInit {s s' : State} (h : SameWhereInitialised s s') (p : Proc) :
    SameOutcome SameWhereInitialised (execFifoInit p s) (execFifoInit p s') := by
  refine ⟨?rest, fun q hq => ?cnt, fun q hq => ?queue⟩
  case rest => rw [h.rest]; rfl
  case cnt =>
    rcases eq_or_eq_peer p q with rfl | rfl
    · simp [State.cnt]
    · simpa [State.cnt] using h.cnt p.peer (by simpa using hq)
  case queue =>
    rcases eq_or_eq_peer p q with rfl | rfl
    · simp [State.queue]
    · simpa [State.queue] using h.queue p.peer (by simpa using hq)

/-- Settles O32: `FIFO.INIT` overwrites its side, the other unit A commands fault until there is nothing left to differ in, and unit B does not read unit A. -/
theorem contentsBeforeInitCannotBeSeen : Obligations.ContentsBeforeInitCannotBeSeen := by
  unfold Obligations.ContentsBeforeInitCannotBeSeen
  intro i s s' h
  have hguard : ∀ (p : Proc) (k : State → Result), (∀ u, exec i u = u.whenReady p (k u)) → SameOutcome SameWhereInitialised (exec i s) (exec i s') := by
    intro p k hk
    rw [hk, hk]
    refine .whenReady p h.init fun hr => ?_
    rw [h.eq_of_ready hr]
    exact .refl .refl _
  cases i with
  | fifoInit p => exact h.fifoInit p
  | fifoSend p v => exact hguard p _ fun _ => rfl
  | fifoRecv p => exact hguard p _ fun _ => rfl
  | fifoCnt p v => exact hguard p _ fun _ => rfl
  | fifoRdcnt p => exact hguard p _ fun _ => rfl
  | trReset | trSetrate | trSetch | trSetaa | trPut | trReceive | trClear | trIsempty =>
    rw [h.rest]
    exact exec_unitB_sameOutcome rfl fun _ _ _ _ => ⟨rfl, h.cnt, h.queue⟩

/-! ### Free queue slots -/

/-- Two queues that differ at most in slots outside the words still queued (R44). -/
structure Queue.SameWords (q q' : Queue) : Prop where
  head : q'.head = q.head
  tail : q'.tail = q.tail
  size : q'.size = q.size
  contents : q'.contents = q.contents

section
variable {q q' : Queue}

theorem Queue.SameWords.refl (q : Queue) : q.SameWords q := ⟨rfl, rfl, rfl, rfl⟩

theorem Queue.SameWords.isFull (h : q.SameWords q') : q'.isFull = q.isFull := by rw [Queue.isFull, h.size, Queue.isFull]

theorem Queue.SameWords.isEmpty (h : q.SameWords q') : q'.isEmpty = q.isEmpty := by rw [Queue.isEmpty, h.size, Queue.isEmpty]

/-- The invariant speaks of indices and size alone. -/
theorem Queue.SameWords.inv (h : q.SameWords q') (hi : q.Inv) : q'.Inv :=
  ⟨h.size ▸ hi.size_le, by rw [h.size, h.head, h.tail]; exact hi.size_mod⟩

theorem Queue.SameWords.push (h : q.SameWords q') (hi : q.Inv) (hs : q.size ≤ 15) (v : U32) : (q.push v).SameWords (q'.push v) where
  head := h.head
  tail := congrArg (· + 1) h.tail
  size := congrArg (· + 1) h.size
  contents := by rw [Queue.contents_push v (h.inv hi) (h.size ▸ hs), Queue.contents_push v hi hs, h.contents]

/-- The front word and the words behind it are the queued ones. -/
theorem Queue.SameWords.front_and_pop (h : q.SameWords q') (hs : q.size ≠ 0) : q'.front = q.front ∧ q.pop.SameWords q'.pop := by
  have hc := h.contents
  rw [Queue.contents_pop hs, Queue.contents_pop (h.size ▸ hs)] at hc
  injection hc with hfront hrest
  exact ⟨hfront, congrArg (· + 1) h.head, h.tail, congrArg (· - 1) h.size, hrest⟩

/-- A send clear leaves no queued word. -/
theorem Queue.sameWords_clear (q q' : Queue) : q.clear.SameWords q'.clear := ⟨rfl, rfl, rfl, rfl⟩

end

section
variable {s s' : State}

theorem SameButFreeSlots.queue (h : SameButFreeSlots s s') (p : Proc) : (s.queue p).SameWords (s'.queue p) :=
  ⟨h.head p, h.tail p, h.size p, h.contents p⟩

theorem SameButFreeSlots.of_queue (hr : s' = { s with unitA := { s.unitA with queue := s'.unitA.queue } })
    (h : ∀ p, (s.queue p).SameWords (s'.queue p)) : SameButFreeSlots s s' :=
  ⟨hr, fun p => (h p).head, fun p => (h p).tail, fun p => (h p).size, fun p => (h p).contents⟩

theorem SameButFreeSlots.init (h : SameButFreeSlots s s') : s'.unitA.init = s.unitA.init := by rw [h.rest]

theorem SameButFreeSlots.cnt (h : SameButFreeSlots s s') (p : Proc) : s'.cnt p = s.cnt p := by rw [h.rest]; rfl

theorem SameButFreeSlots.cfg (h : SameButFreeSlots s s') : s'.cfg = s.cfg := by rw [h.rest]

theorem SameButFreeSlots.setCnt (h : SameButFreeSlots s s') (p : Proc) (c : U16) : SameButFreeSlots (s.setCnt p c) (s'.setCnt p c) :=
  .of_queue (congrArg (·.setCnt p c) h.rest) h.queue

theorem SameButFreeSlots.setQueue (h : SameButFreeSlots s s') (p : Proc) {q q' : Queue} (hq : q.SameWords q') :
    SameButFreeSlots (s.setQueue p q) (s'.setQueue p q') := by
  refine .of_queue (congrArg (·.setQueue p q') h.rest) fun r => ?_
  rcases eq_or_eq_peer p r with rfl | rfl
  · simpa using hq
  · simpa using h.queue p.peer

/-- Completing with the same result and events keeps the states alike. -/
theorem SameButFreeSlots.ok (h : SameButFreeSlots s s') (result : List U32) (events : List Event) :
    SameOutcome SameButFreeSlots (s.ok result events) (s'.ok result events) :=
  SameButFreeSlots.of_queue (congrArg (·.complete result events) h.rest) h.queue

/-- `FIFO.INIT` zeroes its queue in both states. -/
theorem SameButFreeSlots.fifoInit (h : SameButFreeSlots s s') (p : Proc) : SameOutcome SameButFreeSlots (execFifoInit p s) (execFifoInit p s') := by
  refine SameButFreeSlots.of_queue ?rest fun q => ?queue
  case rest => rw [h.rest]; rfl
  case queue =>
    rcases eq_or_eq_peer p q with rfl | rfl
    · simpa [State.queue] using Queue.SameWords.refl _
    · simpa [State.queue] using h.queue p.peer

/-- A SEND reads of its queue only whether it is full, and appends its word behind the queued ones. -/
theorem SameButFreeSlots.fifoSend (h : SameButFreeSlots s s') (hi : s.unitA.Inv) (p : Proc) (v : U32) :
    SameOutcome SameButFreeSlots (execFifoSend p v s) (execFifoSend p v s') := by
  refine .whenReady p h.init fun _ => ?_
  have hq := h.queue p
  simp only [h.cnt, h.cfg, hq.isFull]
  split
  · exact h.ok _ _
  · split
    · exact (h.setCnt ..).ok _ _
    · rename_i hfull
      have hpush := hq.push (hi.queue p) (by simpa [Queue.isFull] using hfull) v
      rw [hpush.isFull]
      exact (((h.setQueue p hpush).setCnt ..).setCnt ..).ok _ _

/-- A RECV reads of its queue only whether it is empty and the front word, which is queued. -/
theorem SameButFreeSlots.fifoRecv (h : SameButFreeSlots s s') (p : Proc) : SameOutcome SameButFreeSlots (execFifoRecv p s) (execFifoRecv p s') := by
  refine .whenReady p h.init fun _ => ?_
  have hq := h.queue p.peer
  simp only [h.cnt, h.cfg, hq.isEmpty]
  split
  · exact h.ok _ _
  · split
    · exact (h.setCnt ..).ok _ _
    · rename_i hempty
      obtain ⟨hfront, hpop⟩ := hq.front_and_pop (by simpa [Queue.isEmpty] using hempty)
      rw [hfront, hpop.isEmpty]
      exact (((h.setQueue p.peer hpop).setCnt ..).setCnt ..).ok _ _

/-- A CNT reads nothing of the queues. -/
theorem SameButFreeSlots.fifoCnt (h : SameButFreeSlots s s') (p : Proc) (v : U16) :
    SameOutcome SameButFreeSlots (execFifoCnt p v s) (execFifoCnt p v s') := by
  refine .whenReady p h.init fun _ => ?_
  simp only [h.cnt]
  have hq : Queue.SameWords (if Cnt.sclear v then (s.queue p).clear else s.queue p) (if Cnt.sclear v then (s'.queue p).clear else s'.queue p) := by
    split
    · exact Queue.sameWords_clear _ _
    · exact h.queue p
  exact (((h.setQueue p hq).setCnt ..).setCnt ..).ok _ _

/-- A RDCNT reads nothing of the queues. -/
theorem SameButFreeSlots.fifoRdcnt (h : SameButFreeSlots s s') (p : Proc) : SameOutcome SameButFreeSlots (execFifoRdcnt p s) (execFifoRdcnt p s') := by
  refine .whenReady p h.init fun _ => ?_
  rw [h.cnt]
  exact h.ok _ _

end

/-- Settles O33: a unit A command reads of a queue only its size and its queued words, and unit B does not read unit A. -/
theorem freeSlotsCannotBeSeen : Obligations.FreeSlotsCannotBeSeen := by
  unfold Obligations.FreeSlotsCannotBeSeen
  intro i s s' hi h
  cases i with
  | fifoInit p => exact h.fifoInit p
  | fifoSend p v => exact h.fifoSend hi.unitA p v
  | fifoRecv p => exact h.fifoRecv p
  | fifoCnt p v => exact h.fifoCnt p v
  | fifoRdcnt p => exact h.fifoRdcnt p
  | trReset | trSetrate | trSetch | trSetaa | trPut | trReceive | trClear | trIsempty =>
    rw [h.rest]
    exact exec_unitB_sameOutcome rfl fun _ _ _ _ => .of_queue rfl h.queue

end Sys2Proof.Machine
end

section
/-! PROOFS. The register bus, the bank location of CNT and the order of the units' commands (20_memory.md R51 to R55, R66; 30_encoding.md R84): O7, O11 and O23. -/

namespace Sys2Proof.Machine
open Sys2Proof

/-! ### Commuting units -/

section
variable {rel : State → State → Prop} {o o' : Result}

/-- Outcomes alike are two completions or one stop. -/
theorem SameOutcome.completions_or_stop (h : SameOutcome rel o o') : (∃ t t', o = .next t ∧ o' = .next t') ∨ ((∀ t, o ≠ .next t) ∧ o' = o) := by
  cases o with
  | next t =>
    cases o' with
    | next t' => exact .inl ⟨t, t', rfl, rfl⟩
    | fault | refused => exact h.elim
  | fault f =>
    cases o' with
    | fault f' =>
      obtain rfl : f = f' := h
      exact .inr ⟨fun _ => nofun, rfl⟩
    | next | refused => exact h.elim
  | refused r =>
    cases o' with
    | refused r' =>
      obtain rfl : r = r' := h
      exact .inr ⟨fun _ => nofun, rfl⟩
    | next | fault => exact h.elim

theorem SameOutcome.exists_next_iff (h : SameOutcome rel o o') : (∃ t', o' = .next t') ↔ ∃ t, o = .next t := by
  obtain ⟨t, t', rfl, rfl⟩ | ⟨-, rfl⟩ := h.completions_or_stop
  · exact ⟨fun _ => ⟨t, rfl⟩, fun _ => ⟨t', rfl⟩⟩
  · rfl

theorem SameOutcome.fault_iff (h : SameOutcome rel o o') (f : Fault) : o' = .fault f ↔ o = .fault f := by
  obtain ⟨t, t', rfl, rfl⟩ | ⟨-, rfl⟩ := h.completions_or_stop
  · exact ⟨nofun, nofun⟩
  · rfl

theorem SameOutcome.refused_iff (h : SameOutcome rel o o') (r : Refusal) : o' = .refused r ↔ o = .refused r := by
  obtain ⟨t, t', rfl, rfl⟩ | ⟨-, rfl⟩ := h.completions_or_stop
  · exact ⟨nofun, nofun⟩
  · rfl

end

section
variable {i j : Instr} {s t : State}

/-- A unit A command that completes writes the same unit A and answers the same from every state with the same unit A and parameters. -/
theorem exec_unitA_of_next (hi : i.proc? ≠ none) (h : exec i s = .next t) :
    ∃ a r e, ∀ s' : State, s'.unitA = s.unitA → s'.cfg = s.cfg → exec i s' = State.ok { s' with unitA := a } r e := by
  obtain ⟨o, hstop, hs⟩ | hs := exec_localA i s hi
  · exact absurd ((hs s rfl rfl).symm.trans h) (hstop t)
  · exact hs

/-- A unit B command that completes writes the same unit B and draws and answers the same from every state with the same unit B, parameters and draws. -/
theorem exec_unitB_of_next (hj : j.proc? = none) (h : exec j s = .next t) :
    ∃ b d r e, ∀ s' : State, s'.unitB = s.unitB → s'.cfg = s.cfg → s'.nanDraws = s.nanDraws →
      exec j s' = State.ok { s' with unitB := b, nanDraws := d } r e := by
  obtain ⟨o, hstop, hs⟩ | hs := exec_localB j s hj
  · exact absurd ((hs s rfl rfl rfl).symm.trans h) (hstop t)
  · exact hs

/-- A unit A command that completes leaves all that a unit B command reads. -/
theorem exec_unitA_keeps (hi : i.proc? ≠ none) (h : exec i s = .next t) : t.unitB = s.unitB ∧ t.cfg = s.cfg ∧ t.nanDraws = s.nanDraws := by
  obtain ⟨a, r, e, rfl, -⟩ := exec_unitA_eq_next hi h
  exact ⟨rfl, rfl, rfl⟩

/-- A unit B command that completes leaves all that a unit A command reads. -/
theorem exec_unitB_keeps (hj : j.proc? = none) (h : exec j s = .next t) : t.unitA = s.unitA ∧ t.cfg = s.cfg := by
  obtain ⟨b, d, r, rfl, -⟩ := exec_unitB_eq_next hj h
  exact ⟨rfl, rfl⟩

/-- After a unit A command a unit B command completes, faults or is refused as before it. -/
theorem exec_unitB_after_unitA (hi : i.proc? ≠ none) (hj : j.proc? = none) (h : exec i s = .next t) :
    SameOutcome (fun _ _ => True) (exec j s) (exec j t) := by
  obtain ⟨hb, hc, hd⟩ := exec_unitA_keeps hi h
  obtain ⟨o, hstop, hs⟩ | ⟨b, d, r, e, hs⟩ := exec_localB j s hj
  · rw [hs s rfl rfl rfl, hs t hb hc hd]
    exact .of_stop hstop
  · rw [hs s rfl rfl rfl, hs t hb hc hd]
    trivial

/-- After a unit B command a unit A command completes, faults or is refused as before it. -/
theorem exec_unitA_after_unitB (hi : i.proc? ≠ none) (hj : j.proc? = none) (h : exec j s = .next t) :
    SameOutcome (fun _ _ => True) (exec i s) (exec i t) := by
  obtain ⟨ha, hc⟩ := exec_unitB_keeps hj h
  obtain ⟨o, hstop, hs⟩ | ⟨a, r, e, hs⟩ := exec_localA i s hi
  · rw [hs s rfl rfl, hs t ha hc]
    exact .of_stop hstop
  · rw [hs s rfl rfl, hs t ha hc]
    trivial

/-- The diamond: a unit A command and a unit B command that complete in both orders answer the same in both and end with the same units, draws and index. -/
theorem exec_units_diamond {u t' u' : State} (hi : i.proc? ≠ none) (hj : j.proc? = none) (ht : exec i s = .next t) (hu : exec j t = .next u)
    (ht' : exec j s = .next t') (hu' : exec i t' = .next u') :
    ∃ r e r' e', Completed s t r e ∧ Completed t u r' e' ∧ Completed s t' r' e' ∧ Completed t' u' r e ∧
      u'.unitA = u.unitA ∧ u'.unitB = u.unitB ∧ u'.nanDraws = u.nanDraws ∧ u'.index = u.index := by
  obtain ⟨hb, hc, hd⟩ := exec_unitA_keeps hi ht
  obtain ⟨ha', hc'⟩ := exec_unitB_keeps hj ht'
  obtain ⟨a, r, e, hA⟩ := exec_unitA_of_next hi ht
  obtain ⟨b, d, r', e', hB⟩ := exec_unitB_of_next hj ht'
  rw [hB t hb hc hd, ok_eq_next_iff] at hu
  rw [hA t' ha' hc', ok_eq_next_iff] at hu'
  rw [hA s rfl rfl, ok_eq_next_iff] at ht
  rw [hB s rfl rfl rfl, ok_eq_next_iff] at ht'
  subst hu hu' ht ht'
  refine ⟨r, e, r', e', ?_, ?_, ?_, ?_, rfl, rfl, rfl, rfl⟩
  all_goals exact completed_complete _ _ rfl rfl rfl rfl rfl rfl rfl

end

/-- Settles O11: neither unit's command reads what the other writes, so each completes or stops as it does alone, and where both complete the diamond closes. -/
theorem unitsCommute : Obligations.UnitsCommute := by
  unfold Obligations.UnitsCommute
  intro i j s hi hj
  refine ⟨fun t u ht hu => ?_, fun t' u' ht' hu' => ?_, fun t ht => ?_, fun t' ht' => ?_⟩
  · obtain ⟨t', ht'⟩ := (exec_unitB_after_unitA hi hj ht).exists_next_iff.mp ⟨u, hu⟩
    obtain ⟨u', hu'⟩ := (exec_unitA_after_unitB hi hj ht').exists_next_iff.mpr ⟨t, ht⟩
    obtain ⟨r, e, r', e', h⟩ := exec_units_diamond hi hj ht hu ht' hu'
    exact ⟨t', u', r, e, r', e', ht', hu', h⟩
  · obtain ⟨t, ht⟩ := (exec_unitA_after_unitB hi hj ht').exists_next_iff.mp ⟨u', hu'⟩
    obtain ⟨u, hu⟩ := (exec_unitB_after_unitA hi hj ht).exists_next_iff.mpr ⟨t', ht'⟩
    obtain ⟨r, e, r', e', hst, htu, hst', htu', hA, hB, hd, hk⟩ := exec_units_diamond hi hj ht hu ht' hu'
    exact ⟨t, u, r, e, r', e', ht, hu, hst, htu, hst', htu', hA.symm, hB.symm, hd.symm, hk.symm⟩
  · have h := exec_unitB_after_unitA hi hj ht
    exact ⟨h.fault_iff, h.refused_iff⟩
  · have h := exec_unitA_after_unitB hi hj ht'
    exact ⟨h.fault_iff, h.refused_iff⟩

/-! ### The register bus -/

section
variable {s : State} {req : Request} {rest : List Request}

/-- With no stop recorded a step runs the command the front request asks for. -/
theorem step_of_requestCommand_ok {i : Instr} (hf : s.faultMark = none) (hr : s.refusalMark = none) (hp : s.port = req :: rest)
    (h : requestCommand s.format req = .ok i) : step s = exec i (s.issue req.agent rest) := by
  simp only [step, hf, hr, hp, h]

/-- With no stop recorded a step refuses a front request that asks for no command. -/
theorem step_of_requestCommand_error {r : Refusal} (hf : s.faultMark = none) (hr : s.refusalMark = none) (hp : s.port = req :: rest)
    (h : requestCommand s.format req = .error r) : step s = .refused r := by
  simp only [step, hf, hr, hp, h]

end

/-- The address of a bus access. -/
def busAddr : BusAccess → Nat
  | .read8 a | .read16 a | .read32 a | .write8 a _ | .write16 a _ | .write32 a _ => a.toNat

/-- The number of bytes of a bus access. -/
def busBytes : BusAccess → Nat
  | .read8 _ | .write8 _ _ => 1
  | .read16 _ | .write16 _ _ => 2
  | .read32 _ | .write32 _ _ => 4

theorem touchesCnt_iff (addr width : Nat) : touchesCnt addr width = true ↔ addr < 0x04000186 ∧ 0x04000184 < addr + width := by
  rw [touchesCnt, Bool.and_eq_true, decide_eq_true_iff, decide_eq_true_iff]
  rfl

/-- R54: an access that touches CNT and is not its 16-bit access is refused BUS_WIDTH; the send and the receive address do not touch it. -/
theorem busCommand_of_touchesCnt (p : Proc) {acc : BusAccess} (h : touchesCnt (busAddr acc) (busBytes acc) = true)
    (hne : busBytes acc = 2 → busAddr acc ≠ cntAddr) : busCommand p acc = .error .busWidth := by
  have hw : busRefusal (busAddr acc) (busBytes acc) = .busWidth := if_pos h
  have ht := (touchesCnt_iff ..).mp h
  cases acc with
  | read8 a | write8 a v => exact congrArg Except.error hw
  | read16 a | write16 a v => exact (if_neg (hne rfl)).trans (congrArg Except.error hw)
  | read32 a =>
    have : a.toNat ≠ recvAddr := by simp only [busAddr, recvAddr] at ht ⊢; omega
    exact (if_neg this).trans (congrArg Except.error hw)
  | write32 a v =>
    have : a.toNat ≠ sendAddr := by simp only [busAddr, sendAddr] at ht ⊢; omega
    exact (if_neg this).trans (congrArg Except.error hw)

/-- Settles O7: the four accesses by the mapping, every other one that touches CNT by R54. -/
theorem busAccessesIssueTheirCommands : Obligations.BusAccessesIssueTheirCommands := by
  unfold Obligations.BusAccessesIssueTheirCommands
  intro s p acc rest hf hr hp
  have runs : ∀ {i}, busCommand p acc = .ok i → step s = exec i (s.issue (.processor p) rest) := step_of_requestCommand_ok hf hr hp
  have refuses : busAddr acc < 0x04000186 → 0x04000184 < busAddr acc + busBytes acc → (busBytes acc = 2 → busAddr acc ≠ 0x04000184) →
      step s = .refused .busWidth := fun hlt hgt hne =>
    step_of_requestCommand_error hf hr hp (busCommand_of_touchesCnt p ((touchesCnt_iff ..).mpr ⟨hlt, hgt⟩) hne)
  refine ⟨?read16, ?write16, ?write32, ?read32, fun a hacc ha => ?width8, fun a hacc ha => ?width16, fun a hacc hlow hhigh => ?width32⟩
  case read16 => rintro rfl; exact runs rfl
  case write16 => rintro v rfl; exact runs rfl
  case write32 => rintro v rfl; exact runs rfl
  case read32 => rintro rfl; exact runs rfl
  case width8 =>
    obtain ⟨haddr, hbytes⟩ : busAddr acc = a.toNat ∧ busBytes acc = 1 := by obtain rfl | ⟨v, rfl⟩ := hacc <;> exact ⟨rfl, rfl⟩
    have hnat : a.toNat = 0x04000184 ∨ a.toNat = 0x04000185 := ha.imp (congrArg BitVec.toNat) (congrArg BitVec.toNat)
    exact refuses (by omega) (by omega) (by omega)
  case width16 =>
    obtain ⟨haddr, hbytes⟩ : busAddr acc = a.toNat ∧ busBytes acc = 2 := by obtain rfl | ⟨v, rfl⟩ := hacc <;> exact ⟨rfl, rfl⟩
    have hnat : a.toNat = 0x04000183 ∨ a.toNat = 0x04000185 := ha.imp (congrArg BitVec.toNat) (congrArg BitVec.toNat)
    exact refuses (by omega) (by omega) (by omega)
  case width32 =>
    obtain ⟨haddr, hbytes⟩ : busAddr acc = a.toNat ∧ busBytes acc = 4 := by obtain rfl | ⟨v, rfl⟩ := hacc <;> exact ⟨rfl, rfl⟩
    exact refuses (by omega) (by omega) (by omega)

/-! ### The bank location of CNT -/

section
variable {s : State} {p : Proc}

theorem bankByte_cnt_low (h : s.unitA.init.get p = true) : s.bankByte p 0x184 = some ((s.cnt p).extractLsb' 0 8) := by
  simp [State.bankByte, h, cntOffset]

theorem bankByte_cnt_high (h : s.unitA.init.get p = true) : s.bankByte p 0x185 = some ((s.cnt p).extractLsb' 8 8) := by
  simp [State.bankByte, h, cntOffset]

theorem bankByte_of_ne (s : State) (p : Proc) {offset : Nat} (hlow : offset ≠ 0x184) (hhigh : offset ≠ 0x185) : s.bankByte p offset = none := by
  simp [State.bankByte, cntOffset, hlow, hhigh]

theorem bankRead16_cnt (h : s.unitA.init.get p = true) : s.bankRead16 p 0x184 = some (s.cnt p) := by
  simp only [State.bankRead16, bankByte_cnt_low h, bankByte_cnt_high h]
  exact congrArg some ((BitVec.extractLsb'_append_extractLsb'_eq_extractLsb' (start₁ := 0) (len₁ := 8) rfl).trans BitVec.extractLsb'_eq_self)

end

/-- Settles O23: the two bytes of the location are the halves of the register. -/
theorem bankLocationIsTheRegister : Obligations.BankLocationIsTheRegister := by
  unfold Obligations.BankLocationIsTheRegister
  intro p s h
  have hlow : (s.cnt p).extractLsb' 0 8 = BitVec.ofNat 8 ((s.cnt p).toNat % 256) := BitVec.eq_of_toNat_eq (by simp)
  have hhigh : (s.cnt p).extractLsb' 8 8 = BitVec.ofNat 8 ((s.cnt p).toNat / 256) := BitVec.eq_of_toNat_eq (by simp [Nat.shiftRight_eq_div_pow])
  exact ⟨bankRead16_cnt h, hlow ▸ bankByte_cnt_low h, hhigh ▸ bankByte_cnt_high h, fun _ => bankByte_of_ne s p⟩

end Sys2Proof.Machine
end

section
/-! PROOFS. The decoder and the encoder are inverse, and what each reserved bit is refused for (30_encoding.md R70 to R83, R85, 60_exceptions.md R197): O1 to O5. -/

namespace Sys2Proof

/-! ### Bit fields as bounds on the word -/

/-- The bits from `k` up are all zero exactly when the word is below `2 ^ k`. -/
theorem extractLsb'_high_eq_zero_iff {w : Nat} (x : BitVec w) (k n : Nat) (h : w = k + n) : x.extractLsb' k n = 0#n ↔ x.toNat < 2 ^ k := by
  have hdiv : x.toNat / 2 ^ k < 2 ^ n := Nat.div_lt_of_lt_mul (by rw [← pow_add, ← h]; exact x.isLt)
  rw [← BitVec.toNat_inj, BitVec.extractLsb'_toNat, Nat.shiftRight_eq_div_pow, BitVec.toNat_ofNat, Nat.zero_mod, Nat.mod_eq_of_lt hdiv,
    Nat.div_eq_zero_iff]
  simp

theorem extractLsb'_low_zeroExtend (v : U16) : (v.zeroExtend 32).extractLsb' 0 16 = v :=
  BitVec.eq_of_toNat_eq (by simp [Nat.mod_eq_of_lt v.isLt])

theorem zeroExtend_extractLsb'_low {arg : U32} (h : arg.toNat < 2 ^ 16) : (arg.extractLsb' 0 16).zeroExtend 32 = arg :=
  BitVec.eq_of_toNat_eq (by simp; omega)

theorem zeroExtend_ofBool_getLsbD_zero {arg : U32} (h : arg.toNat < 2) : (BitVec.ofBool (arg.getLsbD 0)).zeroExtend 32 = arg := by
  obtain h | h : arg.toNat = 0 ∨ arg.toNat = 1 := by omega
  · rw [show arg = 0#32 from BitVec.eq_of_toNat_eq h]; decide
  · rw [show arg = 1#32 from BitVec.eq_of_toNat_eq h]; decide

theorem cmdOpc_toNat (cmd : U32) : (cmdOpc cmd).toNat = cmd.toNat % 256 := by simp [cmdOpc]

theorem cmdRes_eq_zero_iff (cmd : U32) : cmdRes cmd = 0#23 ↔ cmd.toNat < 512 := extractLsb'_high_eq_zero_iff cmd 9 23 rfl

theorem cmdP_eq_true_iff (cmd : U32) : cmdP cmd = true ↔ cmd.toNat / 256 % 2 = 1 := by
  simp [cmdP, BitVec.getLsbD, Nat.testBit_eq_decide_div_mod_eq]

/-- The unit B commands are those of the opcodes from 0x10 on. -/
theorem Opcode.usesP_eq_false_iff (op : Opcode) : op.usesP = false ↔ 0x10 ≤ op.code.toNat := by cases op <;> decide

/-- R77: the opcode map is the two blocks 0x01 to 0x05 and 0x10 to 0x17, with no gap in either. -/
theorem Opcode.ofCode_eq_none_iff_toNat (c : BitVec 8) :
    Opcode.ofCode c = none ↔ c.toNat = 0 ∨ (0x06 ≤ c.toNat ∧ c.toNat ≤ 0x0F) ∨ 0x18 ≤ c.toNat := by
  revert c; decide

/-! ### Sample words -/

/-- An i16 sample word is refused when its value lies between the non-negative and the negative samples. -/
theorem i16OfWord_eq_none_iff (w : U32) : i16OfWord w = none ↔ 0x8000 ≤ w.toNat ∧ w.toNat < 0xFFFF8000 := by
  have hw := w.isLt
  have hnone : i16OfWord w = none ↔ i16Word (w.extractLsb' 0 16) ≠ w := by simp [i16OfWord]
  rw [hnone, ne_eq, ← BitVec.toNat_inj, i16Word, BitVec.toNat_signExtend, BitVec.msb_eq_decide]
  simp only [BitVec.toNat_setWidth, BitVec.extractLsb'_toNat, Nat.shiftRight_zero, decide_eq_true_eq]
  split <;> omega

theorem length_of_i16sOfWords {ws : List U32} {ss : List I16} (h : i16sOfWords ws = some ss) : ss.length = ws.length := by
  rw [← map_of_i16sOfWords h, List.length_map]

/-! ### Blocks -/

theorem Block.wellFormed_iff (fmt : PutFormat) (b : Block) :
    b.wellFormed fmt = true ↔ b.variant = fmt.variant ∧ b.framesHave fmt.channels.count = true ∧ b.length < 2 ^ 32 := by
  simp [Block.wellFormed, and_assoc]

theorem length_wordsOfBlock {w : Nat} {b : Block} (h : b.framesHave w = true) : (wordsOfBlock b).length = b.length * w := by
  cases b with
  | i16 x => exact (List.length_map _).trans (length_flatten_of_width w x ((Block.framesHave_i16 w x).mp h))
  | f32 x => exact length_flatten_of_width w x ((Block.framesHave_f32 w x).mp h)

section
variable {fmt : PutFormat} {ws : List U32} {b : Block}

theorem blockOfWords_fixed (h : fmt.variant = .fixed) : blockOfWords fmt ws = (i16sOfWords ws).map fun ss => .i16 (framesOf fmt.channels ss) := by
  simp only [blockOfWords, h]
  cases i16sOfWords ws <;> rfl

theorem blockOfWords_float (h : fmt.variant = .float) : blockOfWords fmt ws = some (.f32 (framesOf fmt.channels ws)) := by
  simp only [blockOfWords, h]

/-- Only an i16 sample word is ever refused. -/
theorem blockOfWords_fixed_eq_none_iff (h : fmt.variant = .fixed) : blockOfWords fmt ws = none ↔ ∃ w ∈ ws, i16OfWord w = none := by
  rw [blockOfWords_fixed h, Option.map_eq_none_iff, i16sOfWords_eq_none_iff]

/-- Reading back the words of a block of the right sample type and width gives the block. -/
theorem blockOfWords_wordsOfBlock (hv : b.variant = fmt.variant) (hw : b.framesHave fmt.channels.count = true) :
    blockOfWords fmt (wordsOfBlock b) = some b := by
  cases b with
  | i16 x => rw [blockOfWords_fixed hv.symm, wordsOfBlock, i16sOfWords_map, Option.map_some, framesOf_flatten _ x ((Block.framesHave_i16 _ x).mp hw)]
  | f32 x => rw [blockOfWords_float hv.symm, wordsOfBlock, framesOf_flatten _ x ((Block.framesHave_f32 _ x).mp hw)]

/-- The block read from words has the sample type in force and exactly those words; from the words of `n` frames it has `n` frames of the width in force. -/
theorem blockOfWords_spec (h : blockOfWords fmt ws = some b) :
    b.variant = fmt.variant ∧ wordsOfBlock b = ws ∧
      ∀ n, ws.length = n * fmt.channels.count → b.length = n ∧ b.framesHave fmt.channels.count = true := by
  cases hv : fmt.variant with
  | fixed =>
    rw [blockOfWords_fixed hv, Option.map_eq_some_iff] at h
    obtain ⟨ss, hss, rfl⟩ := h
    refine ⟨rfl, by rw [wordsOfBlock, flatten_framesOf, map_of_i16sOfWords hss], fun n hn => ?_⟩
    obtain ⟨hlen, hw⟩ := framesOf_shape fmt.channels ss n ((length_of_i16sOfWords hss).trans hn)
    exact ⟨hlen, (Block.framesHave_i16 _ _).mpr hw⟩
  | float =>
    rw [blockOfWords_float hv, Option.some_inj] at h
    subst h
    refine ⟨rfl, flatten_framesOf _ ws, fun n hn => ?_⟩
    obtain ⟨hlen, hw⟩ := framesOf_shape fmt.channels ws n hn
    exact ⟨hlen, (Block.framesHave_f32 _ _).mpr hw⟩

end

/-! ### The operands of TR.PUT -/

section
variable {fmt : PutFormat} {n : U32} {ws rest : List U32}

theorem decodePut_of_block {b : Block} (hlen : ws.length = n.toNat * fmt.channels.count) (h : blockOfWords fmt ws = some b) :
    decodePut fmt (n :: (ws ++ rest)) = .ok (.trPut b, rest) := by
  simp [decodePut, ← hlen, h]

theorem decodePut_of_no_block (hlen : ws.length = n.toNat * fmt.channels.count) (h : blockOfWords fmt ws = none) :
    decodePut fmt (n :: (ws ++ rest)) = .error .reservedBits := by
  simp [decodePut, ← hlen, h]

/-- What accepted operands are: the frame count, the sample words of a block, and the words left over. -/
theorem decodePut_eq_ok {i : Instr} (h : decodePut fmt ws = .ok (i, rest)) :
    ∃ n body b, ws = n :: (body ++ rest) ∧ body.length = n.toNat * fmt.channels.count ∧ blockOfWords fmt body = some b ∧ i = .trPut b := by
  cases ws with
  | nil => cases h
  | cons n ws =>
    simp only [decodePut] at h
    split at h
    · cases h
    · rename_i hlen
      split at h
      · cases h
      · rename_i b hb
        cases h
        exact ⟨n, _, b, by rw [List.take_append_drop], by rw [List.length_take]; omega, hb, rfl⟩

theorem decodePut_ne_reservedOpcode : decodePut fmt ws ≠ .error .reservedOpcode := by
  intro h
  cases ws with
  | nil => cases h
  | cons n ws =>
    simp only [decodePut] at h
    split at h
    · cases h
    · split at h <;> cases h

end

/-- The encoded operands of a well-formed block decode to it. -/
theorem decodePut_wordsOfBlock {fmt : PutFormat} {b : Block} (rest : List U32) (h : b.wellFormed fmt = true) :
    decodePut fmt (BitVec.ofNat 32 b.length :: (wordsOfBlock b ++ rest)) = .ok (.trPut b, rest) := by
  obtain ⟨hv, hw, hlen⟩ := (Block.wellFormed_iff fmt b).mp h
  refine decodePut_of_block ?_ (blockOfWords_wordsOfBlock hv hw)
  rw [BitVec.toNat_ofNat, Nat.mod_eq_of_lt hlen, length_wordsOfBlock hw]

/-- Operands that decode are the encoded operands of a well-formed block. -/
theorem wordsOfBlock_of_decodePut {fmt : PutFormat} {ws rest : List U32} {i : Instr} (h : decodePut fmt ws = .ok (i, rest)) :
    ∃ b, i = .trPut b ∧ b.wellFormed fmt = true ∧ ws = BitVec.ofNat 32 b.length :: (wordsOfBlock b ++ rest) := by
  obtain ⟨n, body, b, rfl, hlen, hb, rfl⟩ := decodePut_eq_ok h
  obtain ⟨hv, rfl, hshape⟩ := blockOfWords_spec hb
  obtain ⟨hn, hw⟩ := hshape _ hlen
  refine ⟨b, rfl, (Block.wellFormed_iff fmt b).mpr ⟨hv, hw, hn ▸ n.isLt⟩, ?_⟩
  rw [hn, BitVec.ofNat_toNat, BitVec.setWidth_eq]

/-! ### The operands of every command -/

section
variable {fmt : PutFormat} {op : Opcode} {p : Bool} {ws rest : List U32}

theorem decodeOperands_fifoCnt (q : Proc) (arg : U32) (rest : List U32) : decodeOperands fmt .fifoCnt q (arg :: rest) =
    if arg.toNat < 2 ^ 16 then .ok (.fifoCnt q (arg.extractLsb' 0 16), rest) else .error .reservedBits := by
  simp only [decodeOperands, extractLsb'_high_eq_zero_iff arg 16 16 rfl]

theorem decodeOperands_trSetaa (q : Proc) (arg : U32) (rest : List U32) : decodeOperands fmt .trSetaa q (arg :: rest) =
    if arg.toNat < 2 then .ok (.trSetaa (arg.getLsbD 0), rest) else .error .reservedBits := by
  simp only [decodeOperands, extractLsb'_high_eq_zero_iff arg 1 31 rfl, pow_one]

/-- Operands that decode after a command word without a reserved bit are, with it, the encoding of a well-formed command (R74, R79 to R83). -/
theorem encode_of_decodeOperands {i : Instr} (hp : op.usesP = true ∨ p = false) (h : decodeOperands fmt op (Proc.ofBit p) ws = .ok (i, rest)) :
    i.wellFormed fmt = true ∧ encode i ++ rest = cmdWord op p :: ws := by
  cases op with
  | fifoInit | fifoRecv | fifoRdcnt =>
    cases h
    exact ⟨rfl, by simp [encode]⟩
  | trReset | trClear | trIsempty =>
    cases hp.resolve_left nofun
    cases h
    exact ⟨rfl, rfl⟩
  | fifoSend =>
    cases ws with
    | nil => cases h
    | cons v ws =>
      cases h
      exact ⟨rfl, by simp [encode]⟩
  | trSetrate | trSetch | trReceive =>
    cases hp.resolve_left nofun
    cases ws with
    | nil => cases h
    | cons v ws =>
      cases h
      exact ⟨rfl, rfl⟩
  | fifoCnt =>
    cases ws with
    | nil => cases h
    | cons arg ws =>
      rw [decodeOperands_fifoCnt] at h
      split at h
      · rename_i harg
        cases h
        exact ⟨rfl, by simp [encode, zeroExtend_extractLsb'_low harg]⟩
      · cases h
  | trSetaa =>
    cases hp.resolve_left nofun
    cases ws with
    | nil => cases h
    | cons arg ws =>
      rw [decodeOperands_trSetaa] at h
      split at h
      · rename_i harg
        cases h
        exact ⟨rfl, by rw [encode, zeroExtend_ofBool_getLsbD_zero harg]; rfl⟩
      · cases h
  | trPut =>
    cases hp.resolve_left nofun
    obtain ⟨b, rfl, hwf, rfl⟩ := wordsOfBlock_of_decodePut h
    exact ⟨hwf, rfl⟩

/-- Operands are refused for their reserved bits or for their number. -/
theorem decodeOperands_ne_reservedOpcode (q : Proc) : decodeOperands fmt op q ws ≠ .error .reservedOpcode := by
  intro h
  cases op with
  | fifoInit | fifoRecv | fifoRdcnt | trReset | trClear | trIsempty => cases h
  | fifoSend | trSetrate | trSetch | trReceive => cases ws <;> cases h
  | fifoCnt | trSetaa =>
    cases ws with
    | nil => cases h
    | cons arg ws =>
      simp only [decodeOperands] at h
      split at h <;> cases h
  | trPut => exact decodePut_ne_reservedOpcode h

end

/-! ### The command word -/

section
variable {fmt : PutFormat} {op : Opcode} {p : Bool} {cmd : U32} {ws : List U32}

theorem decodeFront_of_reservedOpcode (h : Opcode.ofCode (cmdOpc cmd) = none) : decodeFront fmt (cmd :: ws) = .error .reservedOpcode := by
  simp only [decodeFront, h]

theorem decodeFront_of_reservedBits (hop : Opcode.ofCode (cmdOpc cmd) = some op) (h : cmdRes cmd ≠ 0#23 ∨ (op.usesP = false ∧ cmdP cmd = true)) :
    decodeFront fmt (cmd :: ws) = .error .reservedBits := by
  simp only [decodeFront, hop]
  split
  · rfl
  · rw [if_pos (h.resolve_left ‹_›)]

/-- After a command word without a reserved bit the operands are decoded. -/
theorem decodeFront_cmdWord (hp : op.usesP = true ∨ p = false) :
    decodeFront fmt (cmdWord op p :: ws) = decodeOperands fmt op (Proc.ofBit p) ws := by
  have hbit : ¬ (op.usesP = false ∧ p = true) := by rintro ⟨hu, rfl⟩; simp [hu] at hp
  simp [decodeFront, hbit]

theorem decodeFront_trPut : decodeFront fmt (cmdWord .trPut false :: ws) = decodePut fmt ws := decodeFront_cmdWord (.inr rfl)

/-- Every command word has a reserved opcode, a reserved bit, or is the word of an opcode and a processor bit. -/
theorem cmdWord_cases (cmd : U32) : Opcode.ofCode (cmdOpc cmd) = none ∨
    (∃ op, Opcode.ofCode (cmdOpc cmd) = some op ∧ (cmdRes cmd ≠ 0#23 ∨ (op.usesP = false ∧ cmdP cmd = true))) ∨
    ∃ op p, cmd = cmdWord op p ∧ (op.usesP = true ∨ p = false) := by
  cases hop : Opcode.ofCode (cmdOpc cmd) with
  | none => exact .inl rfl
  | some op =>
    by_cases hbits : cmdRes cmd ≠ 0#23 ∨ (op.usesP = false ∧ cmdP cmd = true)
    · exact .inr (.inl ⟨op, rfl, hbits⟩)
    · push Not at hbits
      obtain ⟨hres, hP⟩ := hbits
      exact .inr (.inr ⟨op, cmdP cmd, (cmdWord_of_fields (Opcode.code_of_ofCode hop) hres).symm, by cases hu : op.usesP <;> simp_all⟩)

end

/-! ### One whole command -/

section
variable {fmt : PutFormat} {ws rest : List U32} {i : Instr}

theorem decode_eq_ok_iff : decode fmt ws = .ok i ↔ decodeFront fmt ws = .ok (i, []) := by
  unfold decode
  split <;> simp_all

/-- A refusal for another reason than the number of words is the one of the front command. -/
theorem decode_eq_error_iff (e : DecodeError) (he : e ≠ .wordCount) : decode fmt ws = .error e ↔ decodeFront fmt ws = .error e := by
  unfold decode
  split <;> simp_all [he.symm]

/-- A well-formed command is decoded from the front of its encoding. -/
theorem decodeFront_encode (rest : List U32) (h : i.wellFormed fmt = true) : decodeFront fmt (encode i ++ rest) = .ok (i, rest) := by
  cases i with
  | fifoInit p | fifoSend p v | fifoRecv p | fifoRdcnt p =>
    refine (decodeFront_cmdWord (.inl rfl)).trans ?_
    rw [Proc.ofBit_toBit]
    rfl
  | fifoCnt p v =>
    refine (decodeFront_cmdWord (.inl rfl)).trans ((decodeOperands_fifoCnt ..).trans ?_)
    rw [Proc.ofBit_toBit, extractLsb'_low_zeroExtend, if_pos (by simp; omega)]
    rfl
  | trReset | trSetrate r | trSetch n | trReceive n | trClear | trIsempty => exact decodeFront_cmdWord (.inr rfl)
  | trSetaa b =>
    refine (decodeFront_cmdWord (.inr rfl)).trans ?_
    cases b <;> rfl
  | trPut b => exact decodeFront_trPut.trans (decodePut_wordsOfBlock rest h)

/-- The front command that words decode to is well formed, and they are its encoding and the words left over. -/
theorem encode_of_decodeFront (h : decodeFront fmt ws = .ok (i, rest)) : i.wellFormed fmt = true ∧ encode i ++ rest = ws := by
  cases ws with
  | nil => cases h
  | cons cmd ws =>
    obtain hop | ⟨op, hop, hbits⟩ | ⟨op, p, rfl, hp⟩ := cmdWord_cases cmd
    · cases (decodeFront_of_reservedOpcode hop).symm.trans h
    · cases (decodeFront_of_reservedBits hop hbits).symm.trans h
    · exact encode_of_decodeOperands hp ((decodeFront_cmdWord hp).symm.trans h)

end

/-- Settles O1, by the command; the sample words and the frames of a TR.PUT are the one case with a condition. -/
theorem decodeOfEncodeIsTheCommand : Obligations.DecodeOfEncodeIsTheCommand := by
  unfold Obligations.DecodeOfEncodeIsTheCommand
  intro fmt i rest h
  refine ⟨decodeFront_encode rest h, decode_eq_ok_iff.mpr ?_⟩
  simpa using decodeFront_encode [] h

/-- Settles O2, by what the command word is and then by the opcode. -/
theorem encodeOfDecodeIsTheWords : Obligations.EncodeOfDecodeIsTheWords := by
  unfold Obligations.EncodeOfDecodeIsTheWords
  intro fmt ws i h
  simpa using encode_of_decodeFront (decode_eq_ok_iff.mp h)

/-! ### Reserved words -/

section
variable {fmt : PutFormat} {cmd : U32} {ws : List U32}

/-- The opcode is checked first: nothing else of the words decides this refusal. -/
theorem decodeFront_eq_reservedOpcode_iff : decodeFront fmt (cmd :: ws) = .error .reservedOpcode ↔ Opcode.ofCode (cmdOpc cmd) = none := by
  obtain hop | ⟨op, hop, hbits⟩ | ⟨op, p, rfl, hp⟩ := cmdWord_cases cmd
  · simp [hop, decodeFront_of_reservedOpcode]
  · simp [hop, decodeFront_of_reservedBits hop hbits]
  · simp [decodeFront_cmdWord hp, decodeOperands_ne_reservedOpcode]

/-- The reserved bits of a command word, as bounds on it. -/
theorem reservedBits_of_le {op : Opcode} (hop : Opcode.ofCode (cmdOpc cmd) = some op)
    (h : 512 ≤ cmd.toNat ∨ (0x10 ≤ cmd.toNat % 256 ∧ 256 ≤ cmd.toNat)) : cmdRes cmd ≠ 0#23 ∨ (op.usesP = false ∧ cmdP cmd = true) := by
  rw [ne_eq, cmdRes_eq_zero_iff, Opcode.usesP_eq_false_iff, Opcode.code_of_ofCode hop, cmdOpc_toNat, cmdP_eq_true_iff]
  omega

end

/-- Settles O3: the opcode map leaves no gap in its two blocks, and a unit B command word with a zero RES field is at least 256 exactly when its bit 8 is set. -/
theorem reservedCommandWordsAreRefused : Obligations.ReservedCommandWordsAreRefused := by
  unfold Obligations.ReservedCommandWordsAreRefused
  intro fmt cmd ws
  have hmap := Opcode.ofCode_eq_none_iff_toNat (cmdOpc cmd)
  rw [cmdOpc_toNat] at hmap
  refine ⟨?opcode, fun hcode hbits => ?bits⟩
  case opcode => rw [decode_eq_error_iff .reservedOpcode nofun, decodeFront_eq_reservedOpcode_iff, hmap]
  case bits =>
    obtain ⟨op, hop⟩ : ∃ op, Opcode.ofCode (cmdOpc cmd) = some op := Option.ne_none_iff_exists'.mp (by rw [ne_eq, hmap]; omega)
    exact (decode_eq_error_iff .reservedBits nofun).mpr (decodeFront_of_reservedBits hop (reservedBits_of_le hop hbits))

section
variable {fmt : PutFormat} {n : U32} {ws : List U32}

theorem decode_fifoCnt_eq_reservedBits_iff (p : Bool) (arg : U32) :
    decode fmt [cmdWord .fifoCnt p, arg] = .error .reservedBits ↔ 2 ^ 16 ≤ arg.toNat := by
  rw [decode_eq_error_iff .reservedBits nofun, decodeFront_cmdWord (.inl rfl), decodeOperands_fifoCnt]
  split <;> simp <;> omega

theorem decode_trSetaa_eq_reservedBits_iff (arg : U32) : decode fmt [cmdWord .trSetaa false, arg] = .error .reservedBits ↔ 2 ≤ arg.toNat := by
  rw [decode_eq_error_iff .reservedBits nofun, decodeFront_cmdWord (.inr rfl), decodeOperands_trSetaa]
  split <;> simp <;> omega

/-- With the right number of words, a TR.PUT decodes to the block of its sample words. -/
theorem decode_trPut_of_block {b : Block} (hlen : ws.length = n.toNat * fmt.channels.count) (h : blockOfWords fmt ws = some b) :
    decode fmt (cmdWord .trPut false :: n :: ws) = .ok (.trPut b) := by
  rw [decode_eq_ok_iff, decodeFront_trPut]
  simpa using decodePut_of_block (rest := []) hlen h

/-- With the right number of words, a TR.PUT is refused exactly when its sample words make no block. -/
theorem decode_trPut_eq_reservedBits_iff (hlen : ws.length = n.toNat * fmt.channels.count) :
    decode fmt (cmdWord .trPut false :: n :: ws) = .error .reservedBits ↔ blockOfWords fmt ws = none := by
  cases hb : blockOfWords fmt ws with
  | some b => simp [decode_trPut_of_block hlen hb]
  | none =>
    rw [decode_eq_error_iff .reservedBits nofun, decodeFront_trPut]
    simpa using decodePut_of_no_block (rest := []) hlen hb

end

/-- Settles O4: the operand words written out are the words of FIFO.CNT for either processor, TR.SETAA and TR.PUT. -/
theorem reservedOperandBitsAreRefused : Obligations.ReservedOperandBitsAreRefused := by
  unfold Obligations.ReservedOperandBitsAreRefused
  refine ⟨fun fmt => decode_fifoCnt_eq_reservedBits_iff false, fun fmt => decode_fifoCnt_eq_reservedBits_iff true,
    fun fmt => decode_trSetaa_eq_reservedBits_iff, fun ch n ws hlen => ?fixed, fun ch n ws hlen => ?float⟩
  case fixed =>
    refine (decode_trPut_eq_reservedBits_iff (fmt := ⟨ch, .fixed⟩) hlen).trans ?_
    simp only [blockOfWords_fixed_eq_none_iff, i16OfWord_eq_none_iff]
  case float =>
    exact ⟨framesOf ch ws, decode_trPut_of_block (fmt := ⟨ch, .float⟩) hlen rfl, (framesOf_shape ch ws n.toNat hlen).1, flatten_framesOf ch ws⟩

/-- Settles O5: the decoder run on each row of words. -/
theorem writtenOutWordsDecode : Obligations.WrittenOutWordsDecode := by
  unfold Obligations.WrittenOutWordsDecode
  decide

end Sys2Proof
end

section
/-! PROOFS. The commands of unit A: what each leaves, which can change ERROR, the agreement of the receiver's bits, and the queue as a first-in first-out list
(40_fifo.md R100, R101, R110 to R124, R130 to R136; 10_state.md R33; 60_exceptions.md R191, R192): O12, O14 to O22 and O28 to O31. -/

namespace Sys2Proof.Machine
open Sys2Proof

/-! ### What a command leaves -/

/-- A completed command of unit A on processor `p` that leaves the registers `cl` of `p` and `cr` of its peer, the send queues `ql` of `p` and `qr` of its peer, and all
else of the block as it was. -/
structure LeavesUnitA (p : Proc) (cl cr : U16) (ql qr : Queue) (result : List U32) (events : List Event) (s t : State) : Prop where
  cnt : t.cnt p = cl
  cnt_peer : t.cnt p.peer = cr
  queue : t.queue p = ql
  queue_peer : t.queue p.peer = qr
  init : t.unitA.init = s.unitA.init
  unitB : SameUnitB s t
  completed : Completed s t result events

section
variable {p : Proc} {cl cr : U16} {ql qr : Queue} {result : List U32} {events : List Event} {s t u : State}

/-- A command that completes from a state with these registers and queues, and the rest of `s`. -/
theorem LeavesUnitA.of_ok {a : UnitA} (h : u.ok result events = .next t) (ha : u = { s with unitA := a }) (hi : a.init = s.unitA.init) (hcl : u.cnt p = cl)
    (hcr : u.cnt p.peer = cr) (hql : u.queue p = ql) (hqr : u.queue p.peer = qr) : LeavesUnitA p cl cr ql qr result events s t := by
  subst ha
  rw [ok_eq_next_iff] at h
  subst h
  exact ⟨hcl, hcr, hql, hqr, hi, ⟨rfl, rfl⟩, completed_complete _ _ rfl rfl rfl rfl rfl rfl rfl⟩

/-- A command that only completes leaves everything. -/
theorem LeavesUnitA.of_ok_same (h : s.ok result events = .next t) :
    LeavesUnitA p (s.cnt p) (s.cnt p.peer) (s.queue p) (s.queue p.peer) result events s t :=
  .of_ok h rfl rfl rfl rfl rfl rfl

/-- A command that only writes its own register. -/
theorem LeavesUnitA.of_ok_setCnt (h : (s.setCnt p cl).ok result events = .next t) :
    LeavesUnitA p cl (s.cnt p.peer) (s.queue p) (s.queue p.peer) result events s t :=
  .of_ok h rfl rfl (setCnt_cnt ..) (setCnt_cnt_peer ..) rfl rfl

/-- A command that writes its own queue and both registers. -/
theorem LeavesUnitA.of_ok_setQueue (h : (((s.setQueue p ql).setCnt p cl).setCnt p.peer cr).ok result events = .next t) :
    LeavesUnitA p cl cr ql (s.queue p.peer) result events s t :=
  .of_ok h rfl rfl (by simp) (by simp) (by simp) (by simp)

/-- A command that writes its peer's queue and both registers. -/
theorem LeavesUnitA.of_ok_setQueue_peer (h : (((s.setQueue p.peer qr).setCnt p cl).setCnt p.peer cr).ok result events = .next t) :
    LeavesUnitA p cl cr (s.queue p) qr result events s t :=
  .of_ok h rfl rfl (by simp) (by simp) (by simp) (by simp)

/-- A command that leaves both queues leaves the queues of unit A. -/
theorem LeavesUnitA.queues (h : LeavesUnitA p cl cr (s.queue p) (s.queue p.peer) result events s t) : t.unitA.queue = s.unitA.queue := by
  refine PerProc.ext_get _ fun q => ?_
  rcases eq_or_eq_peer p q with rfl | rfl
  · exact h.queue
  · exact h.queue_peer

end

section
variable {p : Proc} {s t : State}

/-- A successful SEND leaves the appended queue and both registers updated (R110). -/
abbrev Sent (p : Proc) (v : U32) (s t : State) : Prop :=
  LeavesUnitA p (Cnt.afterSendLocal s.cfg.errStrip ((s.queue p).push v).isFull (s.cnt p))
    (Cnt.afterSendRemote s.cfg.errStrip ((s.queue p).push v).isFull (s.cnt p.peer)) ((s.queue p).push v) (s.queue p.peer) []
    ((if Cnt.rirq (s.cnt p.peer) then [Event.irq p.peer .recvNonempty] else []) ++ [.resched]) s t

/-- A successful RECV leaves the peer's queue without its front word and both registers updated, and returns that word (R120). -/
abbrev Received (p : Proc) (s t : State) : Prop :=
  LeavesUnitA p (Cnt.afterRecvLocal s.cfg.errStrip (s.queue p.peer).pop.isEmpty (s.cnt p))
    (Cnt.afterRecvRemote s.cfg.errStrip (s.queue p.peer).pop.isEmpty (s.cnt p.peer)) (s.queue p) (s.queue p.peer).pop [(s.queue p.peer).front]
    ((if (s.queue p.peer).pop.isEmpty && Cnt.sirq (s.cnt p.peer) then [Event.irq p.peer .sendEmpty] else []) ++ [.resched]) s t

/-- A CNT leaves both registers updated and, on a send clear, its queue emptied (R130). -/
abbrev Configured (p : Proc) (v : U16) (s t : State) : Prop :=
  LeavesUnitA p (Cnt.afterConfigureLocal v (s.cnt p)) (Cnt.afterConfigureRemote v (s.cnt p.peer))
    (if Cnt.sclear v then (s.queue p).clear else s.queue p) (s.queue p.peer) [] (configureIrqs p (Cnt.afterConfigureLocal v (s.cnt p)) ++ [.resched]) s t

/-- A command that gives this result and no event and leaves unit A but for its own ERROR set (R113, R122). -/
abbrev OnlySetsError (p : Proc) (result : List U32) (s t : State) : Prop :=
  LeavesUnitA p (Cnt.setBits (s.cnt p) Cnt.ERROR) (s.cnt p.peer) (s.queue p) (s.queue p.peer) result [] s t

/-- A command that gives this result and no event and leaves unit A. -/
abbrev LeavesAll (p : Proc) (result : List U32) (s t : State) : Prop :=
  LeavesUnitA p (s.cnt p) (s.cnt p.peer) (s.queue p) (s.queue p.peer) result [] s t

theorem fifoSend_sent (v : U32) (hr : s.unitA.ready = true) (h : Succeeds s (.fifoSend p v)) : ∃ t, exec (.fifoSend p v) s = .next t ∧ Sent p v s t :=
  ⟨_, execFifoSend_append hr h.1 h.2, .of_ok_setQueue rfl⟩

theorem fifoRecv_received (hr : s.unitA.ready = true) (h : Succeeds s (.fifoRecv p)) : ∃ t, exec (.fifoRecv p) s = .next t ∧ Received p s t :=
  ⟨_, execFifoRecv_take hr h.1 h.2, .of_ok_setQueue_peer rfl⟩

theorem fifoCnt_configured (p : Proc) (v : U16) (hr : s.unitA.ready = true) : ∃ t, exec (.fifoCnt p v) s = .next t ∧ Configured p v s t :=
  ⟨_, whenReady_of_ready hr, .of_ok_setQueue rfl⟩

/-- The three ways a SEND completes. -/
theorem fifoSend_eq_next {v : U32} (h : exec (.fifoSend p v) s = .next t) :
    LeavesAll p [] s t ∨ (Cnt.enable (s.cnt p) = true ∧ 15 < (s.queue p).size ∧ OnlySetsError p [] s t) ∨ (Succeeds s (.fifoSend p v) ∧ Sent p v s t) := by
  obtain ⟨-, ⟨-, h⟩ | ⟨he, hs, h⟩ | ⟨he, hs, h⟩⟩ := execFifoSend_eq_next h
  · exact .inl (.of_ok_same h)
  · exact .inr (.inl ⟨he, hs, .of_ok_setCnt h⟩)
  · exact .inr (.inr ⟨⟨he, hs⟩, .of_ok_setQueue h⟩)

/-- The three ways a RECV completes. -/
theorem fifoRecv_eq_next (h : exec (.fifoRecv p) s = .next t) :
    LeavesAll p [0#32] s t ∨ (Cnt.enable (s.cnt p) = true ∧ (s.queue p.peer).size = 0 ∧ OnlySetsError p [0#32] s t) ∨
      (Succeeds s (.fifoRecv p) ∧ Received p s t) := by
  obtain ⟨-, ⟨-, h⟩ | ⟨he, hs, h⟩ | ⟨he, hs, h⟩⟩ := execFifoRecv_eq_next h
  · exact .inl (.of_ok_same h)
  · exact .inr (.inl ⟨he, hs, .of_ok_setCnt h⟩)
  · exact .inr (.inr ⟨⟨he, hs⟩, .of_ok_setQueue_peer h⟩)

theorem fifoCnt_eq_next {v : U16} (h : exec (.fifoCnt p v) s = .next t) : Configured p v s t := .of_ok_setQueue (execFifoCnt_eq_next h).2

end

/-! ### Queue levels -/

section
variable {q : Queue}

theorem Queue.push_isFull (v : U32) (hs : q.size ≤ 15) : (q.push v).isFull = decide ((q.push v).size = 16) := by
  refine decide_eq_decide.mpr ?_
  rw [Queue.push_size]
  omega

theorem Queue.Inv.pop_isFull (h : q.Inv) : q.pop.isFull = false := by
  have hle : q.size ≤ 16 := h.size_le
  refine decide_eq_false ?_
  rw [Queue.pop_size]
  omega

theorem Queue.push_tail_val (v : U32) : (q.push v).tail.val = (q.tail.val + 1) % 16 := Fin.val_add ..

theorem Queue.pop_head_val : q.pop.head.val = (q.head.val + 1) % 16 := Fin.val_add ..

end

/-! ### FIFO.INIT and FIFO.RDCNT -/

/-- What `FIFO.INIT` leaves: its own side at the initial values, the peer's side as it was (R100, R101). -/
theorem fifoInit_eq_next {p : Proc} {s t : State} (h : exec (.fifoInit p) s = .next t) :
    (t.cnt p = Cnt.initValue ∧ t.queue p = Queue.zero ∧ t.unitA.init.get p = true) ∧
    (t.cnt p.peer = s.cnt p.peer ∧ t.queue p.peer = s.queue p.peer ∧ t.unitA.init.get p.peer = s.unitA.init.get p.peer) ∧
    SameUnitB s t ∧ Completed s t [] [] := by
  have h : execFifoInit p s = .next t := h
  rw [execFifoInit, ok_eq_next_iff] at h
  subst h
  exact ⟨⟨PerProc.get_set .., PerProc.get_set .., PerProc.get_set ..⟩, ⟨PerProc.get_set_peer .., PerProc.get_set_peer .., PerProc.get_set_peer ..⟩, ⟨rfl, rfl⟩,
    completed_complete _ _ rfl rfl rfl rfl rfl rfl rfl⟩

theorem Queue.zero_slot (j : Fin 16) : Queue.zero.buf[j] = 0#32 := Vector.getElem_replicate ..

/-- Settles O12: `FIFO.INIT` has no guard, and what it writes is on its own side. -/
theorem initZeroesOneSide : Obligations.InitZeroesOneSide := by
  unfold Obligations.InitZeroesOneSide
  intro p s
  obtain ⟨t, ht⟩ : ∃ t, exec (.fifoInit p) s = .next t := ⟨_, rfl⟩
  obtain ⟨⟨hcnt, hqueue, hinit⟩, ⟨hcnt_peer, hqueue_peer, hinit_peer⟩, hunitB, hcomp⟩ := fifoInit_eq_next ht
  refine ⟨t, ht, ?_⟩
  rw [hcnt, hqueue]
  exact ⟨Queue.zero_slot, rfl, rfl, rfl, rfl, rfl, rfl, rfl, rfl, rfl, rfl, rfl, rfl, hinit, hcnt_peer, hqueue_peer, hinit_peer, hunitB, hcomp⟩

/-- The register word is the register's number (R75). -/
theorem cntWord_eq (c : U16) : cntWord c = BitVec.ofNat 32 c.toNat := (BitVec.ofNat_toNat ..).symm

/-- A RDCNT only completes, with the register as its result. -/
theorem fifoRdcnt_of_ready {s : State} (p : Proc) (hr : s.unitA.ready = true) :
    exec (.fifoRdcnt p) s = .next (s.complete [BitVec.ofNat 32 (s.cnt p).toNat] []) := by
  rw [← cntWord_eq]
  exact whenReady_of_ready hr

/-- Settles O22: a RDCNT only completes, so a second one reads the same register. -/
theorem rdcntReadsTheRegister : Obligations.RdcntReadsTheRegister := by
  unfold Obligations.RdcntReadsTheRegister
  intro p s hr
  exact ⟨_, _, fifoRdcnt_of_ready p hr, rfl, ⟨rfl, rfl⟩, completed_complete _ _ rfl rfl rfl rfl rfl rfl rfl, fifoRdcnt_of_ready p hr,
    completed_complete _ _ rfl rfl rfl rfl rfl rfl rfl⟩

/-! ### SEND -/

/-- Settles O14: the guard reads the sender's register alone. -/
theorem disabledSenderSendsNothing : Obligations.DisabledSenderSendsNothing := by
  unfold Obligations.DisabledSenderSendsNothing
  intro p v s hr
  refine ⟨fun he => ?disabled, fun he hs hpeer => ?enabled⟩
  case disabled => exact ⟨_, execFifoSend_disabled hr he, rfl, ⟨rfl, rfl⟩, completed_complete _ _ rfl rfl rfl rfl rfl rfl rfl⟩
  case enabled =>
    obtain ⟨t, ht, h⟩ := fifoSend_sent v hr ⟨he, hs⟩
    refine ⟨t, ht, ?_, ?_, ?_, ?_, ?_, h.completed⟩
    · rw [h.queue, Queue.push_size]
    · rw [h.queue, Queue.push_slot, if_pos rfl]
    · rw [h.cnt, Cnt.sempty_afterSendLocal]
    · rw [h.cnt_peer, Cnt.rempty_afterSendRemote]
    · rw [h.cnt_peer, Cnt.enable_afterSendRemote, hpeer]

/-- Settles O15, by the overflow case of SEND. -/
theorem sendIntoFullQueueOnlySetsError : Obligations.SendIntoFullQueueOnlySetsError := by
  unfold Obligations.SendIntoFullQueueOnlySetsError
  intro p v s hr he hs
  obtain ⟨t, ht, h⟩ : ∃ t, exec (.fifoSend p v) s = .next t ∧ OnlySetsError p [] s t := ⟨_, execFifoSend_full hr he hs, .of_ok_setCnt rfl⟩
  refine ⟨t, ht, ?_⟩
  rw [h.cnt]
  exact ⟨Cnt.error_setError _, Cnt.same_setBits (by decide) _, h.cnt_peer, h.queues, h.init, h.unitB, h.completed⟩

/-- Settles O16, by the append and the bits of both registers after it. -/
theorem sendAppendsOneWord : Obligations.SendAppendsOneWord := by
  unfold Obligations.SendAppendsOneWord
  intro p v s hr he hs
  obtain ⟨t, ht, h⟩ := fifoSend_sent v hr ⟨he, hs⟩
  have hfull := Queue.push_isFull v hs
  refine ⟨t, ht, ?_⟩
  rw [h.cnt, h.cnt_peer, h.queue]
  exact ⟨Queue.push_slot _ v, Queue.push_head _ v, Queue.push_tail_val v, Queue.push_size _ v, h.queue_peer, h.init,
    Cnt.sempty_afterSendLocal .., (Cnt.sfull_afterSendLocal ..).trans hfull, Cnt.error_afterSendLocal .., Cnt.same_afterSendLocal ..,
    Cnt.rempty_afterSendRemote .., (Cnt.rfull_afterSendRemote ..).trans hfull, Cnt.error_afterSendRemote .., Cnt.same_afterSendRemote .., h.unitB, h.completed⟩

/-! ### RECV -/

/-- Settles O17: the guard reads the receiver's register alone. -/
theorem disabledReceiverReceivesZero : Obligations.DisabledReceiverReceivesZero := by
  unfold Obligations.DisabledReceiverReceivesZero
  intro p s hr
  refine ⟨fun he => ?disabled, fun he hs _ => ?enabled⟩
  case disabled => exact ⟨_, execFifoRecv_disabled hr he, rfl, ⟨rfl, rfl⟩, completed_complete _ _ rfl rfl rfl rfl rfl rfl rfl⟩
  case enabled =>
    obtain ⟨t, ht, h⟩ := fifoRecv_received hr ⟨he, hs⟩
    exact ⟨t, _, ht, h.completed, by rw [h.queue_peer, Queue.pop_size]⟩

/-- Settles O18, by the underflow case of RECV. -/
theorem recvFromEmptyQueueOnlySetsError : Obligations.RecvFromEmptyQueueOnlySetsError := by
  unfold Obligations.RecvFromEmptyQueueOnlySetsError
  intro p s hr he hs
  obtain ⟨t, ht, h⟩ : ∃ t, exec (.fifoRecv p) s = .next t ∧ OnlySetsError p [0#32] s t := ⟨_, execFifoRecv_empty hr he hs, .of_ok_setCnt rfl⟩
  refine ⟨t, ht, ?_⟩
  rw [h.cnt]
  exact ⟨Cnt.error_setError _, Cnt.same_setBits (by decide) _, h.cnt_peer, h.queues, h.init, h.unitB, h.completed⟩

/-- Settles O19, by the pop and the bits of both registers after it. -/
theorem recvTakesOneWord : Obligations.RecvTakesOneWord := by
  unfold Obligations.RecvTakesOneWord
  intro p s hr he hs
  obtain ⟨t, ht, h⟩ := fifoRecv_received hr ⟨he, hs⟩
  refine ⟨t, ht, ?_⟩
  rw [h.cnt, h.cnt_peer, h.queue_peer]
  refine ⟨rfl, Queue.pop_head_val, rfl, rfl, h.queue, h.init,
    Cnt.rfull_afterRecvLocal .., Cnt.rempty_afterRecvLocal .., Cnt.error_afterRecvLocal .., Cnt.same_afterRecvLocal ..,
    Cnt.sfull_afterRecvRemote .., Cnt.sempty_afterRecvRemote .., Cnt.error_afterRecvRemote .., Cnt.same_afterRecvRemote .., h.unitB, ?_⟩
  simpa only [Queue.front, Queue.isEmpty, Bool.and_eq_true, decide_eq_true_eq] using h.completed

/-! ### CNT -/

/-- Settles O20, by the bits of both registers after the update. -/
theorem cntConfiguresTheRegister : Obligations.CntConfiguresTheRegister := by
  unfold Obligations.CntConfiguresTheRegister
  intro p v s hr
  obtain ⟨t, ht, h⟩ := fifoCnt_configured p v hr
  refine ⟨t, ht, ?_⟩
  rw [h.cnt, h.cnt_peer, h.queue]
  refine ⟨Cnt.error_afterConfigureLocal .., Cnt.sempty_afterConfigureLocal .., Cnt.sfull_afterConfigureLocal .., Cnt.sirq_afterConfigureLocal ..,
    Cnt.rirq_afterConfigureLocal .., Cnt.enable_afterConfigureLocal .., Cnt.same_afterConfigureLocal ..,
    Cnt.rempty_afterConfigureRemote .., Cnt.rfull_afterConfigureRemote .., Cnt.same_afterConfigureRemote ..,
    ?slots, fun (hclear : Cnt.sclear v = true) => ?cleared, fun (hclear : Cnt.sclear v = false) => ?kept,
    h.queue_peer, h.init, h.unitB, _, h.completed⟩
  case slots => split <;> rfl
  case cleared =>
    rw [if_pos hclear]
    exact ⟨rfl, rfl, rfl⟩
  case kept => exact if_neg (Bool.eq_false_iff.mp hclear)

/-- The levels tested on a register (R134). -/
theorem configureIrqs_eq (p : Proc) (c : U16) :
    configureIrqs p c = (if Cnt.sirq c = true ∧ Cnt.sempty c = true then [Event.irq p .sendEmpty] else []) ++
      (if Cnt.rirq c = true ∧ Cnt.rempty c = false then [Event.irq p .recvNonempty] else []) := by
  simp only [configureIrqs, Bool.and_eq_true, Bool.not_eq_true']

/-- Settles O21: the tests are on the register CNT leaves. -/
theorem cntTestsTheLevelsAfterItsUpdate : Obligations.CntTestsTheLevelsAfterItsUpdate := by
  unfold Obligations.CntTestsTheLevelsAfterItsUpdate
  intro p v s t result events ht hc
  have h := fifoCnt_eq_next ht
  rw [(hc.unique h.completed).2, h.cnt, configureIrqs_eq]

/-! ### ERROR -/

/-- A command that finds the reason to set ERROR of `q` (R113, R122). -/
def SetsError (s : State) (q : Proc) (i : Instr) : Prop :=
  (∃ v, i = .fifoSend q v ∧ Cnt.enable (s.cnt q) = true ∧ 15 < (s.queue q).size) ∨
  (i = .fifoRecv q ∧ Cnt.enable (s.cnt q) = true ∧ (s.queue q.peer).size = 0)

/-- A command that may clear ERROR of `q` (R100, R111, R131). -/
def ClearsError (s : State) (q : Proc) (i : Instr) : Prop :=
  (∃ v, i = .fifoCnt q v ∧ v.getLsbD 14 = true) ∨ i = .fifoInit q ∨
  (s.cfg.errStrip = true ∧ Succeeds s i ∧ ((∃ p v, i = .fifoSend p v) ∨ ∃ p, i = .fifoRecv p))

/-- How a command that completes leaves ERROR of `q`: as it was, set for a reason to set it, or clear for a reason to clear it. -/
def ErrorLeft (q : Proc) (i : Instr) (s t : State) : Prop :=
  Cnt.error (t.cnt q) = Cnt.error (s.cnt q) ∨ (SetsError s q i ∧ Cnt.error (t.cnt q) = true) ∨ (ClearsError s q i ∧ Cnt.error (t.cnt q) = false)

section
variable {p q : Proc} {i : Instr} {s t : State}

theorem ErrorLeft.of_cnt (h : t.cnt q = s.cnt q) : ErrorLeft q i s t := .inl (congrArg Cnt.error h)

/-- ERROR cleared exactly under a condition that is a reason to clear it. -/
theorem ErrorLeft.of_and_not {b : Bool} (h : Cnt.error (t.cnt q) = (Cnt.error (s.cnt q) && !b)) (hb : b = true → ClearsError s q i) : ErrorLeft q i s t := by
  cases b
  · exact .inl (by simpa using h)
  · exact .inr (.inr ⟨hb rfl, by simpa using h⟩)

theorem LeavesAll.errorLeft {result : List U32} (h : LeavesAll p result s t) (q : Proc) : ErrorLeft q i s t := by
  rcases eq_or_eq_peer p q with rfl | rfl
  · exact .of_cnt h.cnt
  · exact .of_cnt h.cnt_peer

theorem OnlySetsError.errorLeft {result : List U32} (h : OnlySetsError p result s t) (hi : SetsError s p i) (q : Proc) : ErrorLeft q i s t := by
  rcases eq_or_eq_peer p q with rfl | rfl
  · exact .inr (.inl ⟨hi, by rw [h.cnt, Cnt.error_setError]⟩)
  · exact .of_cnt h.cnt_peer

theorem Sent.errorLeft {v : U32} (h : Sent p v s t) (hs : Succeeds s (.fifoSend p v)) (q : Proc) : ErrorLeft q (.fifoSend p v) s t := by
  refine .of_and_not (b := s.cfg.errStrip) ?_ fun hb => .inr (.inr ⟨hb, hs, .inl ⟨p, v, rfl⟩⟩)
  rcases eq_or_eq_peer p q with rfl | rfl
  · rw [h.cnt, Cnt.error_afterSendLocal]
  · rw [h.cnt_peer, Cnt.error_afterSendRemote]

theorem Received.errorLeft (h : Received p s t) (hs : Succeeds s (.fifoRecv p)) (q : Proc) : ErrorLeft q (.fifoRecv p) s t := by
  refine .of_and_not (b := s.cfg.errStrip) ?_ fun hb => .inr (.inr ⟨hb, hs, .inr ⟨p, rfl⟩⟩)
  rcases eq_or_eq_peer p q with rfl | rfl
  · rw [h.cnt, Cnt.error_afterRecvLocal]
  · rw [h.cnt_peer, Cnt.error_afterRecvRemote]

theorem Configured.errorLeft {v : U16} (h : Configured p v s t) (q : Proc) : ErrorLeft q (.fifoCnt p v) s t := by
  rcases eq_or_eq_peer p q with rfl | rfl
  · exact .of_and_not (b := Cnt.error v) (by rw [h.cnt, Cnt.error_afterConfigureLocal]) fun hb => .inl ⟨v, rfl, hb⟩
  · exact .inl (by rw [h.cnt_peer, Cnt.error_afterConfigureRemote])

theorem fifoInit_errorLeft (h : exec (.fifoInit p) s = .next t) (q : Proc) : ErrorLeft q (.fifoInit p) s t := by
  obtain ⟨⟨hcnt, -, -⟩, ⟨hcnt_peer, -, -⟩, -⟩ := fifoInit_eq_next h
  rcases eq_or_eq_peer p q with rfl | rfl
  · exact .inr (.inr ⟨.inr (.inl rfl), by rw [hcnt]; decide⟩)
  · exact .of_cnt hcnt_peer

/-- Every command that completes changes ERROR only for a reason. -/
theorem exec_errorLeft (h : exec i s = .next t) (q : Proc) : ErrorLeft q i s t := by
  cases i with
  | fifoInit p => exact fifoInit_errorLeft h q
  | fifoSend p v =>
    obtain hall | ⟨he, hs, herr⟩ | ⟨hs, hsent⟩ := fifoSend_eq_next h
    · exact hall.errorLeft q
    · exact herr.errorLeft (.inl ⟨v, rfl, he, hs⟩) q
    · exact hsent.errorLeft hs q
  | fifoRecv p =>
    obtain hall | ⟨he, hs, herr⟩ | ⟨hs, hrecv⟩ := fifoRecv_eq_next h
    · exact hall.errorLeft q
    · exact herr.errorLeft (.inr ⟨rfl, he, hs⟩) q
    · exact hrecv.errorLeft hs q
  | fifoCnt p v => exact (fifoCnt_eq_next h).errorLeft q
  | fifoRdcnt p => exact LeavesAll.errorLeft (p := p) (.of_ok_same (execFifoRdcnt_eq_next h).2) q
  | trReset | trSetrate | trSetch | trSetaa | trPut | trReceive | trClear | trIsempty =>
    exact .of_cnt (congrArg (fun a => a.cnt.get q) (exec_unitB_keeps rfl h).1)

end

/-- Settles O28: a change of ERROR is one of the two changes with a reason. -/
theorem errorBitChangesOnlyAsStated : Obligations.ErrorBitChangesOnlyAsStated := by
  unfold Obligations.ErrorBitChangesOnlyAsStated
  intro q i s t h
  obtain hsame | ⟨hi, ht⟩ | ⟨hi, ht⟩ := exec_errorLeft h q
  · exact ⟨fun hs ht => by simp [hsame, hs] at ht, fun hs ht => by simp [hsame, hs] at ht⟩
  · exact ⟨fun _ _ => hi, fun _ ht' => by simp [ht] at ht'⟩
  · exact ⟨fun _ ht' => by simp [ht] at ht', fun _ _ => hi⟩

/-! ### The receiver's bits -/

/-- R136(c) over a receiver's register and the queue it receives from alone. -/
def ReceiverOk (c : U16) (q : Queue) : Prop := Cnt.rempty c = q.isEmpty ∧ Cnt.rfull c = q.isFull

theorem receiverOk_iff (s : State) (p : Proc) : ReceiverOk (s.cnt p) (s.queue p.peer) ↔ s.unitA.ReceiverAgrees p := Iff.rfl

section
variable {c : U16} {q : Queue} (es b : Bool) (v : U16)

theorem ReceiverOk.setError (h : ReceiverOk c q) : ReceiverOk (Cnt.setBits c Cnt.ERROR) q := by
  simpa only [ReceiverOk, Cnt.rempty_setError, Cnt.rfull_setError] using h

theorem ReceiverOk.sendLocal (h : ReceiverOk c q) : ReceiverOk (Cnt.afterSendLocal es b c) q := by
  simpa only [ReceiverOk, Cnt.rempty_afterSendLocal, Cnt.rfull_afterSendLocal] using h

theorem receiverOk_sendRemote (w : U32) : ReceiverOk (Cnt.afterSendRemote es (q.push w).isFull c) (q.push w) :=
  ⟨Cnt.rempty_afterSendRemote .., Cnt.rfull_afterSendRemote ..⟩

theorem receiverOk_recvLocal (hq : q.Inv) : ReceiverOk (Cnt.afterRecvLocal es q.pop.isEmpty c) q.pop :=
  ⟨Cnt.rempty_afterRecvLocal .., (Cnt.rfull_afterRecvLocal ..).trans hq.pop_isFull.symm⟩

theorem ReceiverOk.recvRemote (h : ReceiverOk c q) : ReceiverOk (Cnt.afterRecvRemote es b c) q := by
  simpa only [ReceiverOk, Cnt.rempty_afterRecvRemote, Cnt.rfull_afterRecvRemote] using h

theorem ReceiverOk.configureLocal (h : ReceiverOk c q) : ReceiverOk (Cnt.afterConfigureLocal v c) q := by
  simpa only [ReceiverOk, Cnt.rempty_afterConfigureLocal, Cnt.rfull_afterConfigureLocal] using h

/-- A send clear empties the queue and says so in the peer's register (R132). -/
theorem ReceiverOk.configureRemote (h : ReceiverOk c q) : ReceiverOk (Cnt.afterConfigureRemote v c) (if Cnt.sclear v then q.clear else q) := by
  obtain ⟨he, hf⟩ := h
  rw [ReceiverOk, Cnt.rempty_afterConfigureRemote, Cnt.rfull_afterConfigureRemote, he, hf]
  cases Cnt.sclear v
  · simp
  · simp [Queue.isEmpty, Queue.isFull]

/-- The receivers agree when each register does with the other side's queue. -/
theorem LeavesUnitA.receiverAgrees {p : Proc} {cl cr : U16} {ql qr : Queue} {result : List U32} {events : List Event} {s t : State}
    (h : LeavesUnitA p cl cr ql qr result events s t) (hl : ReceiverOk cl qr) (hr : ReceiverOk cr ql) (r : Proc) : t.unitA.ReceiverAgrees r := by
  rw [← receiverOk_iff]
  rcases eq_or_eq_peer p r with rfl | rfl
  · rwa [h.cnt, h.queue_peer]
  · rwa [h.cnt_peer, peer_peer, h.queue]

end

/-- Settles O29: each command updates a receiver's bits with the queue it receives from, or neither. -/
theorem onlyInitBreaksReceiverAgreement : Obligations.OnlyInitBreaksReceiverAgreement := by
  unfold Obligations.OnlyInitBreaksReceiverAgreement
  intro i s t hinv _ hag hi h
  have hlocal : ∀ p, ReceiverOk (s.cnt p) (s.queue p.peer) := hag
  have hremote : ∀ p, ReceiverOk (s.cnt p.peer) (s.queue p) := fun p => by simpa using hlocal p.peer
  cases i with
  | fifoInit p => exact absurd rfl (hi p)
  | fifoSend p v =>
    obtain hall | ⟨-, -, herr⟩ | ⟨-, hsent⟩ := fifoSend_eq_next h
    · exact hall.receiverAgrees (hlocal p) (hremote p)
    · exact herr.receiverAgrees (hlocal p).setError (hremote p)
    · exact hsent.receiverAgrees ((hlocal p).sendLocal ..) (receiverOk_sendRemote ..)
  | fifoRecv p =>
    obtain hall | ⟨-, -, herr⟩ | ⟨-, hrecv⟩ := fifoRecv_eq_next h
    · exact hall.receiverAgrees (hlocal p) (hremote p)
    · exact herr.receiverAgrees (hlocal p).setError (hremote p)
    · exact hrecv.receiverAgrees (receiverOk_recvLocal _ (hinv.unitA.queue p.peer)) ((hremote p).recvRemote ..)
  | fifoCnt p v => exact (fifoCnt_eq_next h).receiverAgrees ((hlocal p).configureLocal v) ((hremote p).configureRemote v)
  | fifoRdcnt p =>
    exact LeavesUnitA.receiverAgrees (p := p) (.of_ok_same (execFifoRdcnt_eq_next h).2) (hlocal p) (hremote p)
  | trReset | trSetrate | trSetch | trSetaa | trPut | trReceive | trClear | trIsempty =>
    rw [(exec_unitB_keeps rfl h).1]
    exact hag

/-! ### The queue as a list -/

/-- Settles O30, by the queued words after `push` and before `pop`. -/
theorem queueIsAFirstInFirstOutList : Obligations.QueueIsAFirstInFirstOutList := by
  unfold Obligations.QueueIsAFirstInFirstOutList
  intro s hinv hr
  have hq : ∀ p, (s.queue p).Inv := hinv.unitA.queue
  refine ⟨fun p v hs => ?send, fun p hs => ?recv⟩
  case send =>
    obtain ⟨t, ht, h⟩ := fifoSend_sent v hr hs
    exact ⟨t, ht, by rw [h.queue, Queue.contents_push v (hq p) hs.2], by rw [h.queue_peer]⟩
  case recv =>
    obtain ⟨t, ht, h⟩ := fifoRecv_received hr hs
    exact ⟨t, _, _, ht, h.completed, by rw [h.queue_peer, Queue.contents_pop hs.2], by rw [h.queue]⟩

/-- The link from `p` to its peer is up, with these words queued: both processors initialised and enabled, and the queue of `p` in order. -/
structure Linked (p : Proc) (ws : List U32) (s : State) : Prop where
  ready : s.unitA.ready = true
  enable : Cnt.enable (s.cnt p) = true
  enable_peer : Cnt.enable (s.cnt p.peer) = true
  inv : (s.queue p).Inv
  contents : (s.queue p).contents = ws

section
variable {p : Proc} {ws : List U32} {s : State}

theorem Linked.size (h : Linked p ws s) : (s.queue p).size = ws.length := by rw [← h.contents, Queue.contents_length]

/-- With room left, a SEND puts its word behind the queued ones. -/
theorem Linked.send (h : Linked p ws s) (v : U32) (hlen : ws.length ≤ 15) : ∃ t, exec (.fifoSend p v) s = .next t ∧ Linked p (ws ++ [v]) t := by
  have hsize : (s.queue p).size ≤ 15 := h.size ▸ hlen
  obtain ⟨t, ht, hsent⟩ := fifoSend_sent v h.ready ⟨h.enable, hsize⟩
  refine ⟨t, ht, ?ready, ?enable, ?enable_peer, ?inv, ?contents⟩
  case ready => rw [UnitA.ready, hsent.init]; exact h.ready
  case enable => rw [hsent.cnt, Cnt.enable_afterSendLocal, h.enable]
  case enable_peer => rw [hsent.cnt_peer, Cnt.enable_afterSendRemote, h.enable_peer]
  case inv => rw [hsent.queue]; exact Queue.push_inv v h.inv hsize
  case contents => rw [hsent.queue, Queue.contents_push v h.inv hsize, h.contents]

/-- A RECV by the peer returns the first queued word and leaves the rest. -/
theorem Linked.recv {w : U32} (h : Linked p (w :: ws) s) :
    ∃ t events, exec (.fifoRecv p.peer) s = .next t ∧ Completed s t [w] events ∧ Linked p ws t := by
  have hsize : (s.queue p).size ≠ 0 := by rw [h.size]; exact Nat.succ_ne_zero _
  obtain ⟨hfront, hrest⟩ : w = (s.queue p).front ∧ ws = (s.queue p).pop.contents := by
    have := h.contents.symm.trans (Queue.contents_pop hsize)
    injection this with hfront hrest
    exact ⟨hfront, hrest⟩
  have hs : Succeeds s (.fifoRecv p.peer) := ⟨h.enable_peer, by rwa [peer_peer]⟩
  obtain ⟨t, ht, hrecv⟩ := fifoRecv_received h.ready hs
  obtain ⟨hcl, hcr, -, hq, hinit, -, hcomp⟩ := hrecv
  rw [peer_peer] at hcr hq
  rw [peer_peer, ← hfront] at hcomp
  refine ⟨t, _, ht, hcomp, ?ready, ?enable, ?enable_peer, ?inv, ?contents⟩
  case ready => rw [UnitA.ready, hinit]; exact h.ready
  case enable => rw [hcr, Cnt.enable_afterRecvRemote, h.enable]
  case enable_peer => rw [hcl, Cnt.enable_afterRecvLocal, h.enable_peer]
  case inv => rw [hq]; exact Queue.pop_inv h.inv hsize
  case contents => rw [hq, hrest]

theorem execAll_cons {i : Instr} (is : List Instr) {t : State} (h : exec i s = .next t) : execAll (i :: is) s = execAll is t := by
  rw [execAll, h]

/-- Sending words that fit queues them all, in order. -/
theorem Linked.sends (vs : List U32) (h : Linked p ws s) (hlen : ws.length + vs.length ≤ 16) :
    ∃ t, execAll (vs.map (Instr.fifoSend p)) s = .next t ∧ Linked p (ws ++ vs) t := by
  induction vs generalizing ws s with
  | nil => exact ⟨s, rfl, by rwa [List.append_nil]⟩
  | cons v vs ih =>
    simp only [List.length_cons] at hlen
    obtain ⟨t, ht, hlink⟩ := h.send v (by omega)
    obtain ⟨u, hu, hlink⟩ := ih hlink (by simp only [List.length_append, List.length_singleton]; omega)
    exact ⟨u, (execAll_cons _ ht).trans hu, by rwa [List.append_assoc] at hlink⟩

/-- Receiving as often as there are queued words returns them in order and empties the queue. -/
theorem Linked.recvs (h : Linked p ws s) :
    ∃ u rs, execAll (List.replicate ws.length (Instr.fifoRecv p.peer)) s = .next u ∧ u.outputs = s.outputs ++ rs ∧
      rs.map Response.result = ws.map (fun w => [w]) ∧ Linked p [] u := by
  induction ws generalizing s with
  | nil => exact ⟨s, [], rfl, (List.append_nil _).symm, rfl, h⟩
  | cons w ws ih =>
    obtain ⟨t, events, ht, hcomp, hlink⟩ := h.recv
    obtain ⟨u, rs, hu, hout, hres, hlink⟩ := ih hlink
    refine ⟨u, ⟨s.agent, [w], events⟩ :: rs, (execAll_cons _ ht).trans hu, ?_, ?_, hlink⟩
    · rw [hout, hcomp.outputs, List.append_assoc, List.singleton_append]
    · rw [List.map_cons, List.map_cons, hres]

end

/-- Settles O31, by induction on the words sent and then on the words queued. -/
theorem sendsThenReceivesRoundTrip : Obligations.SendsThenReceivesRoundTrip := by
  unfold Obligations.SendsThenReceivesRoundTrip
  intro p vs s hinv hr he hpeer hsize hlen
  have hlink : Linked p [] s := ⟨hr, he, hpeer, hinv.unitA.queue p, List.length_eq_zero_iff.mp ((Queue.contents_length _).trans hsize)⟩
  obtain ⟨t, ht, hlink⟩ := hlink.sends vs (by simpa using hlen)
  obtain ⟨u, rs, hu, hout, hres, hlink⟩ := hlink.recvs
  exact ⟨t, u, ht, hu, by rw [hout, List.drop_left, hres, List.nil_append], hlink.size⟩

end Sys2Proof.Machine
end

section
/-! PROOFS. The commands of unit B that run no interpolation: reset, channel count, filter enable, receive, clear and the empty test (41_transposer.md R140, R144, R149 to
R153; 70_reset_and_hazards.md R223): O37, O42, O43, O57, O58 and O59. -/

namespace Sys2Proof.Machine
open Sys2Proof

/-! ### What a command leaves -/

/-- A completed command of unit B that leaves the unit `b` and the draws `d`, and all else of the block as it was; it emits no event (R206). -/
structure LeavesUnitB (b : UnitB) (d : Nat) (result : List U32) (s t : State) : Prop where
  unitB : t.unitB = b
  nanDraws : t.nanDraws = d
  unitA : SameUnitA s t
  completed : Completed s t result []

/-- A command that completes from the state with a new unit B and new draws. -/
theorem LeavesUnitB.of_ok {b : UnitB} {d : Nat} {result : List U32} {s t : State}
    (h : State.ok { s with unitB := b, nanDraws := d } result [] = .next t) : LeavesUnitB b d result s t := by
  rw [ok_eq_next_iff] at h
  subst h
  exact ⟨rfl, rfl, ⟨rfl, fun _ _ => rfl⟩, completed_complete _ _ rfl rfl rfl rfl rfl rfl rfl⟩

/-- A command that replaces unit B and completes. -/
theorem exists_leavesUnitB {i : Instr} {b : UnitB} {result : List U32} {s : State} (h : exec i s = (s.setUnitB b).ok result []) :
    ∃ t, exec i s = .next t ∧ LeavesUnitB b s.nanDraws result s t :=
  ⟨_, h, .of_ok rfl⟩

theorem trReset_leaves (s : State) :
    ∃ t, exec .trReset s = .next t ∧ LeavesUnitB (UnitB.reset s.unitB.datapath.variant) s.nanDraws [] s t :=
  exists_leavesUnitB (execTrReset_eq s)

theorem trSetaa_leaves (aa : Bool) (s : State) :
    ∃ t, exec (.trSetaa aa) s = .next t ∧ LeavesUnitB { s.unitB with aaEnable := aa } s.nanDraws [] s t :=
  exists_leavesUnitB rfl

theorem trClear_leaves (s : State) :
    ∃ t, exec .trClear s = .next t ∧ LeavesUnitB { s.unitB with datapath := s.unitB.datapath.clear } s.nanDraws [] s t :=
  exists_leavesUnitB rfl

theorem Datapath.dropOutput_min (n : Nat) (d : Datapath) : d.dropOutput (min n d.outputLength) = d.dropOutput n := by
  cases d <;> simp [Datapath.dropOutput, Datapath.outputLength, Lane.dropOutput, ← List.drop_eq_drop_min]

theorem Datapath.takeOutput_min (n : Nat) (d : Datapath) : d.takeOutput (min n d.outputLength) = d.takeOutput n := by
  cases d <;> simp [Datapath.takeOutput, Datapath.outputLength, ← List.take_eq_take_min]

theorem Datapath.takeOutput_length (n : Nat) (d : Datapath) : (d.takeOutput n).length = min n d.outputLength := by
  cases d <;> exact List.length_take

/-- Taking `min n |output|` frames is taking `n` (R150). -/
theorem trReceive_leaves (n : U32) (s : State) :
    ∃ t, exec (.trReceive n) s = .next t ∧
      LeavesUnitB { s.unitB with datapath := s.unitB.datapath.dropOutput n.toNat } s.nanDraws
        (BitVec.ofNat 32 (min n.toNat s.unitB.datapath.outputLength) :: wordsOfBlock (s.unitB.datapath.takeOutput n.toNat)) s t := by
  refine exists_leavesUnitB ?_
  show execTrReceive n s = _
  simp only [execTrReceive, receiveWords, Datapath.dropOutput_min, Datapath.takeOutput_min, Datapath.takeOutput_length]

/-- `TR.ISEMPTY` with both buffers empty answers 1 (R152). -/
theorem trIsempty_of_empty {s : State} (ho : s.unitB.datapath.outputLength = 0) (hs : s.unitB.datapath.storeLength = 0) :
    ∃ t, exec .trIsempty s = .next t ∧ LeavesUnitB s.unitB s.nanDraws [1#32] s t := by
  have hb : boolWord (s.unitB.datapath.outputLength == 0 && s.unitB.datapath.storeLength == 0) = 1#32 := by simp [boolWord, ho, hs]
  exact exists_leavesUnitB (congrArg (fun w => s.ok [w] []) hb)

/-- `TR.ISEMPTY` with a frame in either buffer answers 0 (R152). -/
theorem trIsempty_of_nonempty {s : State} (h : s.unitB.datapath.outputLength ≠ 0 ∨ s.unitB.datapath.storeLength ≠ 0) :
    ∃ t, exec .trIsempty s = .next t ∧ LeavesUnitB s.unitB s.nanDraws [0#32] s t := by
  have hb : boolWord (s.unitB.datapath.outputLength == 0 && s.unitB.datapath.storeLength == 0) = 0#32 := by
    rcases h with h | h
    · simp [boolWord, h]
    · simp [boolWord, h]
  exact exists_leavesUnitB (congrArg (fun w => s.ok [w] []) hb)

/-! ### Reset, filter enable, clear, empty test -/

/-- Settles O37: what `TR.RESET` leaves is the reset unit of the variant. -/
theorem trResetRestoresTheTable : Obligations.TrResetRestoresTheTable := by
  unfold Obligations.TrResetRestoresTheTable
  intro s
  obtain ⟨t, ht, h⟩ := trReset_leaves s
  refine ⟨t, ht, ?_⟩
  rw [h.unitB]
  exact ⟨rfl, rfl, rfl, rfl, fun step lane hd => by rw [hd]; rfl, fun lane hd => by rw [hd]; rfl, h.nanDraws, h.unitA, h.completed⟩

/-- Settles O43, by what `TR.SETAA` leaves. -/
theorem setaaChangesTheEnableOnly : Obligations.SetaaChangesTheEnableOnly := by
  unfold Obligations.SetaaChangesTheEnableOnly
  intro aa s
  obtain ⟨t, ht, h⟩ := trSetaa_leaves aa s
  refine ⟨t, ht, ?_⟩
  rw [h.unitB]
  exact ⟨rfl, rfl, rfl, rfl, rfl, h.nanDraws, h.unitA, h.completed⟩

/-- Settles O58: the unit `TR.CLEAR` leaves has both tested buffers empty. -/
theorem clearEmptiesTheBuffersOnly : Obligations.ClearEmptiesTheBuffersOnly := by
  unfold Obligations.ClearEmptiesTheBuffersOnly
  intro s
  obtain ⟨t, ht, h⟩ := trClear_leaves s
  obtain ⟨u, hu, h1⟩ := trIsempty_of_empty (s := t) (by simp [h.unitB]) (by simp [h.unitB])
  refine ⟨t, u, ht, ?_⟩
  rw [h.unitB]
  exact ⟨rfl, rfl, rfl, rfl, fun step lane hd => by rw [hd]; rfl, fun lane hd => by rw [hd]; rfl, h.nanDraws, h.unitA, h.completed, hu, h1.completed⟩

/-- Settles O59: either both buffers are empty or one is not. -/
theorem isemptyTestsBothBuffers : Obligations.IsemptyTestsBothBuffers := by
  unfold Obligations.IsemptyTestsBothBuffers
  intro s
  by_cases he : s.unitB.datapath.outputLength = 0 ∧ s.unitB.datapath.storeLength = 0
  · obtain ⟨t, ht, h⟩ := trIsempty_of_empty he.1 he.2
    exact ⟨t, ht, ⟨h.unitB, h.nanDraws⟩, h.unitA, fun _ => h.completed, fun hn => absurd he (by omega)⟩
  · obtain ⟨t, ht, h⟩ := trIsempty_of_nonempty (s := s) (by omega)
    exact ⟨t, ht, ⟨h.unitB, h.nanDraws⟩, h.unitA, fun hn => absurd hn he, fun _ => h.completed⟩

/-! ### Receive -/

/-- Settles O57, by what `TR.RECEIVE` leaves of each variant's lane. -/
theorem receiveTakesTheOldestFrames : Obligations.ReceiveTakesTheOldestFrames := by
  unfold Obligations.ReceiveTakesTheOldestFrames
  intro n s
  obtain ⟨t, ht, hunitB, hdraws, hunitA, hcomp⟩ := trReceive_leaves n s
  constructor
  · intro step lane hd
    rw [hd] at hunitB hcomp
    exact ⟨t, ht, hunitB, hdraws, hunitA, hcomp⟩
  · intro lane hd
    rw [hd] at hunitB hcomp
    exact ⟨t, ht, hunitB, hdraws, hunitA, hcomp⟩

/-! ### The channel count -/

theorem channelsOf_eq_some_iff (n : U32) (ch : Channels) : channelsOf n = some ch ↔ n.toNat = ch.count := by
  have h1 : n = 1#32 ↔ n.toNat = 1 := BitVec.toNat_inj.symm
  have h2 : n = 2#32 ↔ n.toNat = 2 := BitVec.toNat_inj.symm
  simp only [channelsOf, h1, h2]
  cases ch
  · simp [Channels.count]
  · simp only [Channels.count]
    split_ifs <;> simp <;> omega

section
variable {n : U32} {ch : Channels} {s : State}

theorem execTrSetch_none (h : channelsOf n = none) : exec (.trSetch n) s = .fault (.channels n) := by
  show execTrSetch n s = _
  rw [execTrSetch, h]

theorem execTrSetch_same (h : channelsOf n = some s.unitB.channels) : exec (.trSetch n) s = s.ok [] [] := by
  show execTrSetch n s = _
  rw [execTrSetch, h]
  exact if_pos rfl

theorem execTrSetch_held (h : channelsOf n = some ch) (hch : ch ≠ s.unitB.channels)
    (hb : s.unitB.datapath.storeLength ≠ 0 ∨ s.unitB.datapath.outputLength ≠ 0) : exec (.trSetch n) s = .refused .channelChangeNonempty := by
  show execTrSetch n s = _
  rw [execTrSetch, h]
  exact (if_neg hch).trans (if_pos (by omega))

theorem execTrSetch_change (h : channelsOf n = some ch) (hch : ch ≠ s.unitB.channels) (hs : s.unitB.datapath.storeLength = 0)
    (ho : s.unitB.datapath.outputLength = 0) :
    exec (.trSetch n) s = (s.setUnitB { s.unitB with channels := ch, datapath := s.unitB.datapath.resetInterp }).ok [] [] := by
  show execTrSetch n s = _
  rw [execTrSetch, h]
  exact (if_neg hch).trans (if_neg (by omega))

end

/-- Settles O42: one case for each way `TR.SETCH` ends. -/
theorem setchFollowsItsFourCases : Obligations.SetchFollowsItsFourCases := by
  unfold Obligations.SetchFollowsItsFourCases
  intro n s
  refine ⟨fun h1 h2 => ?fault, fun hn => ?same, fun hn hne => ?other⟩
  case fault => exact execTrSetch_none (by simp [channelsOf, h1, h2])
  case same =>
    have hc := (channelsOf_eq_some_iff n s.unitB.channels).mpr hn
    obtain ⟨t, ht, h⟩ := exists_leavesUnitB (b := s.unitB) (execTrSetch_same hc)
    exact ⟨t, ht, ⟨h.unitB, h.nanDraws⟩, h.unitA, h.completed⟩
  case other =>
    obtain ⟨ch, hcount⟩ : ∃ ch : Channels, n.toNat = ch.count := by
      rcases hn with rfl | rfl
      · exact ⟨.mono, rfl⟩
      · exact ⟨.stereo, rfl⟩
    have hc := (channelsOf_eq_some_iff n ch).mpr hcount
    have hch : ch ≠ s.unitB.channels := fun e => hne (e ▸ hcount)
    refine ⟨execTrSetch_held hc hch, fun hs ho => ?_⟩
    obtain ⟨t, ht, h⟩ := exists_leavesUnitB (execTrSetch_change hc hch hs ho)
    refine ⟨t, ht, ?_⟩
    rw [h.unitB]
    exact ⟨hcount.symm, rfl, rfl, rfl, fun step lane hd => by rw [hd]; rfl, fun lane hd => by rw [hd]; rfl, h.nanDraws, h.unitA, h.completed⟩

end Sys2Proof.Machine
end

section
/-! PROOFS. The rate, its fixed-point step and its cutoff in exact values (00_scope.md R19, 41_transposer.md R141 to R143): O38, O39 and O40. -/

namespace Sys2Proof.Machine
open Sys2Proof FVal

/-! ### The range of the rate -/

theorem f32Value_rateMin : f32Value Config.rateMin = 1 / 2 ^ 16 := by
  have h : FVal.ofBits Config.rateMin = .fin false (2 ^ 133) := by decide +kernel
  rw [f32Value_of_fin h]
  norm_num [units]

theorem f32Value_rateMax : f32Value Config.rateMax = 2 ^ 8 := by
  have h : FVal.ofBits Config.rateMax = .fin false (2 ^ 157) := by decide +kernel
  rw [f32Value_of_fin h]
  norm_num [units]

theorem f32Finite_of_rateAdmitted {r : F32} (h : rateAdmitted r = true) : f32Finite r := by
  obtain ⟨m, hm, -, -⟩ := (rateAdmitted_iff r).mp h
  exact f32Finite_of_fin hm

theorem ofBits_ne_nan_of_finite {b : F32} (h : f32Finite b) : FVal.ofBits b ≠ .nan := by
  obtain ⟨m, hm⟩ := (f32Finite_iff b).mp h
  simp [hm]

/-- The admitted rates in exact values (R19, R143). -/
theorem rateAdmitted_iff_range (r : F32) : rateAdmitted r = true ↔ f32Finite r ∧ 1 / 2 ^ 16 ≤ f32Value r ∧ f32Value r ≤ 2 ^ 8 := by
  by_cases hf : f32Finite r
  · have hnan : isNaN r = false := decide_eq_false (ofBits_ne_nan_of_finite hf)
    have hlo := lt_ofBits_iff hf (b := Config.rateMin) (by simp [f32Finite, Config.rateMin])
    have hhi := lt_ofBits_iff (a := Config.rateMax) (by simp [f32Finite, Config.rateMax]) hf
    rw [f32Value_rateMin] at hlo
    rw [f32Value_rateMax] at hhi
    simp only [rateAdmitted, hnan, Bool.not_false, Bool.true_and, Bool.and_eq_true, Bool.not_eq_true', ← Bool.not_eq_true, hlo, hhi, not_lt, hf, true_and]
  · exact ⟨fun h => absurd (f32Finite_of_rateAdmitted h) hf, fun h => absurd h.1 hf⟩

theorem execTrSetrate_admitted {r : F32} (h : rateAdmitted r = true) (s : State) :
    exec (.trSetrate r) s = (s.setUnitB { s.unitB with rate := r, cutoff := cutoffOf r, datapath := s.unitB.datapath.setStep (stepOf r) }).ok [] [] :=
  if_pos h

/-- Settles O38: the guard of `TR.SETRATE` in exact values. -/
theorem setrateStoresAnAdmittedRate : Obligations.SetrateStoresAnAdmittedRate := by
  unfold Obligations.SetrateStoresAnAdmittedRate
  intro r s
  rw [← rateAdmitted_iff_range]
  refine ⟨fun hr => ?_, fun hr => if_neg hr⟩
  obtain ⟨t, ht, h⟩ := exists_leavesUnitB (execTrSetrate_admitted hr s)
  refine ⟨t, ht, ?_⟩
  rw [h.unitB]
  exact ⟨rfl, rfl, rfl, rfl, fun step lane hd => by rw [hd]; rfl, fun lane hd => by rw [hd]; rfl, h.nanDraws, h.unitA, h.completed⟩

/-! ### The step -/

/-- Settles O39: the exact value before the floor is a quotient of integers. -/
theorem stepIsTheRoundedRate : Obligations.StepIsTheRoundedRate := by
  unfold Obligations.StepIsTheRoundedRate
  intro r hr
  refine ⟨?_, stepOf_range hr⟩
  obtain ⟨m, hm, -, -⟩ := (rateAdmitted_iff r).mp hr
  have hv : f32Value r * 65536 + 1 / 2 = (((m + 2 ^ 132 : ℕ) : ℤ) : ℚ) / ((2 ^ 133 : ℕ) : ℚ) := by
    rw [f32Value_of_fin hm, FVal.units]
    push_cast
    ring
  rw [hv, Rat.floor_intCast_div_natCast, stepOf_eq hm]
  exact Int.natCast_ediv _ _

/-! ### The cutoff -/

theorem ofBits_half : FVal.ofBits 0x3F000000#32 = FVal.half := by decide +kernel

theorem f32Finite_half : f32Finite 0x3F000000#32 := f32Finite_of_fin ofBits_half

theorem f32Value_half : f32Value 0x3F000000#32 = 1 / 2 := by
  rw [f32Value_of_fin ofBits_half]
  norm_num [units]

/-- The quotient of finite patterns rounds the exact quotient. -/
theorem div_ofBits_roundsTo {a b : F32} (ha : f32Finite a) (hb : f32Finite b) (h0 : f32Value b ≠ 0) :
    ∃ r, FVal.div (.ofBits a) (.ofBits b) = .ofBits r ∧ RoundsTo (f32Value a / f32Value b) r := by
  obtain ⟨m, hm⟩ := (f32Finite_iff a).mp ha
  obtain ⟨n, hn⟩ := (f32Finite_iff b).mp hb
  have hn0 : n ≠ 0 := fun h => h0 ((f32Value_eq_zero_iff hn).mpr h)
  have hnq : (n : ℚ) ≠ 0 := by exact_mod_cast hn0
  obtain ⟨r, hr, hround, -⟩ := round_roundsTo (a.getLsbD 31 ^^ b.getLsbD 31) (m * 2 ^ 149) n (Nat.pos_of_ne_zero hn0) (f32Value a / f32Value b) (by
    rw [f32Value_of_fin hm, f32Value_of_fin hn, mul_div_mul_right _ _ (by positivity)]
    cases a.getLsbD 31 <;> cases b.getLsbD 31 <;> simp [units] <;> field_simp <;> norm_num)
  refine ⟨r, ?_, hround⟩
  rw [hm, hn, ← hr]
  exact if_neg hn0

/-- Rounding does not pass a finite pattern from below. -/
theorem RoundsTo.le_of_le {v : ℚ} {r b : F32} (h : RoundsTo v r) (hv : |v| < (2 ^ 25 - 1) * 2 ^ 103) (hb : f32Finite b) (hle : v ≤ f32Value b) :
    f32Value r ≤ f32Value b := by
  obtain ⟨hnear, -⟩ := (h.nearest hv).2 b hb
  rw [abs_of_nonpos (sub_nonpos.mpr hle)] at hnear
  linarith [neg_le_of_abs_le hnear]

/-- Rounding does not pass a finite pattern from above. -/
theorem RoundsTo.le_of_ge {v : ℚ} {r b : F32} (h : RoundsTo v r) (hv : |v| < (2 ^ 25 - 1) * 2 ^ 103) (hb : f32Finite b) (hle : f32Value b ≤ v) :
    f32Value b ≤ f32Value r := by
  obtain ⟨hnear, -⟩ := (h.nearest hv).2 b hb
  rw [abs_of_nonneg (sub_nonneg.mpr hle)] at hnear
  linarith [le_of_abs_le hnear]

/-- The cutoff before its rounding (R141). -/
def exactCutoff (r : F32) : ℚ := if 1 < f32Value r then 1 / 2 / f32Value r else 1 / 2 * f32Value r

theorem exactCutoff_range {r : F32} (h : rateAdmitted r = true) : 1 / 2 ^ 17 ≤ exactCutoff r ∧ exactCutoff r ≤ 1 / 2 := by
  obtain ⟨-, hlo, hhi⟩ := (rateAdmitted_iff_range r).mp h
  unfold exactCutoff
  split
  · rename_i h1
    rw [le_div_iff₀ (by linarith), div_le_iff₀ (by linarith)]
    constructor <;> linarith
  · constructor <;> linarith

theorem abs_exactCutoff_lt {r : F32} (h : rateAdmitted r = true) : |exactCutoff r| < (2 ^ 25 - 1) * 2 ^ 103 := by
  obtain ⟨hlo, hhi⟩ := exactCutoff_range h
  rw [abs_of_nonneg (by linarith)]
  exact hhi.trans_lt (by norm_num)

/-- `Cutoff(r)` is the rounding of its exact value, by one quotient or one product (R141). -/
theorem cutoffOf_roundsTo {r : F32} (h : rateAdmitted r = true) : RoundsTo (exactCutoff r) (cutoffOf r) := by
  have hf := f32Finite_of_rateAdmitted h
  have hpat : ∀ c, RoundsTo (exactCutoff r) c → toBits (nanBits 0) (.ofBits c) = c :=
    fun c hc => toBits_ofBits _ c (ofBits_ne_nan_of_finite (hc.nearest (abs_exactCutoff_lt h)).1)
  have hlt := lt_ofBits_iff f32Finite_one hf
  rw [f32Value_one, ofBits_one] at hlt
  simp only [cutoffOf, hlt, ← ofBits_half]
  split
  · rename_i h1
    have hexact : exactCutoff r = f32Value 0x3F000000#32 / f32Value r := by rw [f32Value_half]; exact if_pos h1
    obtain ⟨c, hc, hround⟩ := div_ofBits_roundsTo f32Finite_half hf (by linarith)
    rw [← hexact] at hround
    rwa [hc, hpat c hround]
  · rename_i h1
    have hexact : exactCutoff r = f32Value 0x3F000000#32 * f32Value r := by rw [f32Value_half]; exact if_neg h1
    obtain ⟨c, hc, hround, -⟩ := mul_ofBits_roundsTo f32Finite_half hf
    rw [← hexact] at hround
    rwa [hc, hpat c hround]

theorem ofBits_cutoffMin : FVal.ofBits 0x37000000#32 = .fin false (2 ^ 132) := by decide +kernel

theorem f32Value_cutoffMin : f32Value 0x37000000#32 = 1 / 2 ^ 17 := by
  rw [f32Value_of_fin ofBits_cutoffMin]
  norm_num [units]

/-- Settles O40: the rounding is nearest, and passes neither the pattern of 2^-17 nor that of 0.5. -/
theorem cutoffIsTheNearestFloat : Obligations.CutoffIsTheNearestFloat := by
  unfold Obligations.CutoffIsTheNearestFloat
  intro r hr
  have hround := cutoffOf_roundsTo hr
  have hsmall := abs_exactCutoff_lt hr
  obtain ⟨hlo, hhi⟩ := exactCutoff_range hr
  obtain ⟨hfin, hnear⟩ := hround.nearest hsmall
  have hmin := hround.le_of_ge hsmall (f32Finite_of_fin ofBits_cutoffMin) (f32Value_cutoffMin.trans_le hlo)
  have hmax := hround.le_of_le hsmall f32Finite_half (hhi.trans_eq f32Value_half.symm)
  rw [f32Value_cutoffMin] at hmin
  rw [f32Value_half] at hmax
  refine ⟨hfin, by linarith, hmax, fun b hb => ?_⟩
  rw [abs_sub_comm, abs_sub_comm (f32Value b)]
  exact (hnear b hb).1

end Sys2Proof.Machine
end

section
/-! PROOFS. The interpolation and the filter: the loop as the rule writes it, the frames each variant emits, the phase, what a transposition saves, and the filter's windows
(41_transposer.md R160 to R163, R165, R166): O48 to O52 and O56. -/

namespace Sys2Proof.Machine
open Sys2Proof FVal

/-! ### The loop of the rule -/

section
variable {σ π : Type} (k : Kernel σ π) {prev : List σ} {x : List (List σ)} {fuel j1 : Nat} {acc : π} {draws : Nat} {y : List (List σ)} {r : Run σ π}

/-- The left source frame of the loop of R160 at `j + 1 = j1`. -/
def leftFrame (prev : List σ) (x : List (List σ)) (j1 : Nat) : List σ := if j1 = 0 then prev else x[j1 - 1]?.getD prev

theorem leftFrame_succ {right : List σ} (h : x[j1]? = some right) : leftFrame prev x (j1 + 1) = right := by
  simp [leftFrame, h]

/-- The loop is over when no right endpoint is left. -/
theorem loopR160_end (h : x[j1]? = none) : loopR160 k prev x (fuel + 1) j1 acc draws y = some ⟨acc, draws, y⟩ := by
  rw [loopR160, h]

/-- The loop wraps when the phase exceeds `ONE`. -/
theorem loopR160_wrap {right : List σ} (h : x[j1]? = some right) (hx : k.exceeds acc = true) :
    loopR160 k prev x (fuel + 1) j1 acc draws y = loopR160 k prev x fuel (j1 + 1) (k.wrap acc) draws y := by
  rw [loopR160, h]
  exact if_pos hx

/-- The loop emits and advances when the phase does not exceed `ONE`. -/
theorem loopR160_emit {right : List σ} (h : x[j1]? = some right) (hx : k.exceeds acc = false) :
    loopR160 k prev x (fuel + 1) j1 acc draws y =
      loopR160 k prev x fuel j1 (k.advance acc) (emitFrame k acc (leftFrame prev x j1) right draws).2
        (y ++ [(emitFrame k acc (leftFrame prev x j1) right draws).1]) := by
  rw [loopR160, h]
  exact if_neg (by simp [hx])

/-- One more iteration allowed changes no answer. -/
theorem loopR160_mono (h : loopR160 k prev x fuel j1 acc draws y = some r) : loopR160 k prev x (fuel + 1) j1 acc draws y = some r := by
  induction fuel generalizing j1 acc draws y with
  | zero => cases h
  | succ n ih =>
    cases hr : x[j1]? with
    | none => rwa [loopR160_end k hr] at h ⊢
    | some right =>
      cases hx : k.exceeds acc with
      | true =>
        rw [loopR160_wrap k hr hx] at h ⊢
        exact ih h
      | false =>
        rw [loopR160_emit k hr hx] at h ⊢
        exact ih h

theorem loopR160_add (h : loopR160 k prev x fuel j1 acc draws y = some r) (n : Nat) : loopR160 k prev x (fuel + n) j1 acc draws y = some r := by
  induction n with
  | zero => exact h
  | succ n ih => exact loopR160_mono k ih

/-- Every two numbers of iterations that suffice give the same answer. -/
theorem loopR160_unique {fuel' : Nat} {r' : Run σ π} (h : loopR160 k prev x fuel j1 acc draws y = some r)
    (h' : loopR160 k prev x fuel' j1 acc draws y = some r') : r' = r := by
  have e := loopR160_add k h fuel'
  rw [Nat.add_comm, loopR160_add k h' fuel] at e
  exact Option.some.inj e

/-- The emissions on one pair of source frames are iterations of the loop, and so is the wrap after them. -/
theorem loopR160_of_emitRun {right : List σ} {n : Nat} {e : Run σ π} (hr : x[j1]? = some right)
    (he : emitRun k (leftFrame prev x j1) right n acc draws = some e)
    (h : ∃ fuel, loopR160 k prev x fuel (j1 + 1) (k.wrap e.acc) e.draws (y ++ e.frames) = some r) :
    ∃ fuel, loopR160 k prev x fuel j1 acc draws y = some r := by
  induction n generalizing acc draws y e with
  | zero => cases he
  | succ n ih =>
    obtain ⟨hx, rfl⟩ | ⟨hx, e', he', rfl⟩ := (emitRun_succ_eq_some k).mp he
    · obtain ⟨fuel, h⟩ := h
      rw [List.append_nil] at h
      exact ⟨fuel + 1, (loopR160_wrap k hr hx).trans h⟩
    · rw [List.append_cons] at h
      obtain ⟨fuel, h⟩ := ih he' h
      exact ⟨fuel + 1, (loopR160_emit k hr hx).trans h⟩

/-- A transposition of the frames from `j1` on is the loop from there. -/
theorem loopR160_of_transposeFrom {rest : List (List σ)} {t : Run σ π} (hd : x.drop j1 = rest)
    (ht : transposeFrom k (leftFrame prev x j1) rest acc draws = some t) :
    ∃ fuel, loopR160 k prev x fuel j1 acc draws y = some ⟨t.acc, t.draws, y ++ t.frames⟩ := by
  induction rest generalizing j1 acc draws y t with
  | nil =>
    rw [transposeFrom_nil] at ht
    cases ht
    rw [List.append_nil]
    exact ⟨1, loopR160_end k (List.getElem?_eq_none (List.drop_eq_nil_iff.mp hd))⟩
  | cons right rest ih =>
    have hr : x[j1]? = some right := by rw [← Nat.add_zero j1, ← List.getElem?_drop, hd]; rfl
    have hrest : x.drop (j1 + 1) = rest := by rw [← List.drop_drop, hd]; rfl
    obtain ⟨e, u, he, hu, rfl⟩ := (transposeFrom_cons_eq_some k).mp ht
    rw [← leftFrame_succ (prev := prev) hr] at hu
    obtain ⟨fuel, h⟩ := ih (y := y ++ e.frames) hrest hu
    rw [List.append_assoc] at h
    exact loopR160_of_emitRun k hr he ⟨fuel, h⟩

end

/-- Settles O48: the recursion over the frames is the loop over their indices, and fuel changes no answer. -/
theorem transposeIsTheLoopOfTheRule : Obligations.TransposeIsTheLoopOfTheRule := by
  unfold Obligations.TransposeIsTheLoopOfTheRule
  intro σ π k left x acc draws r hr
  obtain ⟨fuel, h⟩ := loopR160_of_transposeFrom k (prev := left) (y := []) List.drop_zero hr
  exact ⟨⟨fuel, h⟩, fun fuel' r' h' => loopR160_unique k h h'⟩

/-! ### Emitted frames -/

section
variable {σ π : Type} (k : Kernel σ π) {acc : π} {a b : σ} {as bs : List σ} {draws : Nat}

theorem emitFrame_nil_left : emitFrame k acc [] bs draws = ([], draws) := by rw [emitFrame]

theorem emitFrame_nil_right : emitFrame k acc as [] draws = ([], draws) := by cases as <;> rw [emitFrame]

/-- A channel that is no NaN gets its sample and takes no draw. -/
theorem emitFrame_cons_some {v : σ} (h : k.interp acc a b = some v) :
    emitFrame k acc (a :: as) (b :: bs) draws = (v :: (emitFrame k acc as bs draws).1, (emitFrame k acc as bs draws).2) := by
  rw [emitFrame, h]

/-- A channel that is a NaN takes the next draw. -/
theorem emitFrame_cons_none (h : k.interp acc a b = none) :
    emitFrame k acc (a :: as) (b :: bs) draws =
      (k.fresh draws :: (emitFrame k acc as bs (draws + 1)).1, (emitFrame k acc as bs (draws + 1)).2) := by
  rw [emitFrame, h]

end

/-- The weighted sum of a FIXED emission lies between the scaled endpoints. -/
theorem fixedSum_bounds {s : Nat} (hs : s ≤ 65536) (a b : ℤ) :
    min a b * 65536 ≤ (65536 - (s : ℤ)) * a + s * b ∧ (65536 - (s : ℤ)) * a + s * b ≤ max a b * 65536 := by
  have h0 : (0 : ℤ) ≤ s := by omega
  have h1 : (0 : ℤ) ≤ 65536 - s := by omega
  have := mul_le_mul_of_nonneg_left (min_le_left a b) h1
  have := mul_le_mul_of_nonneg_left (min_le_right a b) h0
  have := mul_le_mul_of_nonneg_left (le_max_left a b) h1
  have := mul_le_mul_of_nonneg_left (le_max_right a b) h0
  constructor <;> linarith

/-- The exact quotient of a FIXED emission lies between the endpoints (R161). -/
theorem fixedQuotient_bounds {s : Nat} (hs : s ≤ 65536) (a b : ℤ) :
    min a b ≤ Int.tdiv ((65536 - (s : ℤ)) * a + s * b) 65536 ∧ Int.tdiv ((65536 - (s : ℤ)) * a + s * b) 65536 ≤ max a b := by
  obtain ⟨hlo, hhi⟩ := fixedSum_bounds hs a b
  have hmin := Int.tdiv_le_tdiv (c := 65536) (by decide) hlo
  have hmax := Int.tdiv_le_tdiv (c := 65536) (by decide) hhi
  rw [Int.mul_tdiv_cancel _ (by decide)] at hmin hmax
  exact ⟨hmin, hmax⟩

/-- No FIXED emission saturates: the sample is the exact quotient (R161). -/
theorem toInt_interpFixed {s : Nat} (hs : s ≤ 65536) (a b : I16) :
    (interpFixed s a b).toInt = Int.tdiv ((65536 - (s : ℤ)) * a.toInt + s * b.toInt) 65536 := by
  obtain ⟨hlo, hhi⟩ := fixedQuotient_bounds hs a.toInt b.toInt
  refine BitVec.toInt_ofInt_eq_self (by decide) ?_ ?_
  · exact (le_min a.le_toInt b.le_toInt).trans hlo
  · exact hhi.trans_lt (max_lt a.toInt_lt b.toInt_lt)

theorem emitFrame_fixed (step : Nat) (cutoff : F32) (s : Nat) (left right : List I16) (draws : Nat) :
    emitFrame (fixedKernel step cutoff) s left right draws = (List.zipWith (interpFixed s) left right, draws) := by
  induction left generalizing right with
  | nil => exact emitFrame_nil_left _
  | cons a as ih =>
    cases right with
    | nil => exact emitFrame_nil_right _
    | cons b bs =>
      rw [emitFrame_cons_some (fixedKernel step cutoff) (rfl : _ = some (interpFixed s a b)), ih]
      rfl

/-- Settles O49: the quotient lies between the endpoints, so it is an i16 sample. -/
theorem fixedEmissionLiesBetweenItsEndpoints : Obligations.FixedEmissionLiesBetweenItsEndpoints := by
  unfold Obligations.FixedEmissionLiesBetweenItsEndpoints
  refine ⟨fun s a b hs => ?_, emitFrame_fixed⟩
  rw [toInt_interpFixed hs]
  exact ⟨rfl, fixedQuotient_bounds hs a.toInt b.toInt⟩

/-! ### NaN draws -/

theorem isNaN_of_fields {b : F32} (he : b.extractLsb' 23 8 = 0xFF#8) (hf : b.extractLsb' 0 23 ≠ 0#23) : isNaN b = true := by
  have hf : (b.extractLsb' 0 23).toNat ≠ 0 := fun h => hf (BitVec.eq_of_toNat_eq h)
  rw [isNaN_iff, FVal.ofBits, he]
  exact (if_pos rfl).trans (if_neg hf)

/-- Every draw is a NaN pattern: its exponent is all ones, and its fraction is made nonzero (I3). -/
theorem isNaN_nanBits (n : Nat) : isNaN (nanBits n) = true := by
  have he : (Config.freeNaN n ||| 0x7F800000#32).extractLsb' 23 8 = 0xFF#8 := by
    rw [BitVec.extractLsb'_or]
    exact BitVec.or_allOnes
  simp only [nanBits]
  split
  · rename_i h0
    refine isNaN_of_fields ?_ ?_
    · rw [BitVec.extractLsb'_or, he]
      rfl
    · rw [BitVec.extractLsb'_or, h0]
      decide
  · rename_i h0
    exact isNaN_of_fields he h0

theorem interpFloatBits_of_nan {φ a b : F32} (h : interpFloat φ a b = .nan) : interpFloatBits φ a b = none := by
  rw [interpFloatBits, h]

/-- An emission that is no NaN is a pattern of its value. -/
theorem interpFloatBits_of_ne_nan {φ a b : F32} (h : interpFloat φ a b ≠ .nan) :
    ∃ v, interpFloatBits φ a b = some v ∧ FVal.ofBits v = interpFloat φ a b := by
  obtain ⟨r, hr⟩ : ∃ r, interpFloat φ a b = .ofBits r := exists_add_eq_ofBits _ _
  refine ⟨r, ?_, hr.symm⟩
  unfold interpFloatBits
  split
  · exact absurd ‹_› h
  · rw [hr, toBits_ofBits _ r (hr ▸ h)]

section
variable {φ a b : F32} {as bs : List F32}

theorem nanEmissions_cons_nan (h : interpFloat φ a b = .nan) : nanEmissions φ (a :: as) (b :: bs) = nanEmissions φ as bs + 1 :=
  List.countP_cons_of_pos (by simpa using h)

theorem nanEmissions_cons_ne_nan (h : interpFloat φ a b ≠ .nan) : nanEmissions φ (a :: as) (b :: bs) = nanEmissions φ as bs :=
  List.countP_cons_of_neg (by simpa using h)

end

/-- A FLOAT frame takes one draw for each NaN channel. -/
theorem emitFrame_float_draws (rate cutoff φ : F32) (left right : List F32) (draws : Nat) :
    (emitFrame (floatKernel rate cutoff) φ left right draws).2 = draws + nanEmissions φ left right := by
  induction left generalizing right draws with
  | nil => rw [emitFrame_nil_left]; rfl
  | cons a as ih =>
    cases right with
    | nil => rw [emitFrame_nil_right]; rfl
    | cons b bs =>
      by_cases h : interpFloat φ a b = .nan
      · rw [emitFrame_cons_none (floatKernel rate cutoff) (interpFloatBits_of_nan h), nanEmissions_cons_nan h, ih]
        omega
      · obtain ⟨v, hv, -⟩ := interpFloatBits_of_ne_nan h
        rw [emitFrame_cons_some (floatKernel rate cutoff) hv, nanEmissions_cons_ne_nan h, ih]

/-- Channel `c` of a FLOAT frame: its value's pattern, or the draw after those of the channels before it. -/
theorem emitFrame_float_channel (rate cutoff φ : F32) {left right : List F32} {draws c : Nat} {a b : F32} (ha : left[c]? = some a) (hb : right[c]? = some b) :
    (interpFloat φ a b = .nan →
      (emitFrame (floatKernel rate cutoff) φ left right draws).1[c]? = some (nanBits (draws + nanEmissions φ (left.take c) (right.take c)))) ∧
    (interpFloat φ a b ≠ .nan → ∃ v, (emitFrame (floatKernel rate cutoff) φ left right draws).1[c]? = some v ∧ FVal.ofBits v = interpFloat φ a b) := by
  induction left generalizing right draws c with
  | nil => cases ha
  | cons a' as ih =>
    cases right with
    | nil => cases hb
    | cons b' bs =>
      cases c with
      | zero =>
        cases ha
        cases hb
        constructor
        · intro h
          rw [emitFrame_cons_none (floatKernel rate cutoff) (interpFloatBits_of_nan h)]
          rfl
        · intro h
          obtain ⟨v, hv, hval⟩ := interpFloatBits_of_ne_nan h
          rw [emitFrame_cons_some (floatKernel rate cutoff) hv]
          exact ⟨v, rfl, hval⟩
      | succ c =>
        by_cases h : interpFloat φ a' b' = .nan
        · have hdraw : draws + (nanEmissions φ (as.take c) (bs.take c) + 1) = draws + 1 + nanEmissions φ (as.take c) (bs.take c) := by omega
          rw [emitFrame_cons_none (floatKernel rate cutoff) (interpFloatBits_of_nan h), List.take_succ_cons, List.take_succ_cons, nanEmissions_cons_nan h, hdraw]
          exact ih ha hb
        · obtain ⟨v, hv, -⟩ := interpFloatBits_of_ne_nan h
          rw [emitFrame_cons_some (floatKernel rate cutoff) hv, List.take_succ_cons, List.take_succ_cons, nanEmissions_cons_ne_nan h]
          exact ih ha hb

/-- Settles O50, by the draws of a frame and what one channel gets. -/
theorem floatEmissionDrawsOnlyForNaN : Obligations.FloatEmissionDrawsOnlyForNaN := by
  unfold Obligations.FloatEmissionDrawsOnlyForNaN
  refine ⟨isNaN_nanBits, fun rate cutoff φ left right draws hlen => ⟨?_, emitFrame_float_draws .., fun c a b ha hb => emitFrame_float_channel rate cutoff φ ha hb⟩⟩
  rw [emitFrame_length, ← hlen, Nat.min_self]

/-! ### What a transposition saves -/

/-- Settles O51: the run gives the phase, and the last frame the previous samples. -/
theorem transposeSavesTheLastFrame : Obligations.TransposeSavesTheLastFrame := by
  unfold Obligations.TransposeSavesTheLastFrame
  intro σ π k ch x lane draws r _ h
  obtain ⟨hstore, htemp, houtput⟩ := Lane.transpose_frame k h
  obtain ⟨t, ht, rfl⟩ := (Lane.transpose_eq_some k).mp h
  refine ⟨fun l hl => ?mono, fun l m hl => ?stereo, fun hx => ?empty, hstore, htemp, houtput, t, ht, ?acc, rfl⟩
  case mono => rw [hl]; exact ⟨rfl, rfl⟩
  case stereo => rw [hl]; exact ⟨rfl, rfl⟩
  case empty =>
    subst hx
    rw [transposeFrom_nil] at ht
    cases ht
    exact ⟨rfl, rfl, rfl⟩
  case acc => cases x.getLast? <;> rfl

/-! ### The FIXED phase -/

/-- Between two wraps the slope grows by the step for each frame emitted (R163). -/
theorem emitRun_fixed_acc {step : Nat} {cutoff : F32} {left right : List I16} {fuel slope draws : Nat} {e : Run I16 Nat}
    (h : emitRun (fixedKernel step cutoff) left right fuel slope draws = some e) : e.acc = slope + step * e.frames.length := by
  induction fuel generalizing slope draws e with
  | zero => cases h
  | succ n ih =>
    obtain ⟨-, rfl⟩ | ⟨-, e, he, rfl⟩ := (emitRun_succ_eq_some _).mp h
    · rfl
    · have hacc : e.acc = slope + step + step * e.frames.length := ih he
      simp only [List.length_cons, Nat.mul_succ]
      omega

/-- Before a wrap the slope exceeds 65536, and by no more than a step when it started so (R163). -/
theorem emitRun_fixed_range {step : Nat} {cutoff : F32} {left right : List I16} {fuel slope draws : Nat} {e : Run I16 Nat}
    (h : emitRun (fixedKernel step cutoff) left right fuel slope draws = some e) : 65536 < e.acc ∧ (slope ≤ 65536 + step → e.acc ≤ 65536 + step) := by
  refine ⟨of_decide_eq_true (emitRun_exceeds _ h), fun hs => emitRun_keeps (fixedKernel step cutoff) (P := fun a => a ≤ 65536 + step) (fun a _ hx => ?_) hs h⟩
  have hx : ¬ 65536 < a := of_decide_eq_false hx
  show a + step ≤ 65536 + step
  omega

/-- Settles O52, by induction over the source frames, one wrap for each. -/
theorem fixedPhaseIsConserved : Obligations.FixedPhaseIsConserved := by
  unfold Obligations.FixedPhaseIsConserved
  intro step cutoff left x slope draws r h
  induction x generalizing left slope draws r with
  | nil =>
    rw [transposeFrom_nil] at h
    cases h
    exact ⟨rfl, fun _ hx => absurd rfl hx⟩
  | cons right x ih =>
    obtain ⟨e, t, he, ht, rfl⟩ := (transposeFrom_cons_eq_some _).mp h
    have hacc := emitRun_fixed_acc he
    obtain ⟨hgt, hle⟩ := emitRun_fixed_range he
    have hwrap : (fixedKernel step cutoff).wrap e.acc = e.acc - 65536 := rfl
    rw [hwrap] at ht
    obtain ⟨hsum, hbound⟩ := ih _ _ _ _ ht
    constructor
    · simp only [List.length_cons, List.length_append, Nat.mul_add]
      omega
    · intro hs _
      have hle := hle hs
      cases x with
      | nil =>
        rw [transposeFrom_nil, Option.some_inj] at ht
        subst ht
        show e.acc - 65536 ≤ step
        omega
      | cons f x => exact hbound (by omega) (List.cons_ne_nil f x)

/-! ### The filter's windows -/

section
variable {σ π : Type} (k : Kernel σ π) (ch : Channels) {L count : Nat} {buf : List (List σ)} {i c : Nat}

theorem filterEval_getElem? (hi : i < count) :
    (filterEval k ch L buf count)[i]? = some ((List.range ch.count).map fun c => k.filter (window k L buf i c)) := by
  simp [filterEval, hi]

theorem window_length (h : i + L ≤ buf.length) : (window k L buf i c).length = L := by
  simp only [window, List.length_map, List.length_take, List.length_drop]
  omega

theorem window_getElem? {j : Nat} {f : List σ} (hj : j < L) (hf : buf[i + j]? = some f) (hc : c < f.length) : (window k L buf i c)[j]? = f[c]? := by
  simp [window, hj, hf, hc]

end

/-- Settles O56: the filter's definition, and a window inside the buffer has no sample made up. -/
theorem filterWindowsAreTheRulesWindows : Obligations.FilterWindowsAreTheRulesWindows := by
  unfold Obligations.FilterWindowsAreTheRulesWindows
  refine ⟨fun _ _ => rfl, fun _ _ => rfl, fun σ π k ch L count buf hw hlen => ⟨filterEval_length .., fun i c hi hc => ?_⟩⟩
  refine ⟨_, window k L buf i c, filterEval_getElem? k ch hi, by simp, by simp [hc], window_length k (by omega), fun j hj => ?_⟩
  have hlt : i + j < buf.length := by omega
  have hf := List.getElem?_eq_getElem hlt
  exact ⟨_, hf, window_getElem? k hj hf (by rwa [hw _ (List.getElem_mem hlt)])⟩

end Sys2Proof.Machine
end

section
/-! PROOFS. The three paths of `TR.PUT`: that every put completes, what each path leaves, that splitting changes nothing, the frames held back and the copy at rate 1.0
(41_transposer.md R145 to R148, R160 to R164, R167, R168; 70_reset_and_hazards.md R229, R230): O44 to O47 and O53 to O55. -/

namespace Sys2Proof.Machine
open Sys2Proof FVal

/-! ### A put and its lane -/

section
variable {s t : State}

theorem trPut_eq_next {x : Block} (h : exec (.trPut x) s = .next t) :
    ∃ b d, s.unitB.put s.cfg.aaLength x s.nanDraws = .ok (b, d) ∧ LeavesUnitB b d [] s t := by
  obtain ⟨b, d, hp, h⟩ := execTrPut_eq_next h
  exact ⟨b, d, hp, .of_ok h⟩

theorem trPut_of_put {x : Block} {b : UnitB} {d : Nat} (h : s.unitB.put s.cfg.aaLength x s.nanDraws = .ok (b, d)) :
    ∃ t, exec (.trPut x) s = .next t ∧ LeavesUnitB b d [] s t := by
  refine ⟨_, ?_, .of_ok rfl⟩
  show execTrPut x s = _
  rw [execTrPut, h]
  rfl

/-- A completed put on a FIXED unit is a put on its lane. -/
theorem trPut_fixed_eq_next {step : Nat} {lane : Lane I16 Nat} {frames : List (List I16)} (hd : s.unitB.datapath = .fixed step lane)
    (h : exec (.trPut (.i16 frames)) s = .next t) :
    ∃ lane', lane.put (fixedKernel step s.unitB.cutoff) s.unitB.channels s.cfg.aaLength s.unitB.aaEnable s.unitB.upsamples frames s.nanDraws =
      some (lane', t.nanDraws) ∧ t.unitB.datapath = .fixed step lane' := by
  obtain ⟨b, d, hp, ht⟩ := trPut_eq_next h
  obtain ⟨-, ⟨step', lane', l, frames', hd', hx, rfl, hl⟩ | ⟨_, _, _, _, hx, _⟩⟩ := UnitB.put_eq_ok hp
  · cases hd.symm.trans hd'
    cases hx
    rw [ht.unitB, ht.nanDraws]
    exact ⟨l, hl, rfl⟩
  · cases hx

/-- A completed put on a FLOAT unit is a put on its lane. -/
theorem trPut_float_eq_next {lane : Lane F32 F32} {frames : List (List F32)} (hd : s.unitB.datapath = .float lane)
    (h : exec (.trPut (.f32 frames)) s = .next t) :
    ∃ lane', lane.put (floatKernel s.unitB.rate s.unitB.cutoff) s.unitB.channels s.cfg.aaLength s.unitB.aaEnable s.unitB.upsamples frames s.nanDraws =
      some (lane', t.nanDraws) ∧ t.unitB.datapath = .float lane' := by
  obtain ⟨b, d, hp, ht⟩ := trPut_eq_next h
  obtain ⟨-, ⟨_, _, _, _, _, hx, _⟩ | ⟨lane', l, frames', hd', hx, rfl, hl⟩⟩ := UnitB.put_eq_ok hp
  · cases hx
  · cases hd.symm.trans hd'
    cases hx
    rw [ht.unitB, ht.nanDraws]
    exact ⟨l, hl, rfl⟩

end

/-! ### Completion -/

/-- A put that succeeds changes no configuration register, and a put of no frames changes nothing. -/
theorem UnitB.put_keeps {L : Nat} {x : Block} {b b' : UnitB} {draws d : Nat} (h : b.put L x draws = .ok (b', d)) :
    b' = { b with datapath := b'.datapath } ∧ (x.length = 0 → b' = b ∧ d = draws) := by
  obtain ⟨-, ⟨step, lane, lane', frames, hd, rfl, rfl, hl⟩ | ⟨lane, lane', frames, hd, rfl, rfl, hl⟩⟩ := UnitB.put_eq_ok h
  · refine ⟨rfl, fun hx => ?_⟩
    cases List.length_eq_zero_iff.mp hx
    cases hl
    exact ⟨by rw [← hd], rfl⟩
  · refine ⟨rfl, fun hx => ?_⟩
    cases List.length_eq_zero_iff.mp hx
    cases hl
    exact ⟨by rw [← hd], rfl⟩

/-- With the phase and the rate in their ranges a put of frames of the unit's type and width succeeds: every run of interpolation ends (R163, R164). -/
theorem UnitB.Inv.exists_put {L : Nat} {x : Block} {b : UnitB} (h : b.Inv L) (hv : x.variant = b.datapath.variant)
    (hw : x.framesHave b.channels.count = true) (draws : Nat) : ∃ b' d, b.put L x draws = .ok (b', d) := by
  obtain ⟨hrate, -, hphase, -⟩ := h
  obtain ⟨hmin, hmax⟩ := stepOf_range hrate
  cases hd : b.datapath with
  | fixed step lane =>
    rw [hd] at hphase hv
    obtain ⟨rfl, hacc⟩ := hphase
    cases x with
    | f32 frames => cases hv
    | i16 frames =>
      obtain ⟨lane', d, hl⟩ := Lane.put_some (fixedKernel (stepOf b.rate) b.cutoff) (fixed_transposeFrom_some hmin hmax b.cutoff) b.channels L b.aaEnable
        b.upsamples frames lane draws hacc
      exact ⟨_, d, UnitB.put_fixed hd ((Block.framesHave_i16 _ _).mp hw) hl⟩
  | float lane =>
    rw [hd] at hphase hv
    cases x with
    | i16 frames => cases hv
    | f32 frames =>
      obtain ⟨lane', d, hl⟩ := Lane.put_some (floatKernel b.rate b.cutoff) (P := fun a => a.toNat ≤ 0x43808000) (float_transposeFrom_some hrate b.cutoff)
        b.channels L b.aaEnable b.upsamples frames lane draws hphase
      exact ⟨_, d, UnitB.put_float hd ((Block.framesHave_f32 _ _).mp hw) hl⟩

/-- Settles O44: every transposition in the ranges of the invariant ends, so the put does. -/
theorem putCompletes : Obligations.PutCompletes := by
  unfold Obligations.PutCompletes
  intro x s hs hx
  obtain ⟨hv, hw, -⟩ := (Block.wellFormed_iff _ _).mp hx
  obtain ⟨b, d, hp⟩ := hs.unitB.exists_put hv hw s.nanDraws
  obtain ⟨hkeeps, hnil⟩ := UnitB.put_keeps hp
  obtain ⟨t, ht, h⟩ := trPut_of_put hp
  refine ⟨t, ht, ?_⟩
  rw [h.unitB, hkeeps]
  exact ⟨rfl, rfl, rfl, rfl, fun h0 => ⟨h.unitB.trans (hnil h0).1, h.nanDraws.trans (hnil h0).2⟩, h.unitA, h.completed⟩

/-! ### The three paths -/

section
variable {σ π : Type} (k : Kernel σ π) {ch : Channels} {L : Nat} {up : Bool} {x : List (List σ)} {lane lane' : Lane σ π} {draws d : Nat}

/-- A transposition changes only the phase and the previous samples of its lane. -/
theorem Lane.transpose_lane {r : LaneRun σ π} (h : lane.transpose k ch x draws = some r) :
    r.lane = { lane with acc := r.lane.acc, prev0 := r.lane.prev0, prev1 := r.lane.prev1 } := by
  obtain ⟨hs, ht, ho⟩ := Lane.transpose_frame k h
  rw [← hs, ← ht, ← ho]

/-- A transposition does not read the buffers of its lane. -/
theorem Lane.transpose_of_buffers {store temp : List (List σ)} {r : LaneRun σ π}
    (h : Lane.transpose k ch x { lane with store := store, temp := temp } draws = some r) :
    ∃ r', lane.transpose k ch x draws = some r' ∧ r'.draws = r.draws ∧ r'.frames = r.frames ∧
      r.lane = { r'.lane with store := store, temp := temp } := by
  obtain ⟨t, ht, rfl⟩ := (Lane.transpose_eq_some k).mp h
  refine ⟨_, (Lane.transpose_eq_some k).mpr ⟨t, ht, rfl⟩, rfl, rfl, ?_⟩
  cases x.getLast? <;> rfl

/-- The direct path (R146). -/
theorem Lane.put_direct (hx : x ≠ []) (h : lane.put k ch L false up x draws = some (lane', d)) :
    ∃ r, lane.transpose k ch x draws = some r ∧ d = r.draws ∧
      lane' = { lane with acc := r.lane.acc, prev0 := r.lane.prev0, prev1 := r.lane.prev1, output := lane.output ++ r.frames } := by
  obtain ⟨h, -⟩ | ⟨-, -, r, hr, rfl, rfl⟩ | ⟨-, h, -⟩ | ⟨-, h, -⟩ := (Lane.put_eq_some k).mp h
  · exact absurd h hx
  · refine ⟨r, hr, rfl, ?_⟩
    rw [Lane.transpose_lane k hr]
  · cases h
  · cases h

/-- The upsampling path (R147). -/
theorem Lane.put_upsample (hx : x ≠ []) (h : lane.put k ch L true true x draws = some (lane', d)) :
    ∃ r, lane.transpose k ch x draws = some r ∧ d = r.draws ∧
      lane' = { lane with
        acc := r.lane.acc
        prev0 := r.lane.prev0
        prev1 := r.lane.prev1
        store := (lane.store ++ r.frames).drop ((lane.store ++ r.frames).length - L)
        output := lane.output ++ filterEval k ch L (lane.store ++ r.frames) ((lane.store ++ r.frames).length - L) } := by
  obtain ⟨h, -⟩ | ⟨-, h, -⟩ | ⟨-, -, -, r, hr, rfl, rfl⟩ | ⟨-, -, h, -⟩ := (Lane.put_eq_some k).mp h
  · exact absurd h hx
  · cases h
  · refine ⟨r, hr, rfl, ?_⟩
    rw [Lane.transpose_lane k hr]
    rfl
  · cases h

/-- The downsampling path (R148). -/
theorem Lane.put_downsample (hx : x ≠ []) (h : lane.put k ch L true false x draws = some (lane', d)) :
    ∃ r, lane.transpose k ch (filterEval k ch L (lane.store ++ x) ((lane.store ++ x).length - L)) draws = some r ∧ d = r.draws ∧
      lane' = { lane with
        acc := r.lane.acc
        prev0 := r.lane.prev0
        prev1 := r.lane.prev1
        store := (lane.store ++ x).drop ((lane.store ++ x).length - L)
        temp := []
        output := lane.output ++ r.frames } := by
  obtain ⟨h, -⟩ | ⟨-, h, -⟩ | ⟨-, -, h, -⟩ | ⟨-, -, -, r, hr, rfl, rfl⟩ := (Lane.put_eq_some k).mp h
  · exact absurd h hx
  · cases h
  · cases h
  · obtain ⟨r', hr', hdraws, hframes, hlane⟩ := Lane.transpose_of_buffers k hr
    refine ⟨r', hr', hdraws.symm, ?_⟩
    rw [hlane, hframes, Lane.transpose_lane k hr']
    rfl

end

/-- The path of a put at a finite rate, by its exact value (R145). -/
theorem UnitB.upsamples_iff_of_finite {b : UnitB} (h : f32Finite b.rate) : b.upsamples = true ↔ f32Value b.rate < 1 := by
  rw [UnitB.upsamples, ← ofBits_one, lt_ofBits_iff h f32Finite_one, f32Value_one]

theorem UnitB.upsamples_eq_false {b : UnitB} (h : f32Finite b.rate) (h1 : 1 ≤ f32Value b.rate) : b.upsamples = false :=
  Bool.eq_false_iff.mpr fun hu => absurd ((UnitB.upsamples_iff_of_finite h).mp hu) (not_lt.mpr h1)

/-- Settles O45: the direct path of each variant's kernel. -/
theorem putDirectAppendsTheTransposedFrames : Obligations.PutDirectAppendsTheTransposedFrames := by
  unfold Obligations.PutDirectAppendsTheTransposedFrames
  intro s t haa
  constructor
  · intro step lane frames hd hx h
    obtain ⟨lane', hl, ht⟩ := trPut_fixed_eq_next hd h
    rw [haa] at hl
    obtain ⟨r, hr, hdraws, rfl⟩ := Lane.put_direct _ hx hl
    exact ⟨r, hr, hdraws, ht⟩
  · intro lane frames hd hx h
    obtain ⟨lane', hl, ht⟩ := trPut_float_eq_next hd h
    rw [haa] at hl
    obtain ⟨r, hr, hdraws, rfl⟩ := Lane.put_direct _ hx hl
    exact ⟨r, hr, hdraws, ht⟩

/-- Settles O46: a rate below 1 takes the upsampling path of each variant's kernel. -/
theorem putUpsampleInterpolatesThenFilters : Obligations.PutUpsampleInterpolatesThenFilters := by
  unfold Obligations.PutUpsampleInterpolatesThenFilters
  intro s t haa hfin hlt
  have hup := (UnitB.upsamples_iff_of_finite hfin).mpr hlt
  constructor
  · intro step lane frames hd hx h
    obtain ⟨lane', hl, ht⟩ := trPut_fixed_eq_next hd h
    rw [haa, hup] at hl
    obtain ⟨r, hr, hdraws, rfl⟩ := Lane.put_upsample _ hx hl
    exact ⟨r, _, hr, hdraws, ht, rfl, rfl, rfl, rfl, rfl, rfl⟩
  · intro lane frames hd hx h
    obtain ⟨lane', hl, ht⟩ := trPut_float_eq_next hd h
    rw [haa, hup] at hl
    obtain ⟨r, hr, hdraws, rfl⟩ := Lane.put_upsample _ hx hl
    exact ⟨r, _, hr, hdraws, ht, rfl, rfl, rfl, rfl, rfl, rfl⟩

/-- Settles O47: a rate of at least 1 takes the downsampling path of each variant's kernel. -/
theorem putDownsampleFiltersThenInterpolates : Obligations.PutDownsampleFiltersThenInterpolates := by
  unfold Obligations.PutDownsampleFiltersThenInterpolates
  intro s t haa hfin hge
  have hup := UnitB.upsamples_eq_false hfin hge
  constructor
  · intro step lane frames hd hx h
    obtain ⟨lane', hl, ht⟩ := trPut_fixed_eq_next hd h
    rw [haa, hup] at hl
    obtain ⟨r, hr, hdraws, rfl⟩ := Lane.put_downsample _ hx hl
    exact ⟨r, _, hr, hdraws, ht, rfl, rfl, rfl, rfl, rfl, rfl⟩
  · intro lane frames hd hx h
    obtain ⟨lane', hl, ht⟩ := trPut_float_eq_next hd h
    rw [haa, hup] at hl
    obtain ⟨r, hr, hdraws, rfl⟩ := Lane.put_downsample _ hx hl
    exact ⟨r, _, hr, hdraws, ht, rfl, rfl, rfl, rfl, rfl, rfl⟩

/-! ### Splitting a put -/

section
variable {L draws d1 d2 : Nat} {b b1 b2 : UnitB}

theorem UnitB.put_append_fixed {x x' : List (List I16)} (h1 : b.put L (.i16 x) draws = .ok (b1, d1)) (h2 : b1.put L (.i16 x') d1 = .ok (b2, d2)) :
    b.put L (.i16 (x ++ x')) draws = .ok (b2, d2) := by
  obtain ⟨hw, ⟨step, lane, lane1, _, hd, hx, rfl, hl1⟩ | ⟨_, _, _, _, hx, _⟩⟩ := UnitB.put_eq_ok h1
  · obtain ⟨hw', ⟨_, _, lane2, _, hd', hx', rfl, hl2⟩ | ⟨_, _, _, _, hx', _⟩⟩ := UnitB.put_eq_ok h2
    · cases hd'
      cases hx
      cases hx'
      have hw := (Block.framesHave_i16 _ _).mp hw
      have hw' := (Block.framesHave_i16 _ _).mp hw'
      exact UnitB.put_fixed hd (framesHaveWidth_append hw hw') (Lane.put_append _ hw hw' hl1 hl2)
    · cases hx'
  · cases hx

theorem UnitB.put_append_float {x x' : List (List F32)} (h1 : b.put L (.f32 x) draws = .ok (b1, d1)) (h2 : b1.put L (.f32 x') d1 = .ok (b2, d2)) :
    b.put L (.f32 (x ++ x')) draws = .ok (b2, d2) := by
  obtain ⟨hw, ⟨_, _, _, _, _, hx, _⟩ | ⟨lane, lane1, _, hd, hx, rfl, hl1⟩⟩ := UnitB.put_eq_ok h1
  · cases hx
  · obtain ⟨hw', ⟨_, _, _, _, _, hx', _⟩ | ⟨_, lane2, _, hd', hx', rfl, hl2⟩⟩ := UnitB.put_eq_ok h2
    · cases hx'
    · cases hd'
      cases hx
      cases hx'
      have hw := (Block.framesHave_f32 _ _).mp hw
      have hw' := (Block.framesHave_f32 _ _).mp hw'
      exact UnitB.put_float hd (framesHaveWidth_append hw hw') (Lane.put_append _ hw hw' hl1 hl2)

end

/-- When unit B makes of two blocks what it makes of a third, so do the commands. -/
theorem trPut_of_two_puts {x x' y : Block} {s t u : State} (ht : exec (.trPut x) s = .next t) (hu : exec (.trPut x') t = .next u)
    (h : ∀ b1 d1 b2 d2, s.unitB.put s.cfg.aaLength x s.nanDraws = .ok (b1, d1) → b1.put s.cfg.aaLength x' d1 = .ok (b2, d2) →
      s.unitB.put s.cfg.aaLength y s.nanDraws = .ok (b2, d2)) :
    ∃ w, exec (.trPut y) s = .next w ∧ w.unitB = u.unitB ∧ w.nanDraws = u.nanDraws := by
  obtain ⟨b1, d1, hp1, h1⟩ := trPut_eq_next ht
  obtain ⟨b2, d2, hp2, h2⟩ := trPut_eq_next hu
  rw [h1.unitB, h1.nanDraws, h1.completed.cfg] at hp2
  obtain ⟨w, hw, h3⟩ := trPut_of_put (h b1 d1 b2 d2 hp1 hp2)
  exact ⟨w, hw, h3.unitB.trans h2.unitB.symm, h3.nanDraws.trans h2.nanDraws.symm⟩

/-- Settles O53: two puts on a lane are one put of both blocks. -/
theorem callSplittingIsTransparent : Obligations.CallSplittingIsTransparent := by
  unfold Obligations.CallSplittingIsTransparent
  intro s t u
  exact ⟨fun x x' ht hu => trPut_of_two_puts ht hu fun _ _ _ _ => UnitB.put_append_fixed,
    fun x x' ht hu => trPut_of_two_puts ht hu fun _ _ _ _ => UnitB.put_append_float⟩

/-! ### Frames held back -/

/-- A filtered put on a lane that holds at most `L` frames leaves `min m L` of the `m` frames it finds and is brought (R167). -/
theorem Lane.put_held {σ π : Type} (k : Kernel σ π) {ch : Channels} {L : Nat} {up : Bool} {x : List (List σ)} {lane lane' : Lane σ π} {draws d : Nat}
    (hheld : lane.store.length ≤ L) (h : lane.put k ch L true up x draws = some (lane', d)) :
    ∃ m, lane'.store.length = min m L ∧ lane.store.length ≤ m ∧ (up = false → m = lane.store.length + x.length) ∧
      (up = true → ∃ r, lane.transpose k ch x draws = some r ∧ m = lane.store.length + r.frames.length) := by
  by_cases hx : x = []
  · subst hx
    cases h
    exact ⟨lane.store.length, by omega, le_rfl, fun _ => rfl, fun _ => ⟨_, (Lane.transpose_eq_some k).mpr ⟨_, transposeFrom_nil .., rfl⟩, rfl⟩⟩
  · cases up with
    | true =>
      obtain ⟨r, hr, -, rfl⟩ := Lane.put_upsample k hx h
      refine ⟨lane.store.length + r.frames.length, ?_, by omega, nofun, fun _ => ⟨r, hr, rfl⟩⟩
      simp only [List.length_drop, List.length_append]
      omega
    | false =>
      obtain ⟨r, hr, -, rfl⟩ := Lane.put_downsample k hx h
      refine ⟨lane.store.length + x.length, ?_, by omega, fun _ => rfl, nofun⟩
      simp only [List.length_drop, List.length_append]
      omega

/-- The frames a filtered put finds in `store` and is brought, on the path the rate chooses, and what it leaves of them. -/
theorem trPut_held {x : Block} {s t : State} (hs : s.Inv) (haa : s.unitB.aaEnable = true) (h : exec (.trPut x) s = .next t) :
    ∃ m, t.unitB.datapath.storeLength = min m s.cfg.aaLength ∧ s.unitB.datapath.storeLength ≤ m ∧
      (s.unitB.upsamples = false → m = s.unitB.datapath.storeLength + x.length) ∧
      (s.unitB.upsamples = true →
        (∀ step lane frames, s.unitB.datapath = .fixed step lane → x = .i16 frames →
          ∃ r, lane.transpose (fixedKernel step s.unitB.cutoff) s.unitB.channels frames s.nanDraws = some r ∧ m = lane.store.length + r.frames.length) ∧
        (∀ lane frames, s.unitB.datapath = .float lane → x = .f32 frames →
          ∃ r, lane.transpose (floatKernel s.unitB.rate s.unitB.cutoff) s.unitB.channels frames s.nanDraws = some r ∧
            m = lane.store.length + r.frames.length)) := by
  have hbuf := hs.unitB.buffers
  obtain ⟨b, d, hp, ht⟩ := trPut_eq_next h
  rw [ht.unitB]
  obtain ⟨-, ⟨step, lane, lane', frames, hd, rfl, rfl, hl⟩ | ⟨lane, lane', frames, hd, rfl, rfl, hl⟩⟩ := UnitB.put_eq_ok hp
  · rw [hd] at hbuf ⊢
    rw [haa] at hl
    obtain ⟨m, hm, hle, hdown, hup⟩ := Lane.put_held _ hbuf.held hl
    refine ⟨m, hm, hle, hdown, fun h => ⟨fun step' l f hd' hx => ?_, nofun⟩⟩
    cases hd'
    cases hx
    exact hup h
  · rw [hd] at hbuf ⊢
    rw [haa] at hl
    obtain ⟨m, hm, hle, hdown, hup⟩ := Lane.put_held _ hbuf.held hl
    refine ⟨m, hm, hle, hdown, fun h => ⟨nofun, fun l f hd' hx => ?_⟩⟩
    cases hd'
    cases hx
    exact hup h

/-- The invariant bounds the frames held (R168(b)). -/
theorem Datapath.BufferInv.storeLength_le {L : Nat} {ch : Channels} {d : Datapath} (h : d.BufferInv L ch) : d.storeLength ≤ L := by
  cases d with
  | fixed step lane => exact Lane.Inv.held h
  | float lane => exact Lane.Inv.held h

/-- Settles O54, by the count of frames on the path the rate chooses. -/
theorem filteredPutHoldsBackFrames : Obligations.FilteredPutHoldsBackFrames := by
  unfold Obligations.FilteredPutHoldsBackFrames
  intro x s t hs haa h
  have hfin := f32Finite_of_rateAdmitted hs.unitB.rate
  have hheld := hs.unitB.buffers.storeLength_le
  obtain ⟨m, hm, hle, hdown, hup⟩ := trPut_held hs haa h
  refine ⟨⟨m, hm, fun h1 => hdown (UnitB.upsamples_eq_false hfin h1), fun h1 => hup ((UnitB.upsamples_iff_of_finite hfin).mpr h1)⟩, by omega, by omega,
    fun h0 => ?_⟩
  obtain ⟨u, hu, hcomp⟩ := trIsempty_of_nonempty (s := t) (.inr (by omega))
  exact ⟨u, hu, hcomp.completed⟩

/-! ### Rate 1.0 -/

/-- At slope 0 an emission is its left sample (R161). -/
theorem interpFixed_zero (a b : I16) : interpFixed 0 a b = a := by
  refine BitVec.eq_of_toInt_eq ?_
  rw [toInt_interpFixed (Nat.zero_le _)]
  simp

/-- At slope 65536 an emission is its right sample (R161). -/
theorem interpFixed_one (a b : I16) : interpFixed 65536 a b = b := by
  refine BitVec.eq_of_toInt_eq ?_
  rw [toInt_interpFixed le_rfl]
  simp

section
variable {left right : List I16} (cutoff : F32)

theorem emitFrame_slope_zero (step draws : Nat) (h : left.length = right.length) : emitFrame (fixedKernel step cutoff) 0 left right draws = (left, draws) := by
  rw [emitFrame_fixed]
  congr 1
  exact List.ext_getElem (by simp [h]) fun i _ _ => by simp [interpFixed_zero]

theorem emitFrame_slope_one (step draws : Nat) (h : left.length = right.length) :
    emitFrame (fixedKernel step cutoff) 65536 left right draws = (right, draws) := by
  rw [emitFrame_fixed]
  congr 1
  exact List.ext_getElem (by simp [h]) fun i _ _ => by simp [interpFixed_one]

/-- From slope 65536 a run at rate 1.0 emits the right frame. -/
theorem emitRun_unit {fuel : Nat} (hf : 2 ≤ fuel) (draws : Nat) (h : left.length = right.length) :
    emitRun (fixedKernel 65536 cutoff) left right fuel 65536 draws = some ⟨131072, draws, [right]⟩ := by
  obtain ⟨n, rfl⟩ := Nat.exists_eq_add_of_le' hf
  have hend : emitRun (fixedKernel 65536 cutoff) left right (n + 1) 131072 draws = some ⟨131072, draws, []⟩ :=
    (emitRun_succ_eq_some _).mpr (.inl ⟨rfl, rfl⟩)
  refine (emitRun_succ_eq_some _).mpr (.inr ⟨rfl, ?_⟩)
  rw [emitFrame_slope_one cutoff _ _ h]
  exact ⟨_, hend, rfl⟩

/-- From slope 0 a run at rate 1.0 emits the left frame and then the right one. -/
theorem emitRun_unit_zero {fuel : Nat} (hf : 3 ≤ fuel) (draws : Nat) (h : left.length = right.length) :
    emitRun (fixedKernel 65536 cutoff) left right fuel 0 draws = some ⟨131072, draws, [left, right]⟩ := by
  obtain ⟨n, rfl⟩ := Nat.exists_eq_add_of_le' hf
  refine (emitRun_succ_eq_some _).mpr (.inr ⟨rfl, ?_⟩)
  rw [emitFrame_slope_zero cutoff _ _ h]
  exact ⟨_, emitRun_unit cutoff (by omega) draws h, rfl⟩

theorem fixedKernel_wrap_two : (fixedKernel 65536 cutoff).wrap 131072 = 65536 := by norm_num [fixedKernel]

/-- The transposition at rate 1.0 goes on from slope 65536 after each source frame. -/
theorem transposeFrom_unit_cons {x frames : List (List I16)} {slope draws : Nat}
    (h : emitRun (fixedKernel 65536 cutoff) left right emitFuel slope draws = some ⟨131072, draws, frames⟩)
    (hrest : transposeFrom (fixedKernel 65536 cutoff) right x 65536 draws = some ⟨65536, draws, x⟩) :
    transposeFrom (fixedKernel 65536 cutoff) left (right :: x) slope draws = some ⟨65536, draws, frames ++ x⟩ := by
  refine (transposeFrom_cons_eq_some _).mpr ⟨_, ⟨65536, draws, x⟩, h, ?_, rfl⟩
  simp only [fixedKernel_wrap_two]
  exact hrest

/-- From slope 65536 a transposition at rate 1.0 is a copy. -/
theorem transposeFrom_unit {w : Nat} {x : List (List I16)} (draws : Nat) (hl : left.length = w) (hx : framesHaveWidth w x) :
    transposeFrom (fixedKernel 65536 cutoff) left x 65536 draws = some ⟨65536, draws, x⟩ := by
  induction x generalizing left with
  | nil => exact transposeFrom_nil ..
  | cons right x ih =>
    have hr : right.length = w := hx right (List.mem_cons_self ..)
    have hrest := ih hr fun f hf => hx f (List.mem_cons_of_mem _ hf)
    exact transposeFrom_unit_cons cutoff (emitRun_unit cutoff (by decide) draws (hl.trans hr.symm)) hrest

/-- From slope 0 a transposition of some frames at rate 1.0 is the frame before them and a copy (R168(d)). -/
theorem transposeFrom_unit_zero {w : Nat} {x : List (List I16)} (draws : Nat) (hl : left.length = w) (hx : framesHaveWidth w x) (hne : x ≠ []) :
    transposeFrom (fixedKernel 65536 cutoff) left x 0 draws = some ⟨65536, draws, left :: x⟩ := by
  cases x with
  | nil => exact absurd rfl hne
  | cons right x =>
    have hr : right.length = w := hx right (List.mem_cons_self ..)
    have hrest := transposeFrom_unit cutoff draws hr fun f hf => hx f (List.mem_cons_of_mem _ hf)
    exact transposeFrom_unit_cons cutoff (emitRun_unit_zero cutoff (by decide) draws (hl.trans hr.symm)) hrest

end

theorem Lane.prevFrame_reset (ch : Channels) : (Lane.reset 0#16 0 : Lane I16 Nat).prevFrame ch = List.replicate ch.count 0#16 := by
  cases ch <;> rfl

/-- The transposition at rate 1.0 on a reset lane. -/
theorem Lane.transpose_unit_reset (cutoff : F32) {ch : Channels} {x : List (List I16)} (draws : Nat) (hx : framesHaveWidth ch.count x) (hne : x ≠ []) :
    ∃ r, (Lane.reset 0#16 0).transpose (fixedKernel 65536 cutoff) ch x draws = some r ∧ r.frames = List.replicate ch.count 0#16 :: x := by
  have hrun := transposeFrom_unit_zero cutoff draws (Lane.prevFrame_length (Lane.reset 0#16 0 : Lane I16 Nat) ch) hx hne
  exact ⟨_, (Lane.transpose_eq_some _).mpr ⟨_, hrun, rfl⟩, by rw [Lane.prevFrame_reset]⟩

/-- Settles O55: from slope 0 the transposition at rate 1.0 is the zero frame before the block and a copy. -/
theorem unitRateIsADelayedCopy : Obligations.UnitRateIsADelayedCopy := by
  unfold Obligations.UnitRateIsADelayedCopy
  intro ch x s hs hne hx
  have hd : s.unitB.datapath = .fixed 65536 (Lane.reset 0#16 0) := by rw [hs]; rfl
  have hch : s.unitB.channels = ch := by rw [hs]
  have haa : s.unitB.aaEnable = false := by rw [hs]
  obtain ⟨r, hr, hframes⟩ := Lane.transpose_unit_reset s.unitB.cutoff s.nanDraws hx hne
  obtain ⟨-, -, hout⟩ := Lane.transpose_frame _ hr
  rw [← hch] at hx hr
  have hput := (Lane.put_eq_some _ (L := s.cfg.aaLength) (up := s.unitB.upsamples)).mpr (.inr (.inl ⟨hne, haa, r, hr, rfl, rfl⟩))
  obtain ⟨t, ht, h⟩ := trPut_of_put (UnitB.put_fixed hd hx hput)
  refine ⟨t, ht, ?_⟩
  have hlast : r.lane.output ++ r.frames = List.replicate ch.count 0#16 :: x := by rw [hout, hframes]; rfl
  rw [h.unitB]
  simp only [Datapath.takeOutput, Datapath.outputLength, hlast]
  exact ⟨congrArg Block.i16 (List.take_of_length_le (by simp)), rfl⟩

end Sys2Proof.Machine
end

section
/-! PROOFS. The events of every completed command: which interrupt requests it makes, in what order, and when it notifies the scheduler (40_fifo.md R114, R123, R134;
60_exceptions.md R200 to R206): O24 to O27. -/

namespace Sys2Proof.Machine
open Sys2Proof

/-! ### The events of every command -/

/-- The interrupt requests of a command that takes its success path, read off the state it leaves (R114, R123, R134). -/
def requestsOf (t : State) : Instr → List Event
  | .fifoSend p _ => if Cnt.rirq (t.cnt p.peer) = true then [.irq p.peer .recvNonempty] else []
  | .fifoRecv p => if (t.queue p.peer).size = 0 ∧ Cnt.sirq (t.cnt p.peer) = true then [.irq p.peer .sendEmpty] else []
  | .fifoCnt p _ => configureIrqs p (t.cnt p)
  | _ => []

section
variable {p q : Proc} {i : Instr} {s t : State} {result : List U32} {events : List Event}

/-- A SEND on its success path leaves the appended queue. -/
theorem Sent.of_succeeds {v : U32} (h : exec (.fifoSend p v) s = .next t) (hs : Succeeds s (.fifoSend p v)) : Sent p v s t := by
  obtain ⟨u, hu, hsent⟩ := fifoSend_sent v (execFifoSend_eq_next h).1 hs
  cases h.symm.trans hu
  exact hsent

/-- A RECV on its success path leaves the peer's queue without its front word. -/
theorem Received.of_succeeds (h : exec (.fifoRecv p) s = .next t) (hs : Succeeds s (.fifoRecv p)) : Received p s t := by
  obtain ⟨u, hu, hrecv⟩ := fifoRecv_received (execFifoRecv_eq_next h).1 hs
  cases h.symm.trans hu
  exact hrecv

/-- The request of a SEND tests RIRQ of the receiver, which the SEND keeps. -/
theorem Sent.completed_requestsOf {v : U32} (h : Sent p v s t) : Completed s t [] (requestsOf t (.fifoSend p v) ++ [.resched]) := by
  rw [requestsOf, h.cnt_peer, Cnt.rirq_afterSendRemote]
  exact h.completed

/-- The request of a RECV tests SIRQ of the sender, which the RECV keeps, and the queue it leaves. -/
theorem Received.completed_requestsOf (h : Received p s t) :
    Completed s t [(s.queue p.peer).front] (requestsOf t (.fifoRecv p) ++ [.resched]) := by
  rw [requestsOf, h.cnt_peer, Cnt.sirq_afterRecvRemote, h.queue_peer]
  simpa only [Queue.isEmpty, Bool.and_eq_true, decide_eq_true_eq] using h.completed

theorem Configured.completed_requestsOf {v : U16} (h : Configured p v s t) : Completed s t [] (requestsOf t (.fifoCnt p v) ++ [.resched]) := by
  rw [requestsOf, h.cnt]
  exact h.completed

/-- On its success path a command makes its requests and then notifies. -/
theorem events_of_succeeds (h : exec i s = .next t) (hc : Completed s t result events) (hs : Succeeds s i) : events = requestsOf t i ++ [.resched] := by
  cases i with
  | fifoSend p v => exact (hc.unique (Sent.of_succeeds h hs).completed_requestsOf).2
  | fifoRecv p => exact (hc.unique (Received.of_succeeds h hs).completed_requestsOf).2
  | fifoCnt p v => exact (hc.unique (fifoCnt_eq_next h).completed_requestsOf).2
  | fifoInit | fifoRdcnt | trReset | trSetrate | trSetch | trSetaa | trPut | trReceive | trClear | trIsempty => exact hs.elim

/-- On every other path a completed command emits nothing. -/
theorem events_of_not_succeeds (h : exec i s = .next t) (hc : Completed s t result events) (hs : ¬ Succeeds s i) : events = [] := by
  cases i with
  | fifoInit p =>
    obtain ⟨-, -, -, hinit⟩ := fifoInit_eq_next h
    exact (hc.unique hinit).2
  | fifoSend p v =>
    obtain hall | ⟨-, -, herr⟩ | ⟨hs', -⟩ := fifoSend_eq_next h
    · exact (hc.unique hall.completed).2
    · exact (hc.unique herr.completed).2
    · exact absurd hs' hs
  | fifoRecv p =>
    obtain hall | ⟨-, -, herr⟩ | ⟨hs', -⟩ := fifoRecv_eq_next h
    · exact (hc.unique hall.completed).2
    · exact (hc.unique herr.completed).2
    · exact absurd hs' hs
  | fifoCnt p v => exact absurd trivial hs
  | fifoRdcnt p =>
    have hall : LeavesAll p [cntWord (s.cnt p)] s t := .of_ok_same (execFifoRdcnt_eq_next h).2
    exact (hc.unique hall.completed).2
  | trReset | trSetrate | trSetch | trSetaa | trPut | trReceive | trClear | trIsempty =>
    obtain ⟨b, d, r, rfl, -⟩ := exec_unitB_eq_next rfl h
    exact (hc.unique (completed_complete r [] rfl rfl rfl rfl rfl rfl rfl)).2

/-- A request is among the events of a completed command exactly when the command succeeds and makes it. -/
theorem irq_mem_events_iff {k : IrqKind} (h : exec i s = .next t) (hc : Completed s t result events) :
    Event.irq q k ∈ events ↔ Succeeds s i ∧ Event.irq q k ∈ requestsOf t i := by
  by_cases hs : Succeeds s i
  · simp [events_of_succeeds h hc hs, hs]
  · simp [events_of_not_succeeds h hc hs, hs]

/-- A RECV that changes the size of its peer's queue succeeds. -/
theorem fifoRecv_succeeds_of_size_ne (h : exec (.fifoRecv p) s = .next t) (hne : (t.queue p.peer).size ≠ (s.queue p.peer).size) :
    Succeeds s (.fifoRecv p) := by
  obtain hall | ⟨-, -, herr⟩ | ⟨hs, -⟩ := fifoRecv_eq_next h
  · exact absurd (congrArg Queue.size hall.queue_peer) hne
  · exact absurd (congrArg Queue.size herr.queue_peer) hne
  · exact hs

end

/-! ### The requests -/

/-- The commands that request SEND_EMPTY for `q`. -/
theorem sendEmpty_mem_requestsOf_iff (q : Proc) (t : State) (i : Instr) :
    Event.irq q .sendEmpty ∈ requestsOf t i ↔
      (i = .fifoRecv q.peer ∧ (t.queue q).size = 0 ∧ Cnt.sirq (t.cnt q) = true) ∨
      (∃ v, i = .fifoCnt q v ∧ Cnt.sirq (t.cnt q) = true ∧ Cnt.sempty (t.cnt q) = true) := by
  cases i with
  | fifoRecv p =>
    rcases eq_or_eq_peer p q with rfl | rfl
    · simp [requestsOf]
    · simp [requestsOf]
  | fifoCnt p v =>
    by_cases hq : q = p
    · subst hq
      simp [requestsOf, configureIrqs_eq]
    · simp [requestsOf, configureIrqs_eq, hq, Ne.symm hq]
  | fifoSend p v => simp [requestsOf]
  | fifoInit | fifoRdcnt | trReset | trSetrate | trSetch | trSetaa | trPut | trReceive | trClear | trIsempty => simp [requestsOf]

/-- The commands that request RECV_NONEMPTY for `q`. -/
theorem recvNonempty_mem_requestsOf_iff (q : Proc) (t : State) (i : Instr) :
    Event.irq q .recvNonempty ∈ requestsOf t i ↔
      (∃ v, i = .fifoSend q.peer v ∧ Cnt.rirq (t.cnt q) = true) ∨
      (∃ v, i = .fifoCnt q v ∧ Cnt.rirq (t.cnt q) = true ∧ Cnt.rempty (t.cnt q) = false) := by
  cases i with
  | fifoSend p v =>
    rcases eq_or_eq_peer p q with rfl | rfl
    · simp [requestsOf]
    · simp [requestsOf]
  | fifoCnt p v =>
    by_cases hq : q = p
    · subst hq
      simp [requestsOf, configureIrqs_eq]
    · simp [requestsOf, configureIrqs_eq, hq, Ne.symm hq]
  | fifoRecv p => simp [requestsOf]
  | fifoInit | fifoRdcnt | trReset | trSetrate | trSetch | trSetaa | trPut | trReceive | trClear | trIsempty => simp [requestsOf]

/-- Settles O24: the requests are made on the success path, and a RECV that empties a queue which held a word is on it. -/
theorem sendEmptyHasExactlyTwoSources : Obligations.SendEmptyHasExactlyTwoSources := by
  unfold Obligations.SendEmptyHasExactlyTwoSources
  intro q i s t result events h hc
  rw [irq_mem_events_iff h hc, sendEmpty_mem_requestsOf_iff]
  constructor
  · rintro ⟨hs, ⟨rfl, hempty, hirq⟩ | hcnt⟩
    · obtain ⟨-, hsize⟩ := hs
      rw [peer_peer] at hsize
      exact .inl ⟨rfl, hsize, hempty, hirq⟩
    · exact .inr hcnt
  · rintro (⟨rfl, hsize, hempty, hirq⟩ | ⟨v, rfl, hlevel⟩)
    · exact ⟨fifoRecv_succeeds_of_size_ne h (by rw [peer_peer, hempty]; exact hsize.symm), .inl ⟨rfl, hempty, hirq⟩⟩
    · exact ⟨trivial, .inr ⟨v, rfl, hlevel⟩⟩

/-- Settles O25: the requests are made on the success path, which every CNT takes. -/
theorem recvNonemptyHasExactlyTwoSources : Obligations.RecvNonemptyHasExactlyTwoSources := by
  unfold Obligations.RecvNonemptyHasExactlyTwoSources
  intro q i s t result events h hc
  rw [irq_mem_events_iff h hc, recvNonempty_mem_requestsOf_iff]
  constructor
  · rintro ⟨hs, ⟨v, hi, hirq⟩ | hcnt⟩
    · exact .inl ⟨v, hi, hs, hirq⟩
    · exact .inr hcnt
  · rintro (⟨v, hi, hs, hirq⟩ | ⟨v, rfl, hlevel⟩)
    · exact ⟨hs, .inl ⟨v, hi, hirq⟩⟩
    · exact ⟨trivial, .inr ⟨v, rfl, hlevel⟩⟩

/-! ### The notification and the order -/

section
variable (p : Proc) (t : State)

theorem ite_singleton_sublist (c : Prop) [Decidable c] (e : Event) : (if c then [e] else []).Sublist [e] := by
  split
  · exact .refl _
  · exact List.nil_sublist _

theorem requestsOf_fifoSend_sublist (v : U32) : (requestsOf t (.fifoSend p v)).Sublist [.irq p.peer .recvNonempty] := ite_singleton_sublist ..

theorem requestsOf_fifoRecv_sublist : (requestsOf t (.fifoRecv p)).Sublist [.irq p.peer .sendEmpty] := ite_singleton_sublist ..

/-- CNT tests SEND_EMPTY before RECV_NONEMPTY (R134). -/
theorem requestsOf_fifoCnt_sublist (v : U16) : (requestsOf t (.fifoCnt p v)).Sublist [.irq p .sendEmpty, .irq p .recvNonempty] :=
  (ite_singleton_sublist ..).append (ite_singleton_sublist ..)

/-- No request is a notification. -/
theorem resched_not_mem_requestsOf (i : Instr) : Event.resched ∉ requestsOf t i := by
  cases i with
  | fifoSend p v => exact fun h => by simpa using (requestsOf_fifoSend_sublist p t v).subset h
  | fifoRecv p => exact fun h => by simpa using (requestsOf_fifoRecv_sublist p t).subset h
  | fifoCnt p v => exact fun h => by simpa using (requestsOf_fifoCnt_sublist p t v).subset h
  | fifoInit | fifoRdcnt | trReset | trSetrate | trSetch | trSetaa | trPut | trReceive | trClear | trIsempty => exact List.not_mem_nil

end

/-- Settles O26: a success path makes its requests and then notifies, and every other path emits nothing. -/
theorem reschedIsLastAndOnlyOnSuccess : Obligations.ReschedIsLastAndOnlyOnSuccess := by
  unfold Obligations.ReschedIsLastAndOnlyOnSuccess
  intro i s t result events h hc
  exact ⟨fun hs => ⟨_, events_of_succeeds h hc hs, resched_not_mem_requestsOf t i⟩, events_of_not_succeeds h hc⟩

/-- A completed command's events are a part of a list that ends with the notification when its requests are a part of what comes before. -/
theorem events_sublist {i : Instr} {s t : State} {result : List U32} {events irqs : List Event} (h : exec i s = .next t)
    (hc : Completed s t result events) (hirqs : (requestsOf t i).Sublist irqs) : events.Sublist (irqs ++ [.resched]) := by
  by_cases hs : Succeeds s i
  · rw [events_of_succeeds h hc hs]
    exact hirqs.append_right _
  · rw [events_of_not_succeeds h hc hs]
    exact List.nil_sublist _

/-- Settles O27: each command's requests are a part of the stated ones, in their order. -/
theorem requestsComeInTheStatedOrder : Obligations.RequestsComeInTheStatedOrder := by
  unfold Obligations.RequestsComeInTheStatedOrder
  intro i s t result events h hc
  refine ⟨?cnt, ?send, ?recv, fun hcnt hsend hrecv => ?other⟩
  case cnt =>
    rintro p v rfl
    exact events_sublist h hc (requestsOf_fifoCnt_sublist p t v)
  case send =>
    rintro p v rfl
    exact events_sublist h hc (requestsOf_fifoSend_sublist p t v)
  case recv =>
    rintro p rfl
    exact events_sublist h hc (requestsOf_fifoRecv_sublist p t)
  case other =>
    refine events_of_not_succeeds h hc fun hs => ?_
    cases i with
    | fifoSend p v => exact hsend p v rfl
    | fifoRecv p => exact hrecv p rfl
    | fifoCnt p v => exact hcnt p v rfl
    | fifoInit | fifoRdcnt | trReset | trSetrate | trSetch | trSetaa | trPut | trReceive | trClear | trIsempty => exact hs

end Sys2Proof.Machine
end

section
/-! PROOFS. When a command faults, why it is refused, and that a stop ends the run (10_state.md R42; 40_fifo.md R109; 41_transposer.md R143, R144, R153; 60_exceptions.md R194
to R196): O8 and O9. -/

namespace Sys2Proof.Machine
open Sys2Proof

/-! ### Faults and refusals of unit A -/

section
variable {p : Proc} {i : Instr} {s : State}

/-- Before both FIFO.INITs every other command of unit A faults (R109). -/
theorem exec_unitA_of_not_ready (hp : i.proc? = some p) (hi : i ≠ .fifoInit p) (hr : s.unitA.ready = false) : exec i s = .fault (.uninit p) := by
  cases i with
  | trReset | trSetrate | trSetch | trSetaa | trPut | trReceive | trClear | trIsempty => cases hp
  | fifoInit q =>
    cases hp
    exact absurd rfl hi
  | fifoSend | fifoRecv | fifoCnt | fifoRdcnt =>
    cases hp
    exact whenReady_of_not_ready hr

theorem exists_fifoSend_next (p : Proc) (v : U32) (hr : s.unitA.ready = true) : ∃ t, exec (.fifoSend p v) s = .next t := by
  cases he : Cnt.enable (s.cnt p) with
  | false => exact ⟨_, execFifoSend_disabled hr he⟩
  | true =>
    rcases Nat.lt_or_ge 15 (s.queue p).size with hs | hs
    · exact ⟨_, execFifoSend_full hr he hs⟩
    · exact ⟨_, execFifoSend_append hr he hs⟩

theorem exists_fifoRecv_next (p : Proc) (hr : s.unitA.ready = true) : ∃ t, exec (.fifoRecv p) s = .next t := by
  cases he : Cnt.enable (s.cnt p) with
  | false => exact ⟨_, execFifoRecv_disabled hr he⟩
  | true =>
    by_cases hs : (s.queue p.peer).size = 0
    · exact ⟨_, execFifoRecv_empty hr he hs⟩
    · exact ⟨_, execFifoRecv_take hr he hs⟩

/-- FIFO.INIT, and after both FIFO.INITs every command of unit A, completes (R109, R190). -/
theorem exists_unitA_next (hp : i.proc? = some p) (h : i = .fifoInit p ∨ s.unitA.ready = true) : ∃ t, exec i s = .next t := by
  rcases h with rfl | hr
  · exact ⟨_, rfl⟩
  · cases i with
    | trReset | trSetrate | trSetch | trSetaa | trPut | trReceive | trClear | trIsempty => cases hp
    | fifoInit q => exact ⟨_, rfl⟩
    | fifoSend q v => exact exists_fifoSend_next q v hr
    | fifoRecv q => exact exists_fifoRecv_next q hr
    | fifoCnt q v =>
      obtain ⟨t, ht, -⟩ := fifoCnt_configured q v hr
      exact ⟨t, ht⟩
    | fifoRdcnt q => exact ⟨_, fifoRdcnt_of_ready q hr⟩

/-- How a command of unit A ends: in the UNINIT fault, or completed. -/
theorem exec_unitA_fault_or_next (s : State) (hp : i.proc? = some p) :
    (i ≠ .fifoInit p ∧ s.unitA.ready = false ∧ exec i s = .fault (.uninit p)) ∨
    ((i = .fifoInit p ∨ s.unitA.ready = true) ∧ ∃ t, exec i s = .next t) := by
  by_cases h : i = .fifoInit p ∨ s.unitA.ready = true
  · exact .inr ⟨h, exists_unitA_next hp h⟩
  · obtain ⟨hi, hr⟩ := not_or.mp h
    rw [Bool.not_eq_true] at hr
    exact .inl ⟨hi, hr, exec_unitA_of_not_ready hp hi hr⟩

theorem exec_unitA_eq_fault_iff {f : Fault} (hp : i.proc? = some p) :
    exec i s = .fault f ↔ i ≠ .fifoInit p ∧ s.unitA.ready = false ∧ f = .uninit p := by
  obtain ⟨hi, hr, he⟩ | ⟨h, t, ht⟩ := exec_unitA_fault_or_next s hp
  · simp [he, hi, hr, eq_comm]
  · rw [ht]
    refine ⟨nofun, fun ⟨hi, hr, _⟩ => ?_⟩
    rcases h with h | h
    · exact absurd h hi
    · simp [hr] at h

theorem exec_unitA_ne_refused (hp : i.proc? = some p) (r : Refusal) : exec i s ≠ .refused r := by
  obtain ⟨-, -, he⟩ | ⟨-, t, ht⟩ := exec_unitA_fault_or_next s hp
  · rw [he]
    exact nofun
  · rw [ht]
    exact nofun

end

/-! ### Faults and refusals of unit B -/

section
variable {n : U32} {i : Instr} {s : State}

theorem channelsOf_eq_none_iff (n : U32) : channelsOf n = none ↔ n ≠ 1#32 ∧ n ≠ 2#32 := by
  rw [channelsOf]
  split_ifs with h1 h2
  · simp [h1]
  · simp [h2]
  · simp [h1, h2]

/-- `TR.SETCH` with a count of 1 or 2 completes or is refused (R144, R153). -/
theorem execTrSetch_some {ch : Channels} (h : channelsOf n = some ch) :
    (∃ t, exec (.trSetch n) s = .next t) ∨ exec (.trSetch n) s = .refused .channelChangeNonempty := by
  by_cases hch : ch = s.unitB.channels
  · exact .inl ⟨_, execTrSetch_same (hch ▸ h)⟩
  · by_cases hb : s.unitB.datapath.storeLength ≠ 0 ∨ s.unitB.datapath.outputLength ≠ 0
    · exact .inr (execTrSetch_held h hch hb)
    · obtain ⟨hs, ho⟩ : s.unitB.datapath.storeLength = 0 ∧ s.unitB.datapath.outputLength = 0 := by omega
      exact .inl ⟨_, execTrSetch_change h hch hs ho⟩

theorem execTrSetch_eq_fault_iff {f : Fault} : exec (.trSetch n) s = .fault f ↔ n ≠ 1#32 ∧ n ≠ 2#32 ∧ f = .channels n := by
  rw [← and_assoc, ← channelsOf_eq_none_iff]
  cases hc : channelsOf n with
  | none => simp [execTrSetch_none hc, eq_comm]
  | some ch =>
    obtain ⟨t, h⟩ | h := execTrSetch_some (s := s) hc
    · simp [h]
    · simp [h]

theorem execTrSetch_eq_refused {r : Refusal} (h : exec (.trSetch n) s = .refused r) : r = .channelChangeNonempty := by
  cases hc : channelsOf n with
  | none => cases (execTrSetch_none hc).symm.trans h
  | some ch =>
    obtain ⟨t, he⟩ | he := execTrSetch_some (s := s) hc
    · cases he.symm.trans h
    · cases he.symm.trans h
      rfl

theorem execTrSetrate_not_admitted {v : F32} (h : ¬ rateAdmitted v = true) : exec (.trSetrate v) s = .refused (.rateRange v) := if_neg h

theorem execTrSetrate_eq_refused {v : F32} {r : Refusal} (h : exec (.trSetrate v) s = .refused r) : r = .rateRange v := by
  by_cases hv : rateAdmitted v = true
  · cases (execTrSetrate_admitted hv s).symm.trans h
  · cases (execTrSetrate_not_admitted hv).symm.trans h
    rfl

/-- Why a put on unit B is refused: its frames are not of the unit's sample type and width (log 12), or the interpolation of frames that are does not end (log 13). -/
theorem UnitB.put_eq_error {L : Nat} {x : Block} {b : UnitB} {draws : Nat} {r : Refusal} (h : b.put L x draws = .error r) :
    (r = .illFormedPut ∧ ¬ (x.variant = b.datapath.variant ∧ x.framesHave b.channels.count = true)) ∨
    (r = .transposeDiverges ∧ x.variant = b.datapath.variant ∧ x.framesHave b.channels.count = true) := by
  unfold UnitB.put at h
  split at h
  case isTrue hw =>
    cases h
    exact .inl ⟨rfl, by simp [hw]⟩
  case isFalse hw =>
    rw [Bool.not_eq_false] at hw
    split at h
    case h_1 hd =>
      split at h
      · cases h
        exact .inr ⟨rfl, by rw [hd]; rfl, hw⟩
      · cases h
    case h_2 hd =>
      split at h
      · cases h
        exact .inr ⟨rfl, by rw [hd]; rfl, hw⟩
      · cases h
    case h_3 hd =>
      cases h
      exact .inl ⟨rfl, by simp [hd, Block.variant, Datapath.variant]⟩
    case h_4 hd =>
      cases h
      exact .inl ⟨rfl, by simp [hd, Block.variant, Datapath.variant]⟩

theorem execTrPut_of_error {x : Block} {r : Refusal} (h : s.unitB.put s.cfg.aaLength x s.nanDraws = .error r) : exec (.trPut x) s = .refused r := by
  show execTrPut x s = _
  rw [execTrPut, h]

theorem execTrPut_eq_refused {x : Block} {r : Refusal} (h : exec (.trPut x) s = .refused r) :
    s.unitB.put s.cfg.aaLength x s.nanDraws = .error r := by
  cases hp : s.unitB.put s.cfg.aaLength x s.nanDraws with
  | error r' =>
    cases (execTrPut_of_error hp).symm.trans h
    rfl
  | ok v =>
    obtain ⟨t, ht, -⟩ := trPut_of_put hp
    cases ht.symm.trans h

/-- A refused put is of an ill-formed block, or of a state outside the invariant, where alone an interpolation may not end (R163, R164). -/
theorem execTrPut_refused_cases {x : Block} {r : Refusal} (h : exec (.trPut x) s = .refused r) :
    (x.wellFormed s.format = false ∧ r = .illFormedPut) ∨ (¬ s.Inv ∧ r = .transposeDiverges) := by
  have hput := execTrPut_eq_refused h
  obtain ⟨hr, hx⟩ | ⟨hr, hv, hw⟩ := UnitB.put_eq_error hput
  · refine .inl ⟨Bool.eq_false_iff.mpr fun hwf => hx ?_, hr⟩
    obtain ⟨hv, hw, -⟩ := (Block.wellFormed_iff _ _).mp hwf
    exact ⟨hv, hw⟩
  · refine .inr ⟨fun hinv => ?_, hr⟩
    obtain ⟨b, d, hok⟩ := hinv.unitB.exists_put hv hw s.nanDraws
    cases hok.symm.trans hput

/-- The only fault of unit B is that of `TR.SETCH` (R193). -/
theorem exec_unitB_ne_fault (hi : i.proc? = none) (hn : ∀ n, i ≠ .trSetch n) (f : Fault) : exec i s ≠ .fault f := by
  intro h
  cases i with
  | fifoInit | fifoSend | fifoRecv | fifoCnt | fifoRdcnt => cases hi
  | trSetch n => exact hn n rfl
  | trSetrate v =>
    by_cases hv : rateAdmitted v = true
    · cases (execTrSetrate_admitted hv s).symm.trans h
    · cases (execTrSetrate_not_admitted hv).symm.trans h
  | trPut x =>
    cases hp : s.unitB.put s.cfg.aaLength x s.nanDraws with
    | error r => cases (execTrPut_of_error hp).symm.trans h
    | ok v =>
      obtain ⟨t, ht, -⟩ := trPut_of_put hp
      cases ht.symm.trans h
  | trReset | trSetaa | trReceive | trClear | trIsempty => cases h

end

/-- Exactly when a command faults (R194). -/
theorem exec_eq_fault_iff (i : Instr) (s : State) (f : Fault) : exec i s = .fault f ↔
    (∃ p, i.proc? = some p ∧ i ≠ .fifoInit p ∧ s.unitA.ready = false ∧ f = .uninit p) ∨
    (∃ n, i = .trSetch n ∧ n ≠ 1#32 ∧ n ≠ 2#32 ∧ f = .channels n) := by
  cases hp : i.proc? with
  | some p =>
    have hn : ∀ n, i ≠ .trSetch n := by
      rintro n rfl
      cases hp
    simp [exec_unitA_eq_fault_iff hp, hn]
  | none =>
    by_cases hn : ∃ n, i = .trSetch n
    · obtain ⟨n, rfl⟩ := hn
      simp [execTrSetch_eq_fault_iff]
    · have hn : ∀ n, i ≠ .trSetch n := not_exists.mp hn
      simp [exec_unitB_ne_fault hp hn, hn]

/-- The reasons a command is refused for (R196). -/
theorem exec_eq_refused {i : Instr} {s : State} {r : Refusal} (h : exec i s = .refused r) :
    (∃ v, i = .trSetrate v ∧ r = .rateRange v) ∨
    ((∃ n, i = .trSetch n) ∧ r = .channelChangeNonempty) ∨
    ((∃ b, i = .trPut b ∧ b.wellFormed s.format = false) ∧ r = .illFormedPut) ∨
    ((∃ b, i = .trPut b) ∧ ¬ s.Inv ∧ r = .transposeDiverges) := by
  cases i with
  | fifoInit | fifoSend | fifoRecv | fifoCnt | fifoRdcnt => exact absurd h (exec_unitA_ne_refused rfl r)
  | trSetrate v => exact .inl ⟨v, rfl, execTrSetrate_eq_refused h⟩
  | trSetch n => exact .inr (.inl ⟨⟨n, rfl⟩, execTrSetch_eq_refused h⟩)
  | trPut x =>
    obtain ⟨hx, hr⟩ | ⟨hinv, hr⟩ := execTrPut_refused_cases h
    · exact .inr (.inr (.inl ⟨⟨x, rfl, hx⟩, hr⟩))
    · exact .inr (.inr (.inr ⟨⟨x, rfl⟩, hinv, hr⟩))
  | trReset | trSetaa | trReceive | trClear | trIsempty => cases h

/-- Settles O9, by the faults and the refusals of each unit. -/
theorem faultsAndRefusalsAreTheListedOnes : Obligations.FaultsAndRefusalsAreTheListedOnes := by
  unfold Obligations.FaultsAndRefusalsAreTheListedOnes
  exact fun i s => ⟨exec_eq_fault_iff i s, fun r => exec_eq_refused⟩

/-! ### The end of a run -/

section
variable {s : State}

theorem recordRefusal_of_ne {r : Refusal} (hr : r ≠ .noCommand) : s.recordRefusal r = { s with refusalMark := some (s.refusalMark.getD r) } := by
  unfold State.recordRefusal
  split
  · exact absurd rfl hr
  · rfl

theorem advance_of_fault {f : Fault} (h : step s = .fault f) : s.advance = s.recordFault f := by rw [State.advance, h]; rfl

theorem advance_of_refused {r : Refusal} (h : step s = .refused r) : s.advance = s.recordRefusal r := by rw [State.advance, h]; rfl

theorem step_of_faultMark {f : Fault} (h : s.faultMark = some f) : step s = .fault f := by
  unfold step
  rw [h]

theorem step_of_refusalMark {r : Refusal} (hf : s.faultMark = none) (h : s.refusalMark = some r) : step s = .refused r := by
  unfold step
  rw [hf, h]

/-- Recording the recorded fault again changes nothing. -/
theorem recordFault_of_faultMark {f : Fault} (h : s.faultMark = some f) (g : Fault) : s.recordFault g = s := by
  rw [State.recordFault, h, Option.getD_some, ← h]

/-- Recording the recorded refusal again changes nothing. -/
theorem recordRefusal_of_refusalMark {r : Refusal} (h : s.refusalMark = some r) (g : Refusal) : s.recordRefusal g = s := by
  by_cases hg : g = .noCommand
  · rw [hg]
    rfl
  · rw [recordRefusal_of_ne hg, h, Option.getD_some, ← h]

/-- A state with a stop recorded answers that stop again and so stays as it is (log 10). -/
theorem advance_of_stopped (h : s.faultMark ≠ none ∨ s.refusalMark ≠ none) : s.advance = s := by
  cases hf : s.faultMark with
  | some f => rw [advance_of_fault (step_of_faultMark hf), recordFault_of_faultMark hf]
  | none =>
    obtain ⟨r, hr⟩ := Option.ne_none_iff_exists'.mp (h.resolve_left (not_not.mpr hf))
    rw [advance_of_refused (step_of_refusalMark hf hr), recordRefusal_of_refusalMark hr]

theorem run_of_stopped (n : Nat) (h : s.faultMark ≠ none ∨ s.refusalMark ≠ none) : s.run n = s := by
  induction n with
  | zero => rfl
  | succ n ih => rw [State.run, advance_of_stopped h, ih]

theorem final_of_stopped (h : s.faultMark ≠ none ∨ s.refusalMark ≠ none) : s.final = false := by
  rcases h with h | h
  · simp [State.final, Option.isSome_iff_ne_none, h]
  · simp [State.final, Option.isSome_iff_ne_none, h]

end

/-- Settles O8: a stop writes its mark, and a state with a mark is a fixed point of the run. -/
theorem stopsAreRecordedForGood : Obligations.StopsAreRecordedForGood := by
  unfold Obligations.StopsAreRecordedForGood
  refine ⟨fun s hf hr => ⟨fun f h => ?fault, fun r h hne => ?refused⟩, fun n s h => ?stopped⟩
  case fault => rw [advance_of_fault h, State.recordFault, hf, Option.getD_none]
  case refused => rw [advance_of_refused h, recordRefusal_of_ne hne, hr, Option.getD_none]
  case stopped =>
    rw [run_of_stopped n h]
    exact ⟨rfl, final_of_stopped h⟩

end Sys2Proof.Machine
end

section
/-! PROOFS. Reset and power-on, and the request a step takes (30_encoding.md R87; 60_exceptions.md R197; 70_reset_and_hazards.md R220 to R223, R233): O6, O13, O35 and O36. -/

namespace Sys2Proof.Machine
open Sys2Proof

/-! ### Words at the port -/

section
variable {fmt : PutFormat} {ws : List U32} (a : Agent)

/-- A request of words that decode asks for their command, whoever issues it (log 8). -/
theorem requestCommand_of_decode_ok {i : Instr} (h : decode fmt ws = .ok i) : requestCommand fmt (.command a ws) = .ok i := by
  rw [requestCommand, h]

/-- A request of words that do not decode is refused for the decoder's reason, whoever issues it. -/
theorem requestCommand_of_decode_error {e : DecodeError} (h : decode fmt ws = .error e) :
    requestCommand fmt (.command a ws) = .error (.ofDecode e) := by
  rw [requestCommand, h]

end

/-- Settles O6: what the front request asks for is what its words decode to. -/
theorem stepRunsTheDecodedCommand : Obligations.StepRunsTheDecodedCommand := by
  unfold Obligations.StepRunsTheDecodedCommand
  intro s a ws rest hf hr hp
  exact ⟨fun i h => step_of_requestCommand_ok hf hr hp (requestCommand_of_decode_ok a h),
    fun e h => step_of_requestCommand_error hf hr hp (requestCommand_of_decode_error a h)⟩

/-! ### Both INITs -/

/-- Unit A with both sides as `FIFO.INIT` leaves its own (R222). -/
def UnitA.initialised : UnitA where
  cnt := ⟨Cnt.initValue, Cnt.initValue⟩
  queue := ⟨Queue.zero, Queue.zero⟩
  init := ⟨true, true⟩

theorem UnitA.initialised_cnt (p : Proc) : UnitA.initialised.cnt.get p = Cnt.initValue := by cases p <;> rfl

theorem UnitA.initialised_queue (p : Proc) : UnitA.initialised.queue.get p = Queue.zero := by cases p <;> rfl

theorem UnitA.initialised_init (p : Proc) : UnitA.initialised.init.get p = true := by cases p <;> rfl

/-- The empty queues agree with REMPTY set and RFULL clear (R136(c)). -/
theorem UnitA.initialised_receiverAgrees (p : Proc) : UnitA.initialised.ReceiverAgrees p := by
  rw [UnitA.ReceiverAgrees, UnitA.initialised_cnt, UnitA.initialised_queue]
  exact ⟨rfl, rfl⟩

/-- Two INITs, whichever comes first, complete in every state and together overwrite the whole of unit A (R221): each writes constants over its own side. -/
theorem execAll_bothInits (p : Proc) (s : State) : execAll [.fifoInit p, .fifoInit p.peer] s =
    .next ((State.complete { s with unitA := UnitA.initialised } [] []).complete [] []) := by
  cases p
  · rfl
  · rfl

/-- Settles O13: both orders answer the same state, and its unit A holds the initial values on each side. -/
theorem fifoResetGivesTheResetValues : Obligations.FifoResetGivesTheResetValues := by
  unfold Obligations.FifoResetGivesTheResetValues
  intro s
  refine ⟨_, _, execAll_bothInits .p0 s, execAll_bothInits .p1 s, rfl, fun p => ⟨UnitA.initialised_cnt p, UnitA.initialised_init p,
    UnitA.initialised_receiverAgrees p, ?queue⟩, List.append_assoc ..⟩
  case queue =>
    simp only [State.queue, State.complete, UnitA.initialised_queue]
    exact ⟨rfl, rfl, rfl, Queue.zero_slot⟩

/-! ### Power-on -/

theorem UnitA.powerOn_queue (p : Proc) : UnitA.powerOn.queue.get p = Queue.zero := by cases p <;> rfl

theorem UnitA.powerOn_init (p : Proc) : UnitA.powerOn.init.get p = false := by cases p <;> rfl

/-- Unit A at power-on meets its invariant: its queues are empty, and no side is initialised, so none has a register to speak of (R38). -/
theorem UnitA.powerOn_inv : UnitA.powerOn.Inv where
  queue p := UnitA.powerOn_queue p ▸ Queue.zero_inv
  side p h := absurd (UnitA.powerOn_init p ▸ h) Bool.false_ne_true

theorem State.powerOn_inv {cfg : Config} (v : Variant) (h : cfg.wf) : (State.powerOn cfg v).Inv := ⟨h, UnitA.powerOn_inv, UnitB.reset_inv _ v⟩

/-- Settles O35: each unit at power-on meets its invariant, and `State.reset` is the power-on state of a well-formed configuration. -/
theorem powerOnMeetsTheInvariant : Obligations.PowerOnMeetsTheInvariant := by
  unfold Obligations.PowerOnMeetsTheInvariant
  have hdefault : Config.default.wf := by decide
  exact ⟨fun _ v h => State.powerOn_inv v h, State.powerOn_inv .fixed hdefault⟩

theorem Datapath.reset_variant (v : Variant) : (Datapath.reset v).variant = v := by cases v <;> rfl

theorem Datapath.reset_outputLength (v : Variant) : (Datapath.reset v).outputLength = 0 := by cases v <;> rfl

theorem Datapath.reset_storeLength (v : Variant) : (Datapath.reset v).storeLength = 0 := by cases v <;> rfl

/-- The FIXED reset values, for a datapath known to be FIXED (R223). -/
theorem Datapath.reset_eq_fixed {v : Variant} {step : Nat} {lane : Lane I16 Nat} (h : Datapath.reset v = .fixed step lane) :
    step = 65536 ∧ lane = ⟨0, 0#16, 0#16, [], [], []⟩ := by
  cases v with
  | fixed =>
    cases h
    exact ⟨rfl, rfl⟩
  | float => cases h

/-- The FLOAT reset values, for a datapath known to be FLOAT (R223). -/
theorem Datapath.reset_eq_float {v : Variant} {lane : Lane F32 F32} (h : Datapath.reset v = .float lane) : lane = ⟨0#32, 0#32, 0#32, [], [], []⟩ := by
  cases v with
  | fixed => cases h
  | float =>
    cases h
    rfl

/-- Settles O36: unit B is at its reset values, whose empty buffers `TR.ISEMPTY` answers 1 for. -/
theorem powerOnStateIsAsStated : Obligations.PowerOnStateIsAsStated := by
  unfold Obligations.PowerOnStateIsAsStated
  intro cfg v
  obtain ⟨t, ht, hleaves⟩ := trIsempty_of_empty (s := State.powerOn cfg v) (Datapath.reset_outputLength v) (Datapath.reset_storeLength v)
  exact ⟨_, rfl, UnitA.powerOn_init, rfl, rfl, rfl, rfl, rfl, rfl, rfl, Datapath.reset_variant v, fun _ _ => Datapath.reset_eq_fixed,
    fun _ => Datapath.reset_eq_float, t, ht, hleaves.completed.outputs⟩

end Sys2Proof.Machine
end
